-- ==== Sys2Proof/Word.lean ====
section
/-! DEFINITION. The bit-vector types of the engine (00_scope.md R7, R8) and the two readings of a
sample. A binary32 or binary64 value is its IEEE 754 bit pattern, as the spec writes them. -/

namespace Sys2Proof

/-- A 32-bit register value or rate (`u32`, 00_scope.md R8; 10_state.md R27). -/
abbrev Word := BitVec 32

/-- One byte of a serialised transaction (30_encoding.md R90). -/
abbrev Byte := BitVec 8

/-- One host transaction word (30_encoding.md R90). -/
abbrev Bus48 := BitVec 48

/-- The two's complement pattern of an `i16` sample (00_scope.md R5, R7). -/
abbrev Sample := BitVec 16

/-- An IEEE 754 binary32 bit pattern (00_scope.md R8, R10). -/
abbrev F32 := BitVec 32

/-- An IEEE 754 binary64 bit pattern (00_scope.md R8, R10). -/
abbrev F64 := BitVec 64

/-- `s16` of 00_scope.md R7: the two's complement reading of a sample. -/
abbrev s16 (x : Sample) : Int := x.toInt

/-- `u16` of 00_scope.md R7: the 16-bit pattern of an integer. -/
abbrev u16 (n : Int) : Sample := BitVec.ofInt 16 n

end Sys2Proof
end

