-- ==== Sys2Proof/Registers.lean ====
section
/-! DEFINITION. The names of the register space: the seven registers of 10_state.md R27 and the error
causes of 60_exceptions.md R261. Their offsets, access rights and codes are functions of
Sys2Proof/Decode.lean. -/

namespace Sys2Proof

/-- The seven registers of the window (10_state.md R27). -/
inductive Reg where
  /-- offset 0x00, read-only (R28) -/
  | params
  /-- offset 0x04, read-write (R29) -/
  | inRate
  /-- offset 0x08, read-write (R29) -/
  | outRate
  /-- offset 0x0C, write-only (R30) -/
  | ctrl
  /-- offset 0x10, read-only (R31) -/
  | status
  /-- offset 0x14, write-only (R32) -/
  | dataIn
  /-- offset 0x18, read-only, a read removes a sample (R33) -/
  | dataOut
  deriving DecidableEq, Repr, Inhabited

/-- The access column of 10_state.md R27. -/
inductive Access where
  | readOnly
  | readWrite
  | writeOnly
  deriving DecidableEq, Repr, Inhabited

/-- The five causes of an error response (60_exceptions.md R261). The hardware reports none of them;
the model names the cause in its trace (30_encoding.md R91). -/
inductive ErrorCause where
  /-- `E_RSVD`: bits 46:40 of the word are not zero -/
  | rsvd
  /-- `E_ALIGN`: the offset is not a multiple of 4 -/
  | align
  /-- `E_UNMAPPED`: an aligned offset in 0x1C..0xFC -/
  | unmapped
  /-- `E_ACCESS`: direction not allowed for the register -/
  | access
  /-- `E_UNCONF`: `PUSH` while `configured = 0` -/
  | unconf
  deriving DecidableEq, Repr, Inhabited

/-- Why a byte string is no operation: it is not one 6-byte transaction (30_encoding.md R90, R98), or
its word is illegal (R96). -/
inductive DecodeReject where
  | badLength
  | illegal (cause : ErrorCause)
  deriving DecidableEq, Repr, Inhabited

end Sys2Proof
end

