-- ==== Sys2Proof/Syntax.lean ====
section
/-! DEFINITION. The ten host operations, one constructor per row of spec/opcode_table.json
(30_encoding.md R95). Operands carry their own ranges: a rate is any `u32`, a sample any `i16`
(30_encoding.md R93), so every term is a well-formed operation. -/

namespace Sys2Proof

/-- The host operations of 44_host_operations.md R216 to R225. -/
inductive Instr where
  /-- `GETPARAMS`, R216 -/
  | getparams
  /-- `GETIN`, R217 -/
  | getin
  /-- `SETIN rate`, R218 -/
  | setin (rate : Word)
  /-- `GETOUT`, R219 -/
  | getout
  /-- `SETOUT rate`, R220 -/
  | setout (rate : Word)
  /-- `INIT`, R221 -/
  | init
  /-- `CTRLNOP`, R222 -/
  | ctrlnop
  /-- `STAT`, R223 -/
  | stat
  /-- `PUSH sample`, R224 -/
  | push (sample : Sample)
  /-- `POP`, R225 -/
  | pop
  deriving DecidableEq, Repr, Inhabited

end Sys2Proof
end

