-- ==== Sys2Proof/Assembler.lean ====
section
/-! DEFINITION. The lines of the assembler notation, operations, generic forms and pseudo-operations
(30_encoding.md R100, R101). Operands are unbounded numbers here, as a line spells them; their ranges
are checked by Sys2Proof/WellFormed.lean and the words they stand for are given by
Sys2Proof/Decode.lean (`assemble`). -/

namespace Sys2Proof

/-- One assembler line (30_encoding.md R100) or pseudo-operation with a fixed expansion (R101). -/
inductive AsmLine where
  | getparams
  | getin
  | setin (rate : Nat)
  | getout
  | setout (rate : Nat)
  | init
  | ctrlnop
  | stat
  | push (sample : Int)
  | pop
  /-- `RD <reg>` -/
  | rd (reg : Reg)
  /-- `WR <reg>, <value>` -/
  | wr (reg : Reg) (value : Nat)
  /-- `.txn <48-bit value>` -/
  | txn (word : Nat)
  /-- `CONFIG <in>, <out>` -/
  | config (input output : Nat)
  /-- `PROCESS <s0>, ...` -/
  | process (samples : List Int)
  /-- `COLLECT <n>` -/
  | collect (count : Nat)
  /-- `RESAMPLE <in>, <out>, <s0>, ...` -/
  | resample (input output : Nat) (samples : List Int)
  deriving DecidableEq, Repr, Inhabited

end Sys2Proof
end

