-- ==== Sys2Proof/WellFormed.lean ====
section
/-! DEFINITION. What is well formed: a transaction word (30_encoding.md R96, each defect its own check,
written from the rule's text and not from the decoder) and an assembler line (operand ranges of R100).
An `Instr` needs no check of its own: its operand types are the operand ranges. -/

namespace Sys2Proof

/-- `RSVD`, bits 46:40, is zero (R96 case 1). -/
def Bus48.rsvdZero (w : Bus48) : Bool := w.extractLsb' 40 7 == 0#7

/-- `ADDR[1:0]`, bits 33:32, is zero (R96 case 2). -/
def Bus48.aligned (w : Bus48) : Bool := w.extractLsb' 32 2 == 0#2

/-- `ADDR` does not lie in the reserved offsets 0x1C..0xFF (R96 case 3). -/
def Bus48.mapped (w : Bus48) : Bool := decide ((w.extractLsb' 32 8).toNat < 0x1C)

/-- The five wrong directions of R96 case 4 are absent: no write of 0x00, 0x10, 0x18 and no read of
0x0C, 0x14. -/
def Bus48.directionAllowed (w : Bus48) : Bool :=
  if w.getLsbD 47 then
    !([0x00#8, 0x10#8, 0x18#8].contains (w.extractLsb' 32 8))
  else
    !([0x0C#8, 0x14#8].contains (w.extractLsb' 32 8))

/-- A legal transaction word: none of the four defects of R96. -/
def Bus48.legal (w : Bus48) : Bool :=
  w.rsvdZero && w.aligned && w.mapped && w.directionAllowed

/-- The range of a rate operand: 0 <= rate <= 4294967295 (R100). -/
def rateInRange (n : Nat) : Bool := decide (n ≤ 4294967295)

/-- The range of a sample operand: -32768 <= sample <= 32767 (R100). -/
def sampleInRange (x : Int) : Bool := decide (-32768 ≤ x) && decide (x ≤ 32767)

/-- Operand ranges of an assembler line (R100, R101). -/
def AsmLine.wellFormed : AsmLine → Bool
  | .getparams => true
  | .getin => true
  | .setin rate => rateInRange rate
  | .getout => true
  | .setout rate => rateInRange rate
  | .init => true
  | .ctrlnop => true
  | .stat => true
  | .push sample => sampleInRange sample
  | .pop => true
  | .rd _ => true
  | .wr _ value => decide (value < 2 ^ 32)
  | .txn word => decide (word < 2 ^ 48)
  | .config input output => rateInRange input && rateInRange output
  | .process samples => samples.all sampleInRange
  | .collect _ => true
  | .resample input output samples =>
    rateInRange input && rateInRange output && samples.all sampleInRange

end Sys2Proof
end

