-- ==== Sys2Proof/Decode.lean ====
section
/-! DEFINITION. The register map, the BUS48 decoder and the encoder (30_encoding.md). The decoder is
total on 48-bit words and on byte strings, and rejects by name. -/

namespace Sys2Proof

/-! ## The register map (10_state.md R27) -/

/-- The byte offset of a register in the window. -/
def regOffset : Reg → BitVec 8
  | .params => 0x00#8
  | .inRate => 0x04#8
  | .outRate => 0x08#8
  | .ctrl => 0x0C#8
  | .status => 0x10#8
  | .dataIn => 0x14#8
  | .dataOut => 0x18#8

/-- The access rights of a register. -/
def regAccess : Reg → Access
  | .params => .readOnly
  | .inRate => .readWrite
  | .outRate => .readWrite
  | .ctrl => .writeOnly
  | .status => .readOnly
  | .dataIn => .writeOnly
  | .dataOut => .readOnly

/-- Whether a write (`true`) or a read (`false`) is allowed under access rights. -/
def directionOk (we : Bool) : Access → Bool
  | .readOnly => !we
  | .readWrite => true
  | .writeOnly => we

/-- The register at an offset, none in the reserved range (10_state.md R34) and at unaligned offsets. -/
def regAt (off : BitVec 8) : Option Reg :=
  if off = 0x00#8 then some .params
  else if off = 0x04#8 then some .inRate
  else if off = 0x08#8 then some .outRate
  else if off = 0x0C#8 then some .ctrl
  else if off = 0x10#8 then some .status
  else if off = 0x14#8 then some .dataIn
  else if off = 0x18#8 then some .dataOut
  else none

/-- The code the spec assigns to a cause (60_exceptions.md R261); 0 stands for "no error". -/
def causeCode : Option ErrorCause → Nat
  | none => 0
  | some .rsvd => 1
  | some .align => 2
  | some .unmapped => 3
  | some .access => 4
  | some .unconf => 5

/-! ## Field extraction (30_encoding.md R92) -/

/-- `WE = T[47]` -/
def weOf (w : Bus48) : Bool := w.getLsbD 47

/-- `RSVD = T[46:40]` -/
def rsvdOf (w : Bus48) : BitVec 7 := w.extractLsb' 40 7

/-- `ADDR = T[39:32]` -/
def addrOf (w : Bus48) : BitVec 8 := w.extractLsb' 32 8

/-- `DATA = T[31:0]` -/
def dataOf (w : Bus48) : Word := w.extractLsb' 0 32

/-! ## Decoding (30_encoding.md R93, R99) -/

/-- The operation an access to a mapped register is, or `E_ACCESS`. The rate operand is `DATA[31:0]`, the
sample operand `DATA[15:0]`, the control operand `DATA[0]` (R93); every other data bit is ignored (R97). -/
def decodeAccess (we : Bool) (reg : Reg) (data : Word) : Except ErrorCause Instr :=
  match reg, we with
  | .params, false => .ok .getparams
  | .params, true => .error .access
  | .inRate, false => .ok .getin
  | .inRate, true => .ok (.setin data)
  | .outRate, false => .ok .getout
  | .outRate, true => .ok (.setout data)
  | .ctrl, false => .error .access
  | .ctrl, true => if data.getLsbD 0 then .ok .init else .ok .ctrlnop
  | .status, false => .ok .stat
  | .status, true => .error .access
  | .dataIn, false => .error .access
  | .dataIn, true => .ok (.push (data.extractLsb' 0 16))
  | .dataOut, false => .ok .pop
  | .dataOut, true => .error .access

/-- The decoder, its tests in the order of R99: reserved bits, alignment, mapping, direction. -/
def decode (w : Bus48) : Except ErrorCause Instr :=
  if rsvdOf w ≠ 0#7 then .error .rsvd
  else if (addrOf w).extractLsb' 0 2 ≠ 0#2 then .error .align
  else
    match regAt (addrOf w) with
    | none => .error .unmapped
    | some reg => decodeAccess (weOf w) reg (dataOf w)

/-! ## Encoding (30_encoding.md R90, R95, R100) -/

/-- A BUS48 word from its fields, `RSVD` zero. -/
def busWord (we : Bool) (off : BitVec 8) (data : Word) : Bus48 :=
  (((BitVec.ofBool we ++ (0#7 : BitVec 7)) ++ off) ++ data).cast rfl

/-- `MemRead(off, 4)` of 00_scope.md R9 as a transaction word, the canonical 0 in the ignored data. -/
def readWord (reg : Reg) : Bus48 := busWord false (regOffset reg) 0#32

/-- `MemWrite(off, 4, v)` of 00_scope.md R9 as a transaction word. -/
def writeWord (reg : Reg) (value : Word) : Bus48 := busWord true (regOffset reg) value

/-- The canonical word of an operation: every ignored bit 0 (R100). -/
def encode : Instr → Bus48
  | .getparams => readWord .params
  | .getin => readWord .inRate
  | .setin rate => writeWord .inRate rate
  | .getout => readWord .outRate
  | .setout rate => writeWord .outRate rate
  | .init => writeWord .ctrl 1#32
  | .ctrlnop => writeWord .ctrl 0#32
  | .stat => readWord .status
  | .push sample => writeWord .dataIn (sample.setWidth 32)
  | .pop => readWord .dataOut

/-! ## Byte serialisation: 6 bytes, most significant first (20_memory.md R65, 30_encoding.md R90) -/

/-- The six bytes of a word, most significant first. -/
def busBytes (w : Bus48) : List Byte :=
  [w.extractLsb' 40 8, w.extractLsb' 32 8, w.extractLsb' 24 8,
   w.extractLsb' 16 8, w.extractLsb' 8 8, w.extractLsb' 0 8]

/-- The word of six bytes, none for any other length (R98: one length only). -/
def busOfBytes : List Byte → Option Bus48
  | [b5, b4, b3, b2, b1, b0] => some ((((((b5 ++ b4) ++ b3) ++ b2) ++ b1) ++ b0).cast rfl)
  | _ => none

/-- The decoder on any byte string. -/
def decodeBytes (bytes : List Byte) : Except DecodeReject Instr :=
  match busOfBytes bytes with
  | none => .error .badLength
  | some w =>
    match decode w with
    | .ok i => .ok i
    | .error c => .error (.illegal c)

/-- The word whose bit n is bit n of `w`, the bits from `nbits` up zero: spec/opcode_table.json numbers a
transaction's bits as 30_encoding.md R90 does, bit 47 `WE` down to bit 0. -/
def tableWord (nbits w : Nat) : Bus48 := BitVec.ofNat 48 (w % 2 ^ nbits)

/-- What the decoder reads from the bytes of that word. -/
def decodeTableWord (nbits w : Nat) : Option Instr :=
  match decodeBytes (busBytes (tableWord nbits w)) with
  | .ok i => some i
  | .error _ => none

/-! ## The opcode map as rows (30_encoding.md R95) -/

/-- One row of R95: the word `w` selects it when `w &&& mask = pattern`. -/
structure OpRow where
  mnemonic : String
  pattern : Bus48
  mask : Bus48
  deriving DecidableEq, Repr

/-- The ten rows of R95. -/
def opRows : List OpRow :=
  [⟨"GETPARAMS", 0x000000000000#48, 0xFFFF00000000#48⟩,
   ⟨"GETIN", 0x000400000000#48, 0xFFFF00000000#48⟩,
   ⟨"SETIN", 0x800400000000#48, 0xFFFF00000000#48⟩,
   ⟨"GETOUT", 0x000800000000#48, 0xFFFF00000000#48⟩,
   ⟨"SETOUT", 0x800800000000#48, 0xFFFF00000000#48⟩,
   ⟨"INIT", 0x800C00000001#48, 0xFFFF00000001#48⟩,
   ⟨"CTRLNOP", 0x800C00000000#48, 0xFFFF00000001#48⟩,
   ⟨"STAT", 0x001000000000#48, 0xFFFF00000000#48⟩,
   ⟨"PUSH", 0x801400000000#48, 0xFFFF00000000#48⟩,
   ⟨"POP", 0x001800000000#48, 0xFFFF00000000#48⟩]

/-- A word selects a row. -/
def rowSelects (row : OpRow) (w : Bus48) : Bool := w &&& row.mask == row.pattern

/-- The mnemonic of an operation in R95. -/
def mnemonicOf : Instr → String
  | .getparams => "GETPARAMS"
  | .getin => "GETIN"
  | .setin _ => "SETIN"
  | .getout => "GETOUT"
  | .setout _ => "SETOUT"
  | .init => "INIT"
  | .ctrlnop => "CTRLNOP"
  | .stat => "STAT"
  | .push _ => "PUSH"
  | .pop => "POP"

/-! ## The assembler (30_encoding.md R100, R101) -/

/-- The words an assembler line emits; the pseudo-operations of R101 are their fixed expansions. `RD` puts
the canonical 0 in the ignored data field. -/
def assemble : AsmLine → List Bus48
  | .getparams => [encode .getparams]
  | .getin => [encode .getin]
  | .setin rate => [encode (.setin (BitVec.ofNat 32 rate))]
  | .getout => [encode .getout]
  | .setout rate => [encode (.setout (BitVec.ofNat 32 rate))]
  | .init => [encode .init]
  | .ctrlnop => [encode .ctrlnop]
  | .stat => [encode .stat]
  | .push sample => [encode (.push (u16 sample))]
  | .pop => [encode .pop]
  | .rd reg => [readWord reg]
  | .wr reg value => [writeWord reg (BitVec.ofNat 32 value)]
  | .txn word => [BitVec.ofNat 48 word]
  | .config input output =>
    [encode (.setin (BitVec.ofNat 32 input)), encode (.setout (BitVec.ofNat 32 output)), encode .init]
  | .process samples => samples.map fun x => encode (.push (u16 x))
  | .collect count => List.replicate count (encode .pop)
  | .resample input output samples =>
    [encode (.setin (BitVec.ofNat 32 input)), encode (.setout (BitVec.ofNat 32 output)), encode .init]
      ++ samples.map fun x => encode (.push (u16 x))

/-- The platform's view of the window (20_memory.md R61, R68): an access at a platform address inside the 256
bytes from `base` names the register offset `address - base`; outside them it does not reach the block. -/
def busWordAt (base address : Nat) (we : Bool) (data : Word) : Option Bus48 :=
  if base ≤ address ∧ address < base + 256 then
    some (busWord we (BitVec.ofNat 8 (address - base)) data)
  else none

end Sys2Proof
end

