-- ==== Sys2Proof/Config.lean ====
section
/-! DEFINITION. What is fixed for one machine: the constants of 00_scope.md R5, the type of the named
parameters of 00_scope.md R6 and 92_eei_decisions.md ("Open parameters, collected"), and the free values
(opaque constants: no proof can see what they are).

A machine's parameters stand in its state (`State.params`) as plain data that no step changes, so a
statement about every state is a statement about every choice of them. -/

namespace Sys2Proof

namespace Config

/-! ## Constants fixed by the source (00_scope.md R5) -/

/-- `NUM_PHASES` -/
abbrev numPhases : Nat := 128

/-- `TAPS_PER_PHASE` -/
abbrev tapsPerPhase : Nat := 16

/-- `COEF_WORDS = NUM_PHASES * TAPS_PER_PHASE` -/
abbrev coefWords : Nat := 2048

end Config

/-- The coefficient table: `COEF_WORDS` = 2048 binary32 words, flattened row-major (10_state.md R38). -/
abbrev Table := Vector F32 2048

/-- One coefficient row, or the history window: `TAPS_PER_PHASE` = 16 binary32 words (10_state.md R21, 42_dot_product_mac.md R188). -/
abbrev Row := Vector F32 16

/-! ## Named parameters (00_scope.md R6) -/

/-- Capacity of a sample queue: unbounded, or an integer at least 1, written as `more + 1`
(00_scope.md R6, D6). -/
inductive Depth where
  | unbounded
  | entries (more : Nat)
  deriving DecidableEq, Repr, Inhabited

/-- `CENTER`: `(taps_per_phase - 1) / 2` read in real (7.5) or in integer (7) arithmetic (D12). -/
inductive Center where
  | realDivision
  | integerDivision
  deriving DecidableEq, Repr, Inhabited

/-- `STEP_MODE` (10_state.md R37, D14). -/
inductive StepMode where
  | quotient
  | reciprocal
  deriving DecidableEq, Repr, Inhabited

/-- `OUT_ROUND` (43_output_saturator.md R203, D16). The spec names one value, toward zero, and compares it
with rounding to nearest; the second constructor is that other value. DESIGN CHOICE, log entry 9. -/
inductive OutRound where
  | towardZero
  | nearestEven
  deriving DecidableEq, Repr, Inhabited

/-- Order of a horizontal sum, left open by 42_dot_product_mac.md R183: `((a0+a1)+a2)+...` or a balanced tree
`(a0+a1)+(a2+a3)`. -/
inductive LaneSum where
  | sequential
  | pairwise
  deriving DecidableEq, Repr, Inhabited

/-- `DOT_MODE` (42_dot_product_mac.md R182 to R186): this hardware's datapath, the two variants the source
describes, and any other function of the two operands. -/
inductive DotMode where
  | scalar
  | simd4Fma (sum : LaneSum)
  | simd8 (fused : Bool) (sum : LaneSum)
  | otherDot
  deriving DecidableEq, Repr, Inhabited

/-- `CoefGen` (40_filter_bank_builder.md R129, R130): the reference builder with the reference sine and cosine,
the same builder with an open sine and cosine, or any other function of the two rates. -/
inductive CoefMode where
  | reference
  | openTrig
  | otherTable
  deriving DecidableEq, Repr, Inhabited

/-- The parameters of one machine (00_scope.md R6; 92_eei_decisions.md, "Open parameters, collected"). -/
structure Params where
  /-- `BASE`: where the platform places the window (D26) -/
  base : Nat
  /-- `IN_DEPTH` (D6) -/
  inDepth : Depth
  /-- `OUT_DEPTH` (D6) -/
  outDepth : Depth
  /-- `CENTER` (D12) -/
  center : Center
  /-- `STEP_MODE` (D14) -/
  stepMode : StepMode
  /-- `HAMMING_A0` (D13) -/
  hammingA0 : F64
  /-- `HAMMING_A1` (D13) -/
  hammingA1 : F64
  /-- `PI64` (D11) -/
  pi64 : F64
  /-- `CoefGen` (D11) -/
  coefMode : CoefMode
  /-- `Dot` (D15) -/
  dotMode : DotMode
  /-- `OUT_ROUND` (D16) -/
  outRound : OutRound
  /-- `SAT_NAN` (D16) -/
  satNan : Sample
  deriving DecidableEq, Repr, Inhabited

/-- This hardware's value of every parameter the spec decides (00_scope.md R6), for the given value of the
three it leaves OPEN. -/
def Params.decided (base : Nat) (inDepth outDepth : Depth) : Params where
  base := base
  inDepth := inDepth
  outDepth := outDepth
  center := .realDivision
  stepMode := .quotient
  hammingA0 := 0x3FE147AE147AE148#64
  hammingA1 := 0x3FDD70A3D70A3D71#64
  pi64 := 0x400921FB54442D18#64
  coefMode := .reference
  dotMode := .scalar
  outRound := .towardZero
  satNan := 0#16

/-! ## Who moves next (00_scope.md R14) -/

/-- What the next step of the machine is: a turn of the host, a turn of the engine, or the reset event
(70_reset_and_hazards.md R290). -/
inductive Event where
  | host
  | engine
  | reset
  deriving DecidableEq, Repr, Inhabited

/-! ## Free values -/

/-- The floating-point operations whose result can be a NaN, for the free bits of that NaN. -/
inductive FloatOp where
  | add
  | sub
  | mul
  | div
  | fma
  | narrow
  | sine
  | cosine
  deriving DecidableEq, Repr, Inhabited

namespace Config

/-- The interleaving of host, engine and reset (00_scope.md R14, 70_reset_and_hazards.md R290) once the schedule
written in the state has run out at step number `n`: the open number and order of events before the next turn
of the host that fairness (R302) promises, and then before the next turn of the engine. -/
opaque freeRound : Nat → List Event × List Event

/-- Sign and payload of a binary32 NaN result, which D10 leaves open: a function of the operation and its
operands' bits. -/
opaque nanBits32 : FloatOp → List Nat → BitVec 23

/-- Sign and payload of a binary64 NaN result (D10). -/
opaque nanBits64 : FloatOp → List Nat → BitVec 52

/-- `sin64` where it is left open (00_scope.md R10): a function of its argument alone. -/
opaque sin64 : F64 → F64

/-- `cos64` where it is left open (00_scope.md R10). -/
opaque cos64 : F64 → F64

/-- `CoefGen` where it is left open (40_filter_bank_builder.md R130): a function of the two rates. -/
opaque coefTable : Word → Word → Table

/-- `Dot` where it is left open (42_dot_product_mac.md R186): a function of its two operands. -/
opaque dot : Row → Row → F32

/-- A 32-bit element that a reset event leaves without a value (10_state.md R46, R47). -/
opaque unsetWord : Nat → Word

/-- A binary64 element that a reset event leaves without a value. -/
opaque unsetF64 : Nat → F64

/-- The coefficient memory as a reset event leaves it. -/
opaque unsetTable : Nat → Table

/-- The history register file as a reset event leaves it. -/
opaque unsetRow : Nat → Row

/-- The latch `cur` as a reset event leaves it. -/
opaque unsetSample : Nat → Sample

end Config

end Sys2Proof
end

