-- ==== Sys2Proof/Machine/Float.lean ====
section
/-! DEFINITION. The floating-point primitives of 00_scope.md R10: IEEE 754 binary32 and binary64, round to
nearest, ties to even, subnormals kept, no flags (D10).

A finite value is held exactly, as a sign and a whole number of the format's smallest subnormal; a result
is computed exactly as a fraction of such units and narrowed once. -/

namespace Sys2Proof.Machine

/-- A binary format by its field widths. -/
structure FloatFormat where
  /-- width of the fraction field -/
  fracBits : Nat
  /-- width of the exponent field -/
  expBits : Nat
  deriving DecidableEq, Repr

/-- binary32 -/
def fmt32 : FloatFormat := ⟨23, 8⟩

/-- binary64 -/
def fmt64 : FloatFormat := ⟨52, 11⟩

/-- The magnitude pattern of an infinity: exponent field all ones, fraction 0. -/
def infPattern (f : FloatFormat) : Nat := (2 ^ f.expBits - 1) * 2 ^ f.fracBits

/-- The weight of the sign bit. -/
def signWeight (f : FloatFormat) : Nat := 2 ^ (f.fracBits + f.expBits)

/-- How many units (smallest subnormals) make 1.0, as a power of two: 149 for binary32, 1074 for binary64. -/
def unitExp (f : FloatFormat) : Nat := 2 ^ (f.expBits - 1) - 2 + f.fracBits

/-- 1.0 in units. -/
def oneUnits (f : FloatFormat) : Nat := 2 ^ unitExp f

/-- The magnitude, in units, of a magnitude pattern (exponent and fraction fields): subnormal where the
exponent field is 0, else with the hidden bit. -/
def magUnits (f : FloatFormat) (pat : Nat) : Nat :=
  if pat < 2 ^ f.fracBits then pat
  else (2 ^ f.fracBits + pat % 2 ^ f.fracBits) * 2 ^ (pat / 2 ^ f.fracBits - 1)

/-- What a bit pattern stands for. The payload of a NaN is dropped: D10 says that nothing observes it. -/
inductive FloatVal where
  | nan
  | inf (neg : Bool)
  | fin (neg : Bool) (mag : Nat)
  deriving DecidableEq, Repr

/-- The value of a bit pattern of the format. -/
def floatVal (f : FloatFormat) (bits : Nat) : FloatVal :=
  let neg := decide (signWeight f ≤ bits)
  let pat := bits % signWeight f
  if infPattern f < pat then .nan
  else if pat = infPattern f then .inf neg
  else .fin neg (magUnits f pat)

/-- The value of a binary32 pattern. -/
def val32 (a : F32) : FloatVal := floatVal fmt32 a.toNat

/-- The value of a binary64 pattern. -/
def val64 (a : F64) : FloatVal := floatVal fmt64 a.toNat

/-- An exact result: a NaN, an infinity, or the fraction `num / den` of units. -/
inductive ExactVal where
  | nan
  | inf (neg : Bool)
  | ratio (neg : Bool) (num den : Nat)
  deriving DecidableEq, Repr

/-- `n / d` rounded to the nearest whole number, ties to even. -/
def divNearestEven (n d : Nat) : Nat :=
  let q := n / d
  let r := n % d
  if d < 2 * r then q + 1
  else if 2 * r = d then q + q % 2
  else q

/-- The magnitude pattern nearest to `num / den` units, ties to even. `k` is the exponent of the spacing of
representable values at that size (0 for subnormals); a carry out of the significand moves the pattern on
to the next binade by itself, and a result past the largest finite value is the infinity. -/
def roundPattern (f : FloatFormat) (num den : Nat) : Nat :=
  let k := Nat.log2 (num / den) - f.fracBits
  let m := divNearestEven num (den * 2 ^ k)
  min (k * 2 ^ f.fracBits + m) (infPattern f)

/-- The bit pattern of an exact result; `nan` is the pattern a NaN result has. -/
def roundBits (f : FloatFormat) (nan : Nat) : ExactVal → Nat
  | .nan => nan
  | .inf neg => (if neg then signWeight f else 0) + infPattern f
  | .ratio neg num den => (if neg then signWeight f else 0) + roundPattern f num den

/-- A quiet binary32 NaN with free sign and payload (D10; log entry 8). -/
def nan32 (op : FloatOp) (operands : List Nat) : F32 :=
  let free := Config.nanBits32 op operands
  ((BitVec.ofBool (free.getLsbD 22) ++ 0x1FF#9) ++ free.extractLsb' 0 22).cast rfl

/-- A quiet binary64 NaN with free sign and payload (D10; log entry 8). -/
def nan64 (op : FloatOp) (operands : List Nat) : F64 :=
  let free := Config.nanBits64 op operands
  ((BitVec.ofBool (free.getLsbD 51) ++ 0xFFF#12) ++ free.extractLsb' 0 51).cast rfl

/-- Narrow an exact result to binary32. -/
def round32 (nan : F32) (x : ExactVal) : F32 := BitVec.ofNat 32 (roundBits fmt32 nan.toNat x)

/-- Narrow an exact result to binary64. -/
def round64 (nan : F64) (x : ExactVal) : F64 := BitVec.ofNat 64 (roundBits fmt64 nan.toNat x)

/-! ## Exact arithmetic on values -/

/-- A signed magnitude as an integer of units. -/
def signedUnits (neg : Bool) (mag : Nat) : Int := if neg then -(mag : Int) else (mag : Int)

/-- An exact sum of integers of units; `zeroNeg` is the sign of a zero sum. -/
def exactOfInt (zeroNeg : Bool) (z : Int) (den : Nat) : ExactVal :=
  .ratio (if z = 0 then zeroNeg else decide (z < 0)) z.natAbs den

/-- Exact sum. A zero sum is negative only when both operands are (IEEE 754, round to nearest). -/
def addExact : FloatVal → FloatVal → ExactVal
  | .nan, _ => .nan
  | _, .nan => .nan
  | .inf s, .inf t => if s = t then .inf s else .nan
  | .inf s, .fin _ _ => .inf s
  | .fin _ _, .inf t => .inf t
  | .fin s a, .fin t b => exactOfInt (s && t) (signedUnits s a + signedUnits t b) 1

/-- The value with its sign changed. -/
def negVal : FloatVal → FloatVal
  | .nan => .nan
  | .inf s => .inf (!s)
  | .fin s a => .fin (!s) a

/-- Exact product of two values of a format whose 1.0 is `one` units. -/
def mulExact (one : Nat) : FloatVal → FloatVal → ExactVal
  | .nan, _ => .nan
  | _, .nan => .nan
  | .inf s, .inf t => .inf (s ^^ t)
  | .inf s, .fin t b => if b = 0 then .nan else .inf (s ^^ t)
  | .fin s a, .inf t => if a = 0 then .nan else .inf (s ^^ t)
  | .fin s a, .fin t b => .ratio (s ^^ t) (a * b) one

/-- Exact quotient. -/
def divExact (one : Nat) : FloatVal → FloatVal → ExactVal
  | .nan, _ => .nan
  | _, .nan => .nan
  | .inf _, .inf _ => .nan
  | .inf s, .fin t _ => .inf (s ^^ t)
  | .fin s _, .inf t => .ratio (s ^^ t) 0 1
  | .fin s a, .fin t b =>
    if b = 0 then (if a = 0 then .nan else .inf (s ^^ t))
    else .ratio (s ^^ t) (a * one) b

/-- Exact `x * y + z`. -/
def fmaExact (one : Nat) (x y z : FloatVal) : ExactVal :=
  match mulExact one x y, z with
  | .nan, _ => .nan
  | _, .nan => .nan
  | .inf s, .inf t => if s = t then .inf s else .nan
  | .inf s, .fin _ _ => .inf s
  | .ratio _ _ _, .inf t => .inf t
  | .ratio s n d, .fin t c => exactOfInt (s && t) (signedUnits s n + signedUnits t (c * d)) d

/-- The order of values: false when either is a NaN; the zeros are equal. -/
def ltVal : FloatVal → FloatVal → Bool
  | .nan, _ => false
  | _, .nan => false
  | .inf s, .inf t => s && !t
  | .inf s, .fin _ _ => s
  | .fin _ _, .inf t => !t
  | .fin s a, .fin t b => decide (signedUnits s a < signedUnits t b)

/-- Less or equal: false when either is a NaN. -/
def leVal : FloatVal → FloatVal → Bool
  | .nan, _ => false
  | _, .nan => false
  | .inf s, .inf t => s || !t
  | .inf s, .fin _ _ => s
  | .fin _ _, .inf t => !t
  | .fin s a, .fin t b => decide (signedUnits s a ≤ signedUnits t b)

/-! ## The primitives of 00_scope.md R10 -/

/-- `fadd64` -/
def fadd64 (a b : F64) : F64 := round64 (nan64 .add [a.toNat, b.toNat]) (addExact (val64 a) (val64 b))

/-- `fsub64` -/
def fsub64 (a b : F64) : F64 := round64 (nan64 .sub [a.toNat, b.toNat]) (addExact (val64 a) (negVal (val64 b)))

/-- `fmul64` -/
def fmul64 (a b : F64) : F64 :=
  round64 (nan64 .mul [a.toNat, b.toNat]) (mulExact (oneUnits fmt64) (val64 a) (val64 b))

/-- `fdiv64` -/
def fdiv64 (a b : F64) : F64 :=
  round64 (nan64 .div [a.toNat, b.toNat]) (divExact (oneUnits fmt64) (val64 a) (val64 b))

/-- `flt64` -/
def flt64 (a b : F64) : Bool := ltVal (val64 a) (val64 b)

/-- `fge64` -/
def fge64 (a b : F64) : Bool := leVal (val64 b) (val64 a)

/-- `fabs64`: the sign bit cleared. -/
def fabs64 (a : F64) : F64 := a &&& 0x7FFFFFFFFFFFFFFF#64

/-- `floor64_int`: the largest integer not above a finite value; none where R10 does not define it. -/
def floor64Int (a : F64) : Option Int :=
  match val64 a with
  | .nan => none
  | .inf _ => none
  | .fin s m => some (signedUnits s m / (oneUnits fmt64 : Int))

/-- `int_to_f64` on an integer of magnitude below 2^53 (exact there). -/
def intToF64 (n : Int) : F64 :=
  round64 0#64 (exactOfInt false (n * (oneUnits fmt64 : Int)) 1)

/-- `u32_to_f64` -/
def u32ToF64 (n : Word) : F64 := intToF64 (n.toNat : Int)

/-- `f64_to_f32`: one rounding. -/
def f64ToF32 (a : F64) : F32 :=
  round32 (nan32 .narrow [a.toNat])
    (match val64 a with
     | .nan => .nan
     | .inf s => .inf s
     | .fin s m => .ratio s m (2 ^ (unitExp fmt64 - unitExp fmt32)))

/-- `fadd32` -/
def fadd32 (a b : F32) : F32 := round32 (nan32 .add [a.toNat, b.toNat]) (addExact (val32 a) (val32 b))

/-- `fmul32` -/
def fmul32 (a b : F32) : F32 :=
  round32 (nan32 .mul [a.toNat, b.toNat]) (mulExact (oneUnits fmt32) (val32 a) (val32 b))

/-- `fma32`: one rounding. -/
def fma32 (a b c : F32) : F32 :=
  round32 (nan32 .fma [a.toNat, b.toNat, c.toNat]) (fmaExact (oneUnits fmt32) (val32 a) (val32 b) (val32 c))

/-- `i16_to_f32` (43_output_saturator.md R200). -/
def i16ToF32 (x : Sample) : F32 :=
  round32 0#32 (exactOfInt false (s16 x * (oneUnits fmt32 : Int)) 1)

/-- `isNaN32` -/
def isNaN32 (a : F32) : Bool := val32 a == .nan

/-- `a >= b` on binary32 (used by 43_output_saturator.md R201). -/
def fge32 (a b : F32) : Bool := leVal (val32 b) (val32 a)

end Sys2Proof.Machine
end

