-- ==== Sys2Proof/Machine/Trig.lean ====
section
/-! DEFINITION. The reference sine and cosine: the correctly rounded functions that
40_filter_bank_builder.md R130 names for the reference instantiation of `sin64` and `cos64`, evaluated in
fixed point with a guard of more than 200 bits past a binary64 significand (log entry 6). -/

namespace Sys2Proof.Machine

/-- Fraction bits of the argument reduction. -/
def reduceBits : Nat := 1400

/-- Fraction bits of the series. -/
def seriesBits : Nat := 320

/-- Half of pi times `2 ^ reduceBits`, rounded down. -/
def halfPiFixed : Nat :=
  0x1921fb54442d18469898cc51701b839a252049c1114cf98e804177d4c76273644a29410f31c6809bbdf2a33679a748636605614dbe4be286e9fc26adadaa3848bc90b6aecc4bcfd8de89885d34c6fdad617feb96de80d6fdbdc70d7f6b5133f4b5d3e4822f8963fcc9250cca3d9c8b67b8400f97142c77e0b31b4906c38aba734d22c7f51fa499ebf06caba47b9475b2c38c5e6ac410aa5773daa520ee12d2cdace186a9c95793009e2e8d811943042

/-- The alternating series `t - t*r2/(n(n+1)) + ...` in `seriesBits` fixed point. `same` collects the terms
with the sign of the current one, `other` the rest; after an even number of terms `same` is the positive
sum. -/
def altSeries (r2 : Nat) : Nat → Nat → Nat → Nat → Nat → Nat
  | 0, _, _, same, other => same - other
  | fuel + 1, term, n, same, other =>
    altSeries r2 fuel (term * r2 / 2 ^ seriesBits / (n * (n + 1))) (n + 2) other (same + term)

/-- The sine of `r / 2 ^ seriesBits`, `0 <= r < pi/2`, in `seriesBits` fixed point. -/
def sinFixed (r : Nat) : Nat := altSeries (r * r / 2 ^ seriesBits) 40 r 2 0 0

/-- The cosine of `r / 2 ^ seriesBits`, `0 <= r < pi/2`, in `seriesBits` fixed point. -/
def cosFixed (r : Nat) : Nat := altSeries (r * r / 2 ^ seriesBits) 40 (2 ^ seriesBits) 1 0 0

/-- The sine of (a magnitude in binary64 units plus `shift` quarter turns), negated when `neg`, exact up to the
guard. -/
def sineExact (neg : Bool) (shift mag : Nat) : ExactVal :=
  let x := mag * 2 ^ (reduceBits - unitExp fmt64)
  let quarter := x / halfPiFixed + shift
  let r := (x % halfPiFixed) / 2 ^ (reduceBits - seriesBits)
  let size := if quarter % 2 = 0 then sinFixed r else cosFixed r
  .ratio (neg ^^ decide (2 ≤ quarter % 4)) (size * oneUnits fmt64) (2 ^ seriesBits)

/-- Below this magnitude (2^-27) the correctly rounded sine is its argument and the correctly rounded cosine
is 1.0. -/
def tinyUnits : Nat := 2 ^ (unitExp fmt64 - 27)

/-- The reference `sin64`. -/
def refSin64 (a : F64) : F64 :=
  match val64 a with
  | .nan => nan64 .sine [a.toNat]
  | .inf _ => nan64 .sine [a.toNat]
  | .fin s m => if m < tinyUnits then a else round64 0#64 (sineExact s 0 m)

/-- The reference `cos64`. -/
def refCos64 (a : F64) : F64 :=
  match val64 a with
  | .nan => nan64 .cosine [a.toNat]
  | .inf _ => nan64 .cosine [a.toNat]
  | .fin _ m => if m < tinyUnits then 0x3FF0000000000000#64 else round64 0#64 (sineExact false 1 m)

end Sys2Proof.Machine
end

