-- ==== Sys2Proof/Machine/Builder.lean ====
section
/-! DEFINITION. The filter bank builder (40_filter_bank_builder.md): `Build` of R129 over any sine and
cosine, and `CoefGen` of R130 under the machine's parameters. -/

namespace Sys2Proof.Machine

/-- `ratio = fdiv64(u32_to_f64(output_rate), u32_to_f64(input_rate))` (R121). -/
def rateRatio (input output : Word) : F64 := fdiv64 (u32ToF64 output) (u32ToF64 input)

/-- `step` under `STEP_MODE` (10_state.md R37). -/
def rateStep (mode : StepMode) (input output : Word) : F64 :=
  match mode with
  | .quotient => fdiv64 (u32ToF64 input) (u32ToF64 output)
  | .reciprocal => fdiv64 0x3FF0000000000000#64 (rateRatio input output)

/-- `cutoff`: 0.45 when `ratio >= 1.0`, else `ratio * 0.45` (R122). -/
def cutoffOf (ratio : F64) : F64 :=
  if fge64 ratio 0x3FF0000000000000#64 then 0x3FDCCCCCCCCCCCCD#64
  else fmul64 ratio 0x3FDCCCCCCCCCCCCD#64

/-- `CENTER` as a binary64 value: 7.5, or 7 in the integer reading (D12). -/
def centerOf : Center → F64
  | .realDivision => 0x401E000000000000#64
  | .integerDivision => 0x401C000000000000#64

/-- The tap offset `x = t - CENTER - p/128` (R123). -/
def tapOffset (center : F64) (ph t : Nat) : F64 :=
  fsub64 (fsub64 (intToF64 t) center) (fdiv64 (intToF64 ph) 0x4060000000000000#64)

/-- The sinc tap: `2*cutoff` on the peak, else `sin(2*pi*cutoff*x) / (pi*x)`, products left to right (R124, R129). -/
def sincTap (sin : F64 → F64) (pi64 cutoff x : F64) : F64 :=
  if flt64 (fabs64 x) 0x3EB0C6F7A0B5ED8D#64 then fmul64 0x4000000000000000#64 cutoff
  else
    fdiv64 (sin (fmul64 (fmul64 (fmul64 x pi64) 0x4000000000000000#64) cutoff)) (fmul64 x pi64)

/-- The Hamming window at the flattened index `n` (R125). -/
def windowAt (cos : F64 → F64) (a0 a1 pi64 : F64) (n : Nat) : F64 :=
  fsub64 a0 (fmul64 a1
    (cos (fdiv64 (fmul64 (fmul64 0x4000000000000000#64 pi64) (intToF64 n)) 0x409FFC0000000000#64)))

/-- The raw tap of phase `ph`, tap `t`; the window index is `128*t + ph` (R125, R126). -/
def rawTap (p : Params) (sin cos : F64 → F64) (cutoff : F64) (ph t : Nat) : F64 :=
  fmul64 (sincTap sin p.pi64 cutoff (tapOffset (centerOf p.center) ph t))
    (windowAt cos p.hammingA0 p.hammingA1 p.pi64 (128 * t + ph))

/-- The 16 raw taps of a phase, tap 0 first. -/
def rawRow (p : Params) (sin cos : F64 → F64) (cutoff : F64) (ph : Nat) : List F64 :=
  (List.range 16).map (rawTap p sin cos cutoff ph)

/-- The row sum `S`, in index order from `+0.0` (R127, R129). -/
def rowSum (raw : List F64) : F64 := raw.foldl fadd64 0x0000000000000000#64

/-- A row normalised by its sum and rounded once to binary32 (R127, R128). -/
def normaliseRow (raw : List F64) : List F32 :=
  let sum := rowSum raw
  raw.map fun r => f64ToF32 (fdiv64 r sum)

/-- The 128 rows for a cutoff, flattened row-major (R128). -/
def tableFor (p : Params) (sin cos : F64 → F64) (cutoff : F64) : Table :=
  ⟨⟨(List.range 128).flatMap fun ph => normaliseRow (rawRow p sin cos cutoff ph)⟩, by
    simp [normaliseRow, rawRow]⟩

/-- `Build` (R129). -/
def build (p : Params) (sin cos : F64 → F64) (input output : Word) : Table :=
  tableFor p sin cos (cutoffOf (rateRatio input output))

/-- `CoefGen(input_rate, output_rate)` (R130). -/
def coefGen (p : Params) (input output : Word) : Table :=
  match p.coefMode with
  | .reference => build p refSin64 refCos64 input output
  | .openTrig => build p Config.sin64 Config.cos64 input output
  | .otherTable => Config.coefTable input output

end Sys2Proof.Machine
end

