-- ==== Sys2Proof/Machine/State.lean ====
section
/-! DEFINITION. The state of one engine instance (10_state.md R20), the model's own fields beside it (the
host's port and program, the trace of responses, the schedule, the parameters), the reasons a step can
stop, and the state after reset (10_state.md R46). -/

namespace Sys2Proof.Machine

/-- The sequencer `seq` (10_state.md R24). -/
inductive Seq where
  | idle
  | pass
  | shift
  | test
  | emit
  | renorm
  deriving DecidableEq, Repr, Inhabited

/-- A response `RESP` (30_encoding.md R91): `ERR` and `RDATA`. -/
structure Response where
  err : Bool
  rdata : Word
  deriving DecidableEq, Repr, Inhabited

/-- One line of the trace: the response the host received and the cause the model records beside it
(30_encoding.md R91, 60_exceptions.md R261); the hardware stores neither. -/
structure TraceEntry where
  resp : Response
  cause : Option ErrorCause
  deriving DecidableEq, Repr, Inhabited

/-- The Resampler (10_state.md R35 to R39): the elements only `INIT` gives a value (R41, R47). -/
structure Resampler where
  /-- `input_rate` (R35) -/
  inputRate : Word
  /-- `output_rate` (R35) -/
  outputRate : Word
  /-- `ratio` (R36) -/
  ratio : F64
  /-- `step` (R37) -/
  step : F64
  /-- `coefficients[0..2047]` (R38) -/
  coefficients : Table
  /-- `history[0..15]`, oldest first (R21) -/
  history : Row
  /-- `position` (R39) -/
  position : F64
  deriving DecidableEq, Repr, Inhabited

/-- The machine. The first seven fields and `rs` are the state of 10_state.md R20; the last six are the
model's own. -/
structure State where
  /-- `IN_RATE` (R22, R29) -/
  inRate : Word
  /-- `OUT_RATE` (R22, R29) -/
  outRate : Word
  /-- `configured` (R41) -/
  configured : Bool
  /-- the Resampler (R35 to R39) -/
  rs : Resampler
  /-- `inq`, front first (R42) -/
  inq : List Sample
  /-- `outq`, front first (R43) -/
  outq : List Sample
  /-- `seq` (R24) -/
  seq : Seq
  /-- `cur` (R25) -/
  cur : Sample
  /-- the transaction the host has issued and that has no response yet (20_memory.md R70) -/
  port : Option Bus48
  /-- the transactions the host has still to issue (00_scope.md R15) -/
  program : List Bus48
  /-- the responses so far, oldest first (00_scope.md R15) -/
  trace : List TraceEntry
  /-- who moves in the coming steps (00_scope.md R14); past its end the choice is free -/
  schedule : List Event
  /-- the number of steps taken, the index of the free values -/
  tick : Nat
  /-- the machine's parameters (00_scope.md R6); no step changes them -/
  params : Params
  deriving DecidableEq, Repr, Inhabited

/-- Why the machine stops. -/
inductive Fault where
  /-- Raised by the engine step `E_EMIT` when `floor64_int(position * 128)` is no phase 0..127. Safe: the spec
  derives that no run gets there (41_streaming_engine.md R158), and only a state no run reaches does. -/
  | phaseOutOfRange
  deriving DecidableEq, Repr

/-- Why an operation has no meaning. -/
inductive Refusal where
  /-- An operation of the table with no meaning yet. Safe: the machine stops. No arm of `exec` uses it. -/
  | notModelled (mnemonic : String)
  /-- Raised by `INIT` with a zero staging rate: the spec gives it no behaviour and asks a model to refuse it
  (60_exceptions.md R275, D17). Safe: the machine stops. -/
  | initZeroRate
  deriving DecidableEq, Repr

/-- The three outcomes of a step of this machine. -/
abbrev Result := Host.Outcome State Fault Refusal

/-- The Resampler elements at reset. The spec gives them no value (10_state.md R46, R47); all zero is the
model's choice, on which no statement rests. DESIGN CHOICE, log entry 1. -/
def Resampler.unset : Resampler where
  inputRate := 0#32
  outputRate := 0#32
  ratio := 0#64
  step := 0#64
  coefficients := Vector.replicate 2048 0#32
  history := Vector.replicate 16 0#32
  position := 0#64

/-- The machine right after reset (10_state.md R46, 70_reset_and_hazards.md R290): staging rates 0, not
configured, queues empty, sequencer idle; nothing issued, no response yet. The open parameters `BASE`,
`IN_DEPTH`, `OUT_DEPTH` get 0 and unbounded (DESIGN CHOICE, log entry 3); the rest are this hardware's. -/
def State.reset : State where
  inRate := 0#32
  outRate := 0#32
  configured := false
  rs := Resampler.unset
  inq := []
  outq := []
  seq := .idle
  cur := 0#16
  port := none
  program := []
  trace := []
  schedule := []
  tick := 0
  params := Params.decided 0 .unbounded .unbounded

end Sys2Proof.Machine
end

