-- ==== Sys2Proof/Machine/Operands.lean ====
section
/-! DEFINITION. Assembly of the values an operation returns (30_encoding.md R91, R94). The operands an
operation takes are assembled by the decoder (R93, `decodeAccess`). -/

namespace Sys2Proof.Machine

/-- `PARAMS`: `TAPS_PER_PHASE` in bits 31:16, `NUM_PHASES` in bits 15:0 (10_state.md R28). -/
def paramsWord : Word :=
  (BitVec.ofNat 16 Config.tapsPerPhase ++ BitVec.ofNat 16 Config.numPhases).cast rfl

/-- `sext_16(u16(sample))`: the value `POP` returns (30_encoding.md R94). -/
def sampleWord (x : Sample) : Word := x.signExtend 32

/-- The 33 bits of `RESP`: bit 32 `ERR`, bits 31:0 `RDATA` (30_encoding.md R91). -/
def responseBits (r : Response) : BitVec 33 := (BitVec.ofBool r.err ++ r.rdata).cast rfl

end Sys2Proof.Machine
end

