-- ==== Sys2Proof/Machine/Ops.lean ====
section
/-! DEFINITION. The shared operations: the sample queues, the completion of a transaction, the error
response (this hardware's only exception, 60_exceptions.md R264) and the hold. There is no return from an
exception, since nothing is entered (60_exceptions.md R265). -/

namespace Sys2Proof.Machine

/-- `full(q)` of 00_scope.md R9: `len(q) = depth(q)`, never true for an unbounded queue. -/
def queueFull (d : Depth) (q : List Sample) : Bool :=
  match d with
  | .unbounded => false
  | .entries more => q.length == more + 1

/-- `push_back` of 00_scope.md R9. -/
def pushBack (q : List Sample) (x : Sample) : List Sample := q ++ [x]

/-- `inq` is full. -/
def inFull (s : State) : Bool := queueFull s.params.inDepth s.inq

/-- `outq` is full. -/
def outFull (s : State) : Bool := queueFull s.params.outDepth s.outq

/-- The port is freed and the response goes to the host (44_host_operations.md R215). -/
def respondWith (entry : TraceEntry) (s : State) : State :=
  { s with port := none, trace := s.trace ++ [entry] }

/-- `respond(ERR = 0, RDATA = value)`. -/
def respond (value : Word) (s : State) : State := respondWith ⟨⟨false, value⟩, none⟩ s

/-- The error response `raise BusError(cause)`: `ERR = 1`, `RDATA = 0`, no state of the block changed, nothing
entered and nothing saved (60_exceptions.md R261, R264). -/
def respondError (cause : ErrorCause) (s : State) : State := respondWith ⟨⟨true, 0#32⟩, some cause⟩ s

/-- A held transaction changes no state and has no response; the port keeps it (00_scope.md R9,
60_exceptions.md R274). -/
def hold (s : State) : State := s

/-- The 16 words of phase row `ph`, from word index `16*ph` (20_memory.md R62). -/
def phaseRow (table : Table) (ph : Fin 128) : Row :=
  Vector.ofFn fun i => table[16 * ph.val + i.val]

/-- `E_SHIFT`'s move of the window: drop the oldest word, append the new one (41_streaming_engine.md R153). -/
def shiftHistory (h : Row) (x : F32) : Row :=
  Vector.ofFn fun i => if lt : i.val + 1 < 16 then h[i.val + 1] else x

/-- Sixteen times `+0.0`. -/
def zeroHistory : Row := Vector.replicate 16 0x00000000#32

end Sys2Proof.Machine
end

