-- ==== Sys2Proof/Machine/Flags.lean ====
section
/-! DEFINITION. The five bits of `STATUS`, each a function of the state (10_state.md R26, R31). -/

namespace Sys2Proof.Machine

/-- Bit 1, `BUSY`: `seq != IDLE` or `inq` not empty. -/
def busy (s : State) : Bool := s.seq != .idle || !s.inq.isEmpty

/-- Bit 2, `IN_READY`: configured and `inq` not full. -/
def inReady (s : State) : Bool := s.configured && !inFull s

/-- Bit 3, `OUT_VALID`: `outq` not empty. -/
def outValid (s : State) : Bool := !s.outq.isEmpty

/-- The engine's identity test: the active rates are equal (41_streaming_engine.md R151). -/
def ratesEqual (rs : Resampler) : Bool := rs.inputRate == rs.outputRate

/-- Bit 4, `IDENTITY`: configured and the active rates equal. -/
def identity (s : State) : Bool := s.configured && ratesEqual s.rs

/-- `STATUS` as read: the flags in bits 4:0, bits 31:5 zero (10_state.md R31). -/
def statusWord (s : State) : Word :=
  (((((0#27 ++ BitVec.ofBool (identity s)) ++ BitVec.ofBool (outValid s)) ++ BitVec.ofBool (inReady s))
    ++ BitVec.ofBool (busy s)) ++ BitVec.ofBool s.configured).cast rfl

end Sys2Proof.Machine
end

