-- ==== Sys2Proof/Machine/Control.lean ====
section
/-! DEFINITION. The operations on `CTRL` and `STATUS` (44_host_operations.md R221 to R223). -/

namespace Sys2Proof.Machine

/-- The Resampler `INIT` constructs from two non-zero rates (R221; 10_state.md R46, "after INIT"). -/
def construct (p : Params) (input output : Word) : Resampler where
  inputRate := input
  outputRate := output
  ratio := rateRatio input output
  step := rateStep p.stepMode input output
  coefficients := coefGen p input output
  history := zeroHistory
  position := 0x0000000000000000#64

/-- `INIT` (R221): held while the engine is busy, then refused with a zero staging rate (60_exceptions.md
R275; the order is log entry 10), else the whole construction in one atomic step. -/
def execInit (s : State) : Result :=
  if busy s then .next (hold s)
  else if s.inRate = 0#32 ∨ s.outRate = 0#32 then .refused .initZeroRate
  else
    .next (respond 0#32
      { s with rs := construct s.params s.inRate s.outRate, configured := true })

/-- `CTRLNOP` (R222): a write to `CTRL` with bit 0 clear does nothing. -/
def execCtrlnop (s : State) : Result := .next (respond 0#32 s)

/-- `STAT` (R223). -/
def execStat (s : State) : Result := .next (respond (statusWord s) s)

end Sys2Proof.Machine
end

