-- ==== Sys2Proof/Machine/DataPath.lean ====
section
/-! DEFINITION. The data registers (44_host_operations.md R224, R225). -/

namespace Sys2Proof.Machine

/-- `PUSH sample` (R224): `E_UNCONF` when not configured, tested before the hold (R215); held while `inq` is
full. -/
def execPush (sample : Sample) (s : State) : Result :=
  if !s.configured then .next (respondError .unconf s)
  else if inFull s then .next (hold s)
  else .next (respond 0#32 { s with inq := pushBack s.inq sample })

/-- `POP` (R225): held while `outq` is empty. -/
def execPop (s : State) : Result :=
  match s.outq with
  | [] => .next (hold s)
  | x :: rest => .next (respond (sampleWord x) { s with outq := rest })

end Sys2Proof.Machine
end

