-- ==== Sys2Proof/Machine/Registers.lean ====
section
/-! DEFINITION. The operations on the parameter register and the staging registers
(44_host_operations.md R216 to R220). -/

namespace Sys2Proof.Machine

/-- `GETPARAMS` (R216). -/
def execGetparams (s : State) : Result := .next (respond paramsWord s)

/-- `GETIN` (R217): the staging register, not the active rate. -/
def execGetin (s : State) : Result := .next (respond s.inRate s)

/-- `SETIN rate` (R218). -/
def execSetin (rate : Word) (s : State) : Result := .next (respond 0#32 { s with inRate := rate })

/-- `GETOUT` (R219). -/
def execGetout (s : State) : Result := .next (respond s.outRate s)

/-- `SETOUT rate` (R220). -/
def execSetout (rate : Word) (s : State) : Result := .next (respond 0#32 { s with outRate := rate })

end Sys2Proof.Machine
end

