-- ==== Sys2Proof/Machine/Dispatch.lean ====
section
/-! DEFINITION. The meaning of every operation of 30_encoding.md R95. -/

namespace Sys2Proof.Machine

def exec (i : Instr) (s : State) : Host.Outcome State Fault Refusal :=
  match i with
  | .getparams => Sys2Proof.Machine.execGetparams s
  | .getin => Sys2Proof.Machine.execGetin s
  | .setin rate => Sys2Proof.Machine.execSetin rate s
  | .getout => Sys2Proof.Machine.execGetout s
  | .setout rate => Sys2Proof.Machine.execSetout rate s
  | .init => Sys2Proof.Machine.execInit s
  | .ctrlnop => Sys2Proof.Machine.execCtrlnop s
  | .stat => Sys2Proof.Machine.execStat s
  | .push sample => Sys2Proof.Machine.execPush sample s
  | .pop => Sys2Proof.Machine.execPop s

end Sys2Proof.Machine
end

