-- ==== Sys2Proof/Machine/Dot.lean ====
section
/-! DEFINITION. The dot-product unit (42_dot_product_mac.md): this hardware's scalar datapath, and the two
variants the source describes, as values of the parameter `Dot` (R186). -/

namespace Sys2Proof.Machine

/-- `DOT_MODE = scalar`: taps in index order, product rounded, sum rounded, from `+0.0` (R182). -/
def dotScalar (coef hist : Row) : F32 :=
  (List.zip coef.toList hist.toList).foldl (fun acc ch => fadd32 acc (fmul32 ch.1 ch.2)) 0x00000000#32

/-- One level of a balanced sum. -/
def addPairs : List F32 → List F32
  | a :: b :: rest => fadd32 a b :: addPairs rest
  | rest => rest

/-- The horizontal sum of four or eight lanes, in an order the source does not give (R183). -/
def laneSum : LaneSum → List F32 → F32
  | .sequential, lanes => lanes.tail.foldl fadd32 (lanes.headD 0#32)
  | .pairwise, lanes => (addPairs (addPairs (addPairs lanes))).headD 0#32

/-- `simd4_fma`: lane `l` fuses taps `l`, `l+4`, `l+8`, `l+12` in turn (R183). -/
def dotSimd4 (sum : LaneSum) (coef hist : Row) : F32 :=
  laneSum sum ((List.finRange 4).map fun l =>
    (List.finRange 4).foldl (fun acc g =>
      fma32 coef[4 * g.val + l.val]
        hist[4 * g.val + l.val] acc) 0x00000000#32)

/-- `simd8`: lane `l` combines taps `l` and `l+8` (R184). R184 gives neither the start value of a lane nor which
product goes first: fused, the low product is fused into `+0.0` and the high one into the result; unfused, the
two rounded products are added, low plus high, with no start value. DESIGN CHOICE, log entry 20. -/
def dotSimd8 (fused : Bool) (sum : LaneSum) (coef hist : Row) : F32 :=
  laneSum sum ((List.finRange 8).map fun l =>
    let cLow := coef[l.val]
    let hLow := hist[l.val]
    let cHigh := coef[8 + l.val]
    let hHigh := hist[8 + l.val]
    if fused then fma32 cHigh hHigh (fma32 cLow hLow 0x00000000#32)
    else fadd32 (fmul32 cLow hLow) (fmul32 cHigh hHigh))

/-- `Dot` under the machine's parameters (R186). -/
def dot (p : Params) (coef hist : Row) : F32 :=
  match p.dotMode with
  | .scalar => dotScalar coef hist
  | .simd4Fma sum => dotSimd4 sum coef hist
  | .simd8 fused sum => dotSimd8 fused sum coef hist
  | .otherDot => Config.dot coef hist

end Sys2Proof.Machine
end

