-- ==== Sys2Proof/Machine/Saturator.lean ====
section
/-! DEFINITION. The output saturator (43_output_saturator.md R201). -/

namespace Sys2Proof.Machine

/-- The integer a finite binary32 value is rounded to under `OUT_ROUND` (R203). An infinity or a NaN never
gets here: `saturate` has clamped it. -/
def roundToInt (mode : OutRound) (y : F32) : Int :=
  match val32 y with
  | .nan => 0
  | .inf _ => 0
  | .fin s m =>
    signedUnits s (match mode with
      | .towardZero => m / oneUnits fmt32
      | .nearestEven => divNearestEven m (oneUnits fmt32))

/-- `Sat`: NaN, then the clamp to [-32768.0, 32767.0], then the conversion (R201, R204). -/
def saturate (p : Params) (y : F32) : Sample :=
  if isNaN32 y then p.satNan
  else if fge32 y 0x46FFFE00#32 then u16 32767
  else if fge32 0xC7000000#32 y then u16 (-32768)
  else u16 (roundToInt p.outRound y)

end Sys2Proof.Machine
end

