-- ==== Sys2Proof/Machine/Engine.lean ====
section
/-! DEFINITION. The engine: its six steps (41_streaming_engine.md R151 to R156) and the big-step form of the
same algorithm (R157). -/

namespace Sys2Proof.Machine

/-- The phase index `floor64_int(fmul64(position, 128.0))` when it is in 0..127 (R155, R158). -/
def phaseIndex (position : F64) : Option (Fin 128) :=
  match floor64Int (fmul64 position 0x4060000000000000#64) with
  | none => none
  | some n => if h : 0 ≤ n ∧ n < 128 then some ⟨n.toNat, by omega⟩ else none

/-- One output sample: row, dot product, saturation (R155, steps 2b to 2d). -/
def outputSample (p : Params) (rs : Resampler) (ph : Fin 128) : Sample :=
  saturate p (dot p (phaseRow rs.coefficients ph) rs.history)

/-- The loop test `position < 1.0` (R154). -/
def moreOutputs (position : F64) : Bool := flt64 position 0x3FF0000000000000#64

/-- Step 2e: `position + step` (R155). -/
def advancePosition (position step : F64) : F64 := fadd64 position step

/-- Step 3: `position - 1.0` (R156). -/
def renormPosition (position : F64) : F64 := fsub64 position 0x3FF0000000000000#64

/-! ## The six steps -/

/-- `E_POP` (R151): take the front sample `x`, with `rest` left behind it, and test the active rates for
identity. -/
def ePop (x : Sample) (rest : List Sample) (s : State) : State :=
  { s with cur := x, inq := rest, seq := if ratesEqual s.rs then .pass else .shift }

/-- `E_PASS` (R152). -/
def ePass (s : State) : State := { s with outq := pushBack s.outq s.cur, seq := .idle }

/-- `E_SHIFT` (R153). -/
def eShift (s : State) : State :=
  { s with rs := { s.rs with history := shiftHistory s.rs.history (i16ToF32 s.cur) }, seq := .test }

/-- `E_TEST` (R154). -/
def eTest (s : State) : State :=
  { s with seq := if moreOutputs s.rs.position then .emit else .renorm }

/-- `E_EMIT` (R155). The phase index of a reachable state is in range (R158); elsewhere the step faults by
name. -/
def eEmit (s : State) : Result :=
  match phaseIndex s.rs.position with
  | none => .fault .phaseOutOfRange
  | some ph =>
    .next { s with
      outq := pushBack s.outq (outputSample s.params s.rs ph)
      rs := { s.rs with position := advancePosition s.rs.position s.rs.step }
      seq := .test }

/-- `E_RENORM` (R156). -/
def eRenorm (s : State) : State :=
  { s with rs := { s.rs with position := renormPosition s.rs.position }, seq := .idle }

/-- An engine step is enabled (the enabling conditions of R151 to R156). -/
def engineEnabled (s : State) : Bool :=
  match s.seq with
  | .idle => !s.inq.isEmpty
  | .pass => !outFull s
  | .shift => true
  | .test => true
  | .emit => !outFull s
  | .renorm => true

/-- The engine's turn: the step its sequencer is at; while that step is not enabled nothing changes. -/
def engineTurn (s : State) : Result :=
  match s.seq with
  | .idle =>
    match s.inq with
    | [] => .next s
    | x :: rest => .next (ePop x rest s)
  | .pass => if outFull s then .next s else .next (ePass s)
  | .shift => .next (eShift s)
  | .test => .next (eTest s)
  | .emit => if outFull s then .next s else eEmit s
  | .renorm => .next (eRenorm s)

/-- `k` turns of the engine with no turn of the host between them. -/
def engineRun : Nat → State → Result
  | 0, s => .next s
  | k + 1, s =>
    match engineTurn s with
    | .next s' => engineRun k s'
    | .fault r => .fault r
    | .refused r => .refused r

/-! ## The big-step form (R157) -/

/-- The `while position < 1.0` loop with at most `fuel` tests: the outputs in order and the final position,
none when the fuel does not reach the end (R160 bounds the tests a run needs). -/
def emitLoop (p : Params) (rs : Resampler) : Nat → F64 → Option (List Sample × F64)
  | 0, _ => none
  | fuel + 1, position =>
    if moreOutputs position then
      match phaseIndex position with
      | none => none
      | some ph =>
        (emitLoop p rs fuel (advancePosition position rs.step)).map fun r =>
          (outputSample p rs ph :: r.1, r.2)
    else some ([], position)

/-- `PushSample(s)`: the outputs of one input sample and the Resampler after it. -/
def pushSample (p : Params) (fuel : Nat) (rs : Resampler) (x : Sample) : Option (List Sample × Resampler) :=
  if ratesEqual rs then some ([x], rs)
  else
    let shifted := { rs with history := shiftHistory rs.history (i16ToF32 x) }
    (emitLoop p shifted fuel rs.position).map fun r =>
      (r.1, { shifted with position := renormPosition r.2 })

/-- `Process([s0, ..., sn-1])`: the samples one after another. -/
def processSamples (p : Params) (fuel : Nat) : Resampler → List Sample → Option (List Sample × Resampler)
  | rs, [] => some ([], rs)
  | rs, x :: xs =>
    match pushSample p fuel rs x with
    | none => none
    | some (out, rs') =>
      (processSamples p fuel rs' xs).map fun r => (out ++ r.1, r.2)

end Sys2Proof.Machine
end

