-- ==== Sys2Proof/Machine/Turns.lean ====
section
/-! DEFINITION. The turns a step is made of: the choice of who moves (00_scope.md R14), the host's turn
(44_host_operations.md R215) and the reset event (70_reset_and_hazards.md R290). -/

namespace Sys2Proof.Machine

/-- One round of the open interleaving: any events, a turn of the host, any events, a turn of the engine. Rounds
in a row are exactly the interleavings in which neither agent is starved, the fairness of R302 (log entry 2). -/
def freeEvents (n : Nat) : List Event :=
  (Config.freeRound n).1 ++ .host :: ((Config.freeRound n).2 ++ [.engine])

/-- Who moves in the coming steps: the schedule, past its end a round of free choices (R14, R302). -/
def upcoming (s : State) : List Event :=
  match s.schedule with
  | [] => freeEvents s.tick
  | e :: rest => e :: rest

/-- Who moves now. -/
def nextEvent (s : State) : Event := (upcoming s).headD .host

/-- The event that moves now is used up and the step counted. -/
def consumeTurn (s : State) : State := { s with schedule := (upcoming s).tail, tick := s.tick + 1 }

/-- `HostStep(T)` (R215): an illegal word gets its error response at once, a legal one is performed or held. -/
def runTransaction (w : Bus48) (s : State) : Result :=
  match decode w with
  | .error cause => .next (respondError cause s)
  | .ok i => exec i s

/-- The next transaction of the program goes out on the port (20_memory.md R70). -/
def issue (w : Bus48) (rest : List Bus48) (s : State) : State := { s with port := some w, program := rest }

/-- The host's turn: the outstanding transaction is tried again; when there is none the next one of the
program is issued and tried; when the program is done the host does nothing. -/
def hostTurn (s : State) : Result :=
  match s.port with
  | some w => runTransaction w s
  | none =>
    match s.program with
    | [] => .next s
    | w :: rest => runTransaction w (issue w rest s)

/-- The reset event (R290): every element of 10_state.md R46 at its value after reset, the outstanding
transaction abandoned without a response. The elements R46 gives no value are free (log entry 4); the
host's program, the trace, the schedule and the parameters are outside the block and stay. -/
def resetEvent (s : State) : State :=
  { s with
    inRate := 0#32
    outRate := 0#32
    configured := false
    rs :=
      { inputRate := Config.unsetWord (2 * s.tick)
        outputRate := Config.unsetWord (2 * s.tick + 1)
        ratio := Config.unsetF64 (3 * s.tick)
        step := Config.unsetF64 (3 * s.tick + 1)
        coefficients := Config.unsetTable s.tick
        history := Config.unsetRow s.tick
        position := Config.unsetF64 (3 * s.tick + 2) }
    inq := []
    outq := []
    seq := .idle
    cur := Config.unsetSample s.tick
    port := none }

/-- One turn of the given kind. -/
def takeTurn (e : Event) (s : State) : Result :=
  match e with
  | .host => hostTurn s
  | .engine => engineTurn s
  | .reset => .next (resetEvent s)

/-- The port holds the word and the next turn is the host's. -/
def placeWord (w : Bus48) (s : State) : State :=
  { s with port := some w, schedule := .host :: s.schedule }

/-- A program and a schedule loaded from outside the machine (00_scope.md R15; log entry 5). -/
def loadProgram (program : List Bus48) (schedule : List Event) (s : State) : State :=
  { s with program := program, schedule := schedule }

end Sys2Proof.Machine
end

