-- ==== Sys2Proof/Machine/Step.lean ====
section
/-! DEFINITION. One step of the machine: one turn of the host, of the engine, or the reset event
(00_scope.md R14, 70_reset_and_hazards.md R290). -/

namespace Sys2Proof.Machine

/-- One step. -/
def step (s : State) : Host.Outcome State Fault Refusal := takeTurn (nextEvent s) (consumeTurn s)

/-- The transaction whose bits are `w` issued on the port, the next turn the host's. -/
def State.withFetchWord (s : State) (nbits w : Nat) : State := placeWord (tableWord nbits w) s

end Sys2Proof.Machine
end

