-- ==== Sys2Proof/Safety.lean ====
section
/-! DEFINITION. What a sound state is, in the terms the claims use: the control invariant, the phase
accumulator's invariants (10_state.md R44, 41_streaming_engine.md R158, R159), the agreement of two states
on everything an operation can read (10_state.md R47), the data the host receives (20_memory.md R72), the named
premises a claim about the data path may take, and fair runs (70_reset_and_hazards.md R302). -/

namespace Sys2Proof.Machine

/-- A queue holds no more than its depth. -/
def queueWithin (d : Depth) (q : List Sample) : Prop :=
  match d with
  | .unbounded => True
  | .entries more => q.length ≤ more + 1

/-- The sequencer is inside the filtering part of the algorithm. -/
def filtering : Seq → Bool
  | .idle => false
  | .pass => false
  | .shift => true
  | .test => true
  | .emit => true
  | .renorm => true

/-- The control invariant: nothing moves before the first `INIT` (10_state.md R41, R47); a configured block
has non-zero rates and the ratio, step and table `INIT` computed from them (R35 to R38, R44 e); the
sequencer's branch agrees with the identity test (41_streaming_engine.md R151, R44 f); the queues keep
within their depths (R42, R43); the history holds converted samples (R21, R44 d). -/
structure Coherent (s : State) : Prop where
  quiet : s.configured = false → s.seq = .idle ∧ s.inq = [] ∧ s.outq = []
  rates : s.configured = true → s.rs.inputRate ≠ 0#32 ∧ s.rs.outputRate ≠ 0#32
  derived : s.configured = true →
    s.rs.ratio = rateRatio s.rs.inputRate s.rs.outputRate ∧
    s.rs.step = rateStep s.params.stepMode s.rs.inputRate s.rs.outputRate ∧
    s.rs.coefficients = coefGen s.params s.rs.inputRate s.rs.outputRate
  passIdentity : s.seq = .pass → ratesEqual s.rs = true
  filterRates : filtering s.seq = true → ratesEqual s.rs = false
  inWithin : queueWithin s.params.inDepth s.inq
  outWithin : queueWithin s.params.outDepth s.outq
  samples : s.configured = true → ∀ (i : Nat) (h : i < 16), ∃ x : Sample, s.rs.history[i] = i16ToF32 x

/-- The phase accumulator of a configured block is finite, not negative and bounded, its step is positive,
and the sequencer's branch agrees with the loop test (10_state.md R37, R44; 41_streaming_engine.md R158,
R159). Magnitudes are in units of the smallest subnormal, `oneUnits fmt64` of them making 1.0; the step
lies between 2^-32 and 2^32 and the position never passes 2^33. -/
structure PositionOk (s : State) : Prop where
  step : s.configured = true → ∃ m, val64 s.rs.step = .fin false m ∧
    oneUnits fmt64 ≤ m * 2 ^ 32 ∧ m ≤ oneUnits fmt64 * 2 ^ 32
  position : s.configured = true → ∃ m, val64 s.rs.position = .fin false m ∧
    m ≤ oneUnits fmt64 * 2 ^ 33
  emitBelowOne : s.seq = .emit → moreOutputs s.rs.position = true
  renormAtLeastOne : s.seq = .renorm → moreOutputs s.rs.position = false

/-- With a step of at most 1.0 the position is below 1.0 between input samples and below 2.0 inside one
(10_state.md R44 b). -/
structure UnitPosition (s : State) : Prop where
  between : s.configured = true → fge64 0x3FF0000000000000#64 s.rs.step = true →
    (s.seq = .idle ∨ s.seq = .pass ∨ s.seq = .shift) → flt64 s.rs.position 0x3FF0000000000000#64 = true
  inside : s.configured = true → fge64 0x3FF0000000000000#64 s.rs.step = true →
    flt64 s.rs.position 0x4000000000000000#64 = true

/-- A state every claim about a configured stream may start from. -/
structure Sound (s : State) : Prop where
  coherent : Coherent s
  position : PositionOk s

/-- Two states that differ at most in elements no admitted operation reads: the Resampler while not
configured, `cur` outside `PASS` and `SHIFT` (10_state.md R25, R47). -/
structure SameVisible (s t : State) : Prop where
  inRate : s.inRate = t.inRate
  outRate : s.outRate = t.outRate
  configured : s.configured = t.configured
  rs : s.configured = true → s.rs = t.rs
  inq : s.inq = t.inq
  outq : s.outq = t.outq
  seq : s.seq = t.seq
  cur : (s.seq = .pass ∨ s.seq = .shift) → s.cur = t.cur
  port : s.port = t.port
  program : s.program = t.program
  trace : s.trace = t.trace
  schedule : s.schedule = t.schedule
  tick : s.tick = t.tick
  params : s.params = t.params

/-- Two outcomes of the same kind, related where they are states, equal where they are stops. -/
def sameOutcome (related : State → State → Prop) : Result → Result → Prop
  | .next s, .next t => related s t
  | .fault a, .fault b => a = b
  | .refused a, .refused b => a = b
  | _, _ => False

/-- What of a response is the same for every interleaving (20_memory.md R72): all of it, but for a `STAT`
only the bits `CONFIGURED` (0) and `IDENTITY` (4). -/
def dataOfEntry (w : Bus48) (e : TraceEntry) : TraceEntry :=
  if decode w = .ok .stat then
    { e with resp := { e.resp with rdata := e.resp.rdata &&& 0x00000011#32 } }
  else e

/-! ## The named premises of 40_filter_bank_builder.md R130 and 42_dot_product_mac.md R186 -/

/-- The number a finite binary32 pattern stands for; 0 for the others. -/
def ratOf32 (a : F32) : ℚ :=
  match val32 a with
  | .fin s m => (signedUnits s m : ℚ) / (oneUnits fmt32 : ℚ)
  | .inf _ => 0
  | .nan => 0

/-- A word is a finite binary32 value. -/
def isFinite32 (a : F32) : Prop := ∃ s m, val32 a = .fin s m

/-- P-FINITE: every word of the table is finite. -/
def PFinite (table : Table) : Prop := ∀ (k : Nat) (h : k < 2048), isFinite32 table[k]

/-- P-ROWSUM: the exact sum of every row differs from 1 by at most the tolerance. -/
def PRowSum (tol : ℚ) (table : Table) : Prop :=
  ∀ ph : Fin 128, |((phaseRow table ph).toList.map ratOf32).sum - 1| ≤ tol

/-- P-L1: the magnitudes of every row sum to at most the bound. -/
def PL1 (bound : ℚ) (table : Table) : Prop :=
  ∀ ph : Fin 128, ((phaseRow table ph).toList.map fun c => |ratOf32 c|).sum ≤ bound

/-- P-CLOSE: every word differs from the real tap of R122 to R127, the row normalised, by at most the
tolerance. -/
def PClose (tol : ℝ) (input output : Word) (table : Table) : Prop :=
  ∀ (ph t : Nat) (hph : ph < 128) (ht : t < 16),
    let ratio : ℝ := (output.toNat : ℝ) / (input.toNat : ℝ)
    let cutoff : ℝ := if 1 ≤ ratio then 0.45 else ratio * 0.45
    let raw : Nat → ℝ := fun i =>
      let x : ℝ := (i : ℝ) - 15 / 2 - (ph : ℝ) / 128
      (if |x| < 1 / 1000000 then 2 * cutoff
        else Real.sin (2 * Real.pi * cutoff * x) / (Real.pi * x)) *
      (0.54 - 0.46 * Real.cos (2 * Real.pi * ((128 * i + ph : Nat) : ℝ) / 2047))
    |((ratOf32 table[16 * ph + t] : ℚ) : ℝ) - raw t / ((List.range 16).map raw).sum| ≤ tol

/-- Rounding to binary32 overflows at this magnitude and above, half a spacing past the largest finite value. -/
def overflow32 : ℚ := 2 ^ 128 - 2 ^ 103

/-- The 16 exact products of a dot product, tap 0 first. -/
def exactProducts (coef hist : Row) : List ℚ :=
  (List.zip coef.toList hist.toList).map fun ch => ratOf32 ch.1 * ratOf32 ch.2

/-- The sum of the magnitudes. -/
def absSum (products : List ℚ) : ℚ := (products.map fun x => |x|).sum

/-- No product and no partial sum overflows: the exact sum of any part of the products stays below overflow even
when it is off by the tolerance. The variants of R182 to R184 sum different parts first, and round as they go, so
any part and the tolerance are meant. DEDUCED, log entry 21. -/
def NoOverflow (tol : ℚ) (products : List ℚ) : Prop :=
  ∀ part : List ℚ, part.Sublist products → |part.sum| + tol * absSum part < overflow32

/-- A result is finite and within the relative tolerance of the exact sum of the products. -/
def DotWithin (tol : ℚ) (products : List ℚ) (y : F32) : Prop :=
  isFinite32 y ∧ |ratOf32 y - products.sum| ≤ tol * absSum products

/-- P-DOTCLOSE: a dot product of finite operands whose exact products and partial sums do not overflow is within
the relative tolerance of the exact sum. -/
def PDotClose (tol : ℚ) (dot : Row → Row → F32) : Prop :=
  ∀ coef hist : Row, (∀ (i : Nat) (h : i < 16), isFinite32 coef[i] ∧ isFinite32 hist[i]) →
    NoOverflow tol (exactProducts coef hist) → DotWithin tol (exactProducts coef hist) (dot coef hist)

/-! ## Runs and fairness (70_reset_and_hazards.md R302) -/

/-- `k` steps of the machine, stopping at the first fault or refusal. -/
def run (k : Nat) (s : State) : Result := Host.Core.run Sys2Proof.core k s

/-- `k` steps under an infinite schedule, whose event number `i` is the turn of step `i`. -/
def runUnder (events : Nat → Event) : Nat → State → Result
  | 0, s => .next s
  | k + 1, s =>
    match runUnder events k s with
    | .next t => step { t with schedule := [events k] }
    | .fault r => .fault r
    | .refused r => .refused r

/-- The transaction a turn of the host tries: the outstanding one, else the next of the program. -/
def currentWord (s : State) : Option Bus48 :=
  match s.port with
  | some w => some w
  | none => s.program.head?

/-- A transaction is outstanding and the host's next turn would not hold it. -/
def holdLifted (s : State) : Prop := s.port.isSome = true ∧ hostTurn s ≠ .next s

/-- The schedule is fair from this state: an engine step that is enabled and stays enabled is eventually taken, and
an outstanding transaction whose hold is lifted and stays lifted eventually gets its turn (R302). -/
structure Fair (events : Nat → Event) (s : State) : Prop where
  engine : ∀ k, (∀ j, k ≤ j → ∃ t, runUnder events j s = .next t ∧ engineEnabled t = true) →
    ∃ j, k ≤ j ∧ events j = .engine
  host : ∀ k, (∀ j, k ≤ j → ∃ t, runUnder events j s = .next t ∧ holdLifted t) →
    ∃ j, k ≤ j ∧ events j = .host

/-- The host keeps popping: whenever `outq` is full, it is not full at some later time (41_streaming_engine.md
R160; the host avoids the deadlock of 70_reset_and_hazards.md R295). -/
def HostKeepsPopping (events : Nat → Event) (s : State) : Prop :=
  ∀ k t, runUnder events k s = .next t → outFull t = true →
    ∃ j u, k ≤ j ∧ runUnder events j s = .next u ∧ outFull u = false

end Sys2Proof.Machine
end

