-- ==== Sys2Proof/Certificates/Slice0/Obligations.lean ====
section
/-! DEFINITION. The statements for the provers, in the order of OBLIGATIONS.json: encoding, the host
operations, the engine, its arithmetic, the builder, reset, and the whole machine. -/

open Sys2Proof Sys2Proof.Machine

/-! ## Encoding (30_encoding.md) -/

/-- A few words written out bit by bit from the patterns of R95 decode to the operations they stand for. -/
def Obligations.WrittenWordsDecode : Prop :=
  decode 0b0000000000000000_00000000000000000000000000000000#48 = .ok .getparams ∧
  decode 0b0000000000000100_00000000000000000000000000000000#48 = .ok .getin ∧
  decode 0b1000000000000100_00000000000000000001111101000000#48 = .ok (.setin 8000#32) ∧
  decode 0b0000000000001000_00000000000000000000000000000000#48 = .ok .getout ∧
  decode 0b1000000000001000_00000000000000000011111010000000#48 = .ok (.setout 16000#32) ∧
  decode 0b1000000000001100_00000000000000000000000000000001#48 = .ok .init ∧
  decode 0b1000000000001100_11111111111111111111111111111110#48 = .ok .ctrlnop ∧
  decode 0b0000000000010000_00000000000000000000000000000000#48 = .ok .stat ∧
  decode 0b1000000000010100_00000000000000001000000000000000#48 = .ok (.push (u16 (-32768))) ∧
  decode 0b0000000000011000_00000000000000000000000000000000#48 = .ok .pop

/-- Decoding the canonical word of any operation, and the six bytes it is sent in, gives the operation back
with its operand at every value (R90, R95, R99, R100). -/
def Obligations.DecodeInvertsEncode : Prop :=
  ∀ i : Instr, decode (encode i) = .ok i ∧ decodeBytes (busBytes (encode i)) = .ok i

/-- R95: a word selects a row when `T & mask = match`; exactly the words of the ten rows are legal; the rows
are disjoint. -/
def Obligations.LegalWordsAreTheTenRows : Prop :=
  (∀ (w : Bus48) (row : OpRow), row ∈ opRows →
    ((w &&& row.mask = row.pattern) ↔ ∃ i, decode w = .ok i ∧ mnemonicOf i = row.mnemonic)) ∧
  (∀ w : Bus48, (∃ i, decode w = .ok i) ↔ ∃ row ∈ opRows, w &&& row.mask = row.pattern) ∧
  (∀ (w : Bus48) (a b : OpRow), a ∈ opRows → b ∈ opRows →
    w &&& a.mask = a.pattern → w &&& b.mask = b.pattern → a = b)

/-- R99: the decoder's tests in order, on the bits of the word, and its fourteen cases on `(WE, ADDR)`; the
16-bit prefix of a word is `WE`, `RSVD` and `ADDR`. -/
def Obligations.DecoderFollowsRuleR99 : Prop :=
  (∀ w : Bus48,
    (w.extractLsb' 40 7 ≠ 0#7 → decode w = .error .rsvd) ∧
    (w.extractLsb' 40 7 = 0#7 → w.extractLsb' 32 2 ≠ 0#2 → decode w = .error .align) ∧
    (w.extractLsb' 40 7 = 0#7 → w.extractLsb' 32 2 = 0#2 → 0x18 < (w.extractLsb' 32 8).toNat →
      decode w = .error .unmapped)) ∧
  (∀ d : Word,
    decode (0x0000#16 ++ d) = .ok .getparams ∧ decode (0x8000#16 ++ d) = .error .access ∧
    decode (0x0004#16 ++ d) = .ok .getin ∧ decode (0x8004#16 ++ d) = .ok (.setin d) ∧
    decode (0x0008#16 ++ d) = .ok .getout ∧ decode (0x8008#16 ++ d) = .ok (.setout d) ∧
    decode (0x000C#16 ++ d) = .error .access ∧
    decode (0x800C#16 ++ d) = (if d.getLsbD 0 then .ok .init else .ok .ctrlnop) ∧
    decode (0x0010#16 ++ d) = .ok .stat ∧ decode (0x8010#16 ++ d) = .error .access ∧
    decode (0x0014#16 ++ d) = .error .access ∧
    decode (0x8014#16 ++ d) = .ok (.push (d.extractLsb' 0 16)) ∧
    decode (0x0018#16 ++ d) = .ok .pop ∧ decode (0x8018#16 ++ d) = .error .access)

/-- R97: the data of a read, `DATA[31:16]` of a `PUSH` and `DATA[31:1]` of a `CTRL` write may hold any value
and the operation is the same; only the reserved field must be zero. -/
def Obligations.IgnoredBitsDoNotMatter : Prop :=
  (∀ (off : BitVec 8) (d d' : Word), decode (busWord false off d) = decode (busWord false off d')) ∧
  (∀ d d' : Word, d.extractLsb' 0 16 = d'.extractLsb' 0 16 →
    decode (busWord true 0x14#8 d) = decode (busWord true 0x14#8 d')) ∧
  (∀ d d' : Word, d.getLsbD 0 = d'.getLsbD 0 →
    decode (busWord true 0x0C#8 d) = decode (busWord true 0x0C#8 d')) ∧
  (∀ (w : Bus48) (i : Instr), decode w = .ok i → w.extractLsb' 40 7 = 0#7)

/-- R93: the rate operand is `DATA[31:0]` unsigned, the sample operand the two's complement reading of
`DATA[15:0]`, the control operand `DATA[0]`. -/
def Obligations.OperandsAreAssembled : Prop :=
  (∀ d : Word, decode (busWord true 0x04#8 d) = .ok (.setin d) ∧
    decode (busWord true 0x08#8 d) = .ok (.setout d)) ∧
  (∀ d : Word, ∃ x : Sample, decode (busWord true 0x14#8 d) = .ok (.push x) ∧
    s16 x = if d.toNat % 65536 < 32768 then ((d.toNat % 65536 : Nat) : Int)
      else ((d.toNat % 65536 : Nat) : Int) - 65536) ∧
  (∀ d : Word, decode (busWord true 0x0C#8 d) = if d.toNat % 2 = 1 then .ok .init else .ok .ctrlnop)

/-- R90, R98: a word is six bytes, most significant first, and no other length is a transaction. -/
def Obligations.SixBytesMostSignificantFirst : Prop :=
  (∀ w : Bus48, busOfBytes (busBytes w) = some w) ∧
  (∀ bytes : List Byte, bytes.length = 6 → ∃ w, busOfBytes bytes = some w ∧ busBytes w = bytes ∧
    w.toNat = bytes.foldl (fun n b => n * 256 + b.toNat) 0) ∧
  (∀ bytes : List Byte, bytes.length ≠ 6 → decodeBytes bytes = .error .badLength)

/-- R100, R101: what the assembler's pseudo-operations expand to, read by the decoder, for operands in
range. -/
def Obligations.PseudoOperationsExpand : Prop :=
  (∀ a b : Nat, (AsmLine.config a b).wellFormed = true → (assemble (.config a b)).map decode =
    [.ok (.setin (BitVec.ofNat 32 a)), .ok (.setout (BitVec.ofNat 32 b)), .ok .init]) ∧
  (∀ xs : List Int, (AsmLine.process xs).wellFormed = true → ∃ samples : List Sample,
    samples.map s16 = xs ∧ (assemble (.process xs)).map decode = samples.map fun x => .ok (.push x)) ∧
  (∀ n : Nat, (assemble (.collect n)).map decode = List.replicate n (.ok .pop)) ∧
  (∀ (a b : Nat) (xs : List Int),
    assemble (.resample a b xs) = assemble (.config a b) ++ assemble (.process xs))

/-- 20_memory.md R61, R68: the window is the 256 bytes from `BASE`; an access inside it carries its byte
offset, one outside it does not reach the block. -/
def Obligations.WindowIs256BytesFromBase : Prop :=
  (∀ (base : Nat) (off : BitVec 8) (we : Bool) (d : Word),
    ∃ w, busWordAt base (base + off.toNat) we d = some w ∧ addrOf w = off ∧ weOf w = we ∧ dataOf w = d ∧
      rsvdOf w = 0#7) ∧
  (∀ (base address : Nat) (we : Bool) (d : Word), address < base ∨ base + 256 ≤ address →
    busWordAt base address we d = none)

/-! ## Host operations (44_host_operations.md) -/

/-- R216: `GETPARAMS`, the word 0x000000000000, answers 0x00100080 in every state and changes nothing else. -/
def Obligations.GetparamsReadsHardwiredWord : Prop :=
  encode .getparams = 0x000000000000#48 ∧
  ∀ s : State, exec .getparams s =
    .next { s with port := none, trace := s.trace ++ [⟨⟨false, 0x00100080#32⟩, none⟩] }

/-- R217, R219: `GETIN` and `GETOUT` answer the staging registers (0 after reset, afterwards what was last
staged) and change nothing else. -/
def Obligations.StagingReadsAnswerStagingRegisters : Prop :=
  encode .getin = 0x000400000000#48 ∧ encode .getout = 0x000800000000#48 ∧
  State.reset.inRate = 0#32 ∧ State.reset.outRate = 0#32 ∧
  ∀ s : State,
    exec .getin s = .next { s with port := none, trace := s.trace ++ [⟨⟨false, s.inRate⟩, none⟩] } ∧
    exec .getout s = .next { s with port := none, trace := s.trace ++ [⟨⟨false, s.outRate⟩, none⟩] }

/-- R218, R220: `SETIN` and `SETOUT` write every 32-bit value to their staging register and touch nothing
else of the block, in every state; they may come in either order, and only the last values count. -/
def Obligations.StagingWritesTouchOnlyTheirRegister : Prop :=
  encode (.setin 8000#32) = 0x800400001F40#48 ∧ encode (.setout 16000#32) = 0x800800003E80#48 ∧
  ∀ (rate : Word) (s : State),
    decode (0x8004#16 ++ rate) = .ok (.setin rate) ∧ decode (0x8008#16 ++ rate) = .ok (.setout rate) ∧
    exec (.setin rate) s =
      .next { s with inRate := rate, port := none, trace := s.trace ++ [⟨⟨false, 0#32⟩, none⟩] } ∧
    exec (.setout rate) s =
      .next { s with outRate := rate, port := none, trace := s.trace ++ [⟨⟨false, 0#32⟩, none⟩] } ∧
    (∀ (rate' : Word) (t u : State),
      (exec (.setin rate) s = .next t → exec (.setout rate') t = .next u →
        u.inRate = rate ∧ u.outRate = rate') ∧
      (exec (.setout rate') s = .next t → exec (.setin rate) t = .next u →
        u.inRate = rate ∧ u.outRate = rate') ∧
      (exec (.setin rate') s = .next t → exec (.setin rate) t = .next u → u.inRate = rate) ∧
      (exec (.setout rate') s = .next t → exec (.setout rate) t = .next u → u.outRate = rate))

/-- R222: a write to `CTRL` with bit 0 clear, whatever its upper bits, is `CTRLNOP` and does nothing at all but
answer. -/
def Obligations.CtrlnopDoesNothing : Prop :=
  encode .ctrlnop = 0x800C00000000#48 ∧ decode 0x800CFFFFFFFE#48 = .ok .ctrlnop ∧
  (∀ d : Word, d.getLsbD 0 = false → decode (0x800C#16 ++ d) = .ok .ctrlnop) ∧
  ∀ s : State, exec .ctrlnop s =
    .next { s with port := none, trace := s.trace ++ [⟨⟨false, 0#32⟩, none⟩] }

/-- R223 and 10_state.md R31: `STAT` answers the five flags in bits 4:0, zero above them, and changes
nothing else. -/
def Obligations.StatAnswersFiveFlags : Prop :=
  encode .stat = 0x001000000000#48 ∧
  ∀ s : State, ∃ v : Word,
    exec .stat s = .next { s with port := none, trace := s.trace ++ [⟨⟨false, v⟩, none⟩] } ∧
    (v.getLsbD 0 = true ↔ s.configured = true) ∧
    (v.getLsbD 1 = true ↔ s.seq ≠ .idle ∨ s.inq ≠ []) ∧
    (v.getLsbD 2 = true ↔ s.configured = true ∧ inFull s = false) ∧
    (v.getLsbD 3 = true ↔ s.outq ≠ []) ∧
    (v.getLsbD 4 = true ↔ s.configured = true ∧ s.rs.inputRate = s.rs.outputRate) ∧
    (∀ i, 5 ≤ i → v.getLsbD i = false)

/-- R223: the values a quiescent configured block returns: 0x5 with unequal and 0x15 with equal rates, each
plus 0x8 while `outq` is not empty. -/
def Obligations.QuiescentStatusWords : Prop :=
  ∀ s : State, s.configured = true → s.seq = .idle → s.inq = [] →
    ∃ v : Word,
      exec .stat s = .next { s with port := none, trace := s.trace ++ [⟨⟨false, v⟩, none⟩] } ∧
      v.toNat = (if s.rs.inputRate = s.rs.outputRate then 0x15 else 0x05) + (if s.outq = [] then 0 else 0x08)

/-- R224: `PUSH`, the prefix 0x8014 and the sample in the low 16 bits, is answered with `E_UNCONF` and changes
nothing while not configured; else it is held, changing nothing, while `inq` is full (never when unbounded);
else it appends its sample to `inq` and answers. -/
def Obligations.PushAppendsHoldsOrErrs : Prop :=
  encode (.push (u16 1000)) = 0x8014000003E8#48 ∧ encode (.push (u16 (-1))) = 0x80140000FFFF#48 ∧
  (∀ d : Word, decode (0x8014#16 ++ d) = .ok (.push (d.extractLsb' 0 16))) ∧
  (∀ s : State, s.params.inDepth = .unbounded → inFull s = false) ∧
  ∀ (x : Sample) (s : State),
    (s.configured = false → exec (.push x) s =
      .next { s with port := none, trace := s.trace ++ [⟨⟨true, 0#32⟩, some .unconf⟩] }) ∧
    (s.configured = true → inFull s = true → exec (.push x) s = .next s) ∧
    (s.configured = true → inFull s = false → exec (.push x) s =
      .next { s with inq := s.inq ++ [x], port := none, trace := s.trace ++ [⟨⟨false, 0#32⟩, none⟩] })

/-- R225, 30_encoding.md R94: `POP` is held, changing nothing, while `outq` is empty; else it removes the
front sample and answers it sign-extended to 32 bits. -/
def Obligations.PopAnswersFrontSignExtended : Prop :=
  encode .pop = 0x001800000000#48 ∧
  ∀ s : State,
    (s.outq = [] → exec .pop s = .next s) ∧
    (∀ (x : Sample) (rest : List Sample), s.outq = x :: rest → ∃ v : Word, v.toInt = s16 x ∧
      exec .pop s =
        .next { s with outq := rest, port := none, trace := s.trace ++ [⟨⟨false, v⟩, none⟩] })

/-- R221, R275, 10_state.md R37: `INIT`, a write to `CTRL` with bit 0 set, is held while the engine is busy, whatever the
staging rates (with a zero rate that is the model's choice, DEDUCED, log entry 10); when it is not busy, a zero
staging rate is refused, and otherwise the whole Resampler is constructed at once: rates latched, `ratio` and `step` computed (the step
under `STEP_MODE`, 10_state.md R37), the table of `CoefGen` stored, history and position zero, `configured`
set; the staging rates, `outq` and the rest stay. -/
def Obligations.InitConstructsResampler : Prop :=
  encode .init = 0x800C00000001#48 ∧
  (∀ d : Word, d.getLsbD 0 = true → decode (0x800C#16 ++ d) = .ok .init) ∧
  ∀ s : State,
    ((s.seq ≠ .idle ∨ s.inq ≠ []) → exec .init s = .next s) ∧
    (s.seq = .idle → s.inq = [] → (s.inRate = 0#32 ∨ s.outRate = 0#32) →
      exec .init s = .refused .initZeroRate) ∧
    (s.seq = .idle → s.inq = [] → s.inRate ≠ 0#32 → s.outRate ≠ 0#32 →
      ∃ (ratio step : F64) (history : Row),
        ratio = fdiv64 (u32ToF64 s.outRate) (u32ToF64 s.inRate) ∧
        (s.params.stepMode = .quotient → step = fdiv64 (u32ToF64 s.inRate) (u32ToF64 s.outRate)) ∧
        (s.params.stepMode = .reciprocal → step = fdiv64 0x3FF0000000000000#64 ratio) ∧
        (∀ (i : Nat) (h : i < 16), history[i] = 0x00000000#32) ∧
        exec .init s = .next { s with
          rs := { inputRate := s.inRate, outputRate := s.outRate, ratio := ratio, step := step,
                  coefficients := coefGen s.params s.inRate s.outRate, history := history,
                  position := 0x0000000000000000#64 }
          configured := true
          port := none
          trace := s.trace ++ [⟨⟨false, 0#32⟩, none⟩] })

/-- R260, R275: every operation answers a next state in every state, but for `INIT` on an idle engine with
a zero staging rate, which is refused. That a held operation is a next state is the model's choice (DESIGN
CHOICE, log entry 18), and so is that `INIT` with a zero rate on a busy engine is held (DEDUCED, log entry 10). -/
def Obligations.OperationsCompleteButZeroRateInit : Prop :=
  ∀ (i : Instr) (s : State),
    ((∃ t, exec i s = .next t) ↔
      ¬ (i = .init ∧ s.seq = .idle ∧ s.inq = [] ∧ (s.inRate = 0#32 ∨ s.outRate = 0#32))) ∧
    ((¬ ∃ t, exec i s = .next t) → exec i s = .refused .initZeroRate)

/-- R215, 00_scope.md R14: a step is the turn its schedule names. A turn of the host runs the decoded operation on the
state with the transaction on the port: the outstanding transaction comes first, without one the next of the
program is issued, and with no program left nothing moves. A turn of the engine is its step at that state. The
step around the turn only uses up the schedule's entry and counts itself. Schedule and program are the model's
form of the open interleaving and of the host (log entries 2 and 5). -/
def Obligations.StepRunsDecodedOperation : Prop :=
  (∀ (s : State) (w : Bus48) (i : Instr) (later : List Event),
    s.schedule = .host :: later → decode w = .ok i →
    (s.port = some w → step s = exec i { s with schedule := later, tick := s.tick + 1 }) ∧
    (∀ rest, s.port = none → s.program = w :: rest → step s =
      exec i { s with schedule := later, tick := s.tick + 1, port := some w, program := rest })) ∧
  (∀ (s : State) (later : List Event), s.schedule = .host :: later → s.port = none → s.program = [] →
    step s = .next { s with schedule := later, tick := s.tick + 1 }) ∧
  (∀ (s : State) (later : List Event), s.schedule = .engine :: later →
    step s = engineTurn { s with schedule := later, tick := s.tick + 1 })

/-- 60_exceptions.md R264 (and 30_encoding.md R91, R96): a failing transaction, an illegal word or a `PUSH`
before `INIT`, is answered at once with `ERR = 1`, `RDATA = 0`, its cause named in the trace, and changes
nothing of the block: no register, no queue, not `seq`. -/
def Obligations.ErrorResponseChangesNothing : Prop :=
  ∀ (s : State) (w : Bus48) (c : ErrorCause) (later : List Event),
    s.schedule = .host :: later →
    (decode w = .error c ∨ (c = .unconf ∧ s.configured = false ∧ ∃ x, decode w = .ok (.push x))) →
    (s.port = some w → step s = .next { s with
      schedule := later, tick := s.tick + 1, port := none,
      trace := s.trace ++ [⟨⟨true, 0#32⟩, some c⟩] }) ∧
    (∀ rest, s.port = none → s.program = w :: rest → step s = .next { s with
      schedule := later, tick := s.tick + 1, port := none, program := rest,
      trace := s.trace ++ [⟨⟨true, 0#32⟩, some c⟩] })

/-- R215, 60_exceptions.md R274: a held transaction changes nothing, gets no response and stays on the port,
so the host issues nothing else; nothing but the schedule and the step count moves, so it waits however long.
That the two move is the model's choice (DESIGN CHOICE, log entry 18), and so is that `INIT` is held on a busy engine
with a zero staging rate too (DEDUCED, log entry 10). -/
def Obligations.HeldTransactionStaysOutstanding : Prop :=
  ∀ (s : State) (w : Bus48) (later : List Event), s.schedule = .host :: later → s.port = some w →
    ((∃ x, decode w = .ok (.push x)) ∧ s.configured = true ∧ inFull s = true) ∨
    (decode w = .ok .pop ∧ s.outq = []) ∨
    (decode w = .ok .init ∧ (s.seq ≠ .idle ∨ s.inq ≠ [])) →
    step s = .next { s with schedule := later, tick := s.tick + 1 }

/-! ## Engine steps (41_streaming_engine.md) -/

/-- R151: `E_POP` is enabled in `IDLE` when `inq` is not empty (then the block is configured), takes the front
sample and branches on the integer identity test. -/
def Obligations.EPopTakesFrontSample : Prop :=
  (∀ s : State, s.seq = .idle →
    (engineEnabled s = true ↔ s.inq ≠ []) ∧ (Coherent s → s.inq ≠ [] → s.configured = true)) ∧
  (∀ (s : State) (x : Sample) (rest : List Sample), s.seq = .idle → s.inq = x :: rest →
    engineTurn s = .next { s with
      cur := x, inq := rest, seq := if s.rs.inputRate = s.rs.outputRate then .pass else .shift })

/-- R152: `E_PASS` appends the sample unchanged and touches neither history, position nor table; it holds
while `outq` is full, and a `POP` lifts the hold. -/
def Obligations.EPassForwardsSample : Prop :=
  ∀ s : State, s.seq = .pass →
    (outFull s = false → engineEnabled s = true ∧
      engineTurn s = .next { s with outq := s.outq ++ [s.cur], seq := .idle }) ∧
    (outFull s = true → engineEnabled s = false ∧ engineTurn s = .next s ∧
      (Coherent s → ∃ t, exec .pop s = .next t ∧ engineEnabled t = true))

/-- R153: `E_SHIFT`, always enabled in `SHIFT`, drops the oldest history word and appends the sample, converted
exactly. -/
def Obligations.EShiftSlidesWindow : Prop :=
  ∀ s : State, s.seq = .shift → engineEnabled s = true ∧ ∃ h : Row,
    (∀ (i : Nat) (hi : i < 15), h[i] = s.rs.history[i + 1]) ∧ h[15] = i16ToF32 s.cur ∧
    val32 h[15] = .fin (decide (s16 s.cur < 0)) ((s16 s.cur).natAbs * oneUnits fmt32) ∧
    engineTurn s = .next { s with rs := { s.rs with history := h }, seq := .test }

/-- R154: `E_TEST`, always enabled in `TEST`, goes to `EMIT` exactly when `position < 1.0` and to `RENORM`
otherwise. -/
def Obligations.ETestComparesPosition : Prop :=
  ∀ s : State, s.seq = .test → engineEnabled s = true ∧ engineTurn s =
    .next { s with seq := if flt64 s.rs.position 0x3FF0000000000000#64 then .emit else .renorm }

/-- R158: for `0 <= position < 1.0` the scaling by 128 is exact and the phase index is the floor of the real
product, in 0..127. The position is `m` units of which `oneUnits fmt64` make 1.0. -/
def Obligations.PhaseIndexIsExactFloor : Prop :=
  ∀ (position : F64) (m : Nat), val64 position = .fin false m → m < oneUnits fmt64 →
    val64 (fmul64 position 0x4060000000000000#64) = .fin false (m * 128) ∧
    ∃ ph : Fin 128, phaseIndex position = some ph ∧ ph.val = m * 128 / oneUnits fmt64

/-- R155: `E_EMIT` scales the position by 128 exactly, selects the row by the exact floor of that product, forms the dot product of the 16 words from `16*ph` with the
history, saturates, appends, and advances the position by `step`; it holds while `outq` is full, and a `POP` lifts the
hold. -/
def Obligations.EEmitEmitsOneSample : Prop :=
  ∀ (s : State) (m : Nat), s.seq = .emit → val64 s.rs.position = .fin false m → m < oneUnits fmt64 →
    (outFull s = false → engineEnabled s = true ∧ ∃ (ph : Fin 128) (row : Row),
      val64 (fmul64 s.rs.position 0x4060000000000000#64) = .fin false (m * 128) ∧
      floor64Int (fmul64 s.rs.position 0x4060000000000000#64) = some (ph.val : Int) ∧
      ph.val = m * 128 / oneUnits fmt64 ∧
      (∀ (i : Nat) (h : i < 16), row[i] = s.rs.coefficients[16 * ph.val + i]) ∧
      engineTurn s = .next { s with
        outq := s.outq ++ [saturate s.params (dot s.params row s.rs.history)]
        rs := { s.rs with position := fadd64 s.rs.position s.rs.step }
        seq := .test }) ∧
    (outFull s = true → engineEnabled s = false ∧ engineTurn s = .next s ∧
      (Coherent s → ∃ t, exec .pop s = .next t ∧ engineEnabled t = true))

/-- R156: `E_RENORM` subtracts 1.0; from a position of at least 1.0 the result is finite, not negative and not
-0.0, and the subtraction is exact below 2.0. -/
def Obligations.ERenormSubtractsOne : Prop :=
  (∀ s : State, s.seq = .renorm → engineEnabled s = true ∧ engineTurn s = .next { s with
    rs := { s.rs with position := fsub64 s.rs.position 0x3FF0000000000000#64 }, seq := .idle }) ∧
  (∀ (position : F64) (m : Nat), val64 position = .fin false m → oneUnits fmt64 ≤ m →
    ∃ n, val64 (fsub64 position 0x3FF0000000000000#64) = .fin false n ∧ n ≤ m ∧
      (m < 2 * oneUnits fmt64 → n = m - oneUnits fmt64))

/-- R150: the engine writes only `history`, `position`, `seq`, `cur`, the front of `inq` and the back of
`outq`. -/
def Obligations.EngineWritesOnlyItsElements : Prop :=
  ∀ s t : State, engineTurn s = .next t →
    t = { s with
      rs := { s.rs with history := t.rs.history, position := t.rs.position }
      seq := t.seq, cur := t.cur, inq := t.inq, outq := t.outq } ∧
    (t.inq = s.inq ∨ ∃ x, s.inq = x :: t.inq) ∧
    (t.outq = s.outq ∨ ∃ x, t.outq = s.outq ++ [x])

/-- R157: with an unbounded `outq`, from `IDLE` with a sample waiting, running the engine's steps until `IDLE`
is `PushSample`: same outputs in order, same history and position. With several samples waiting it is `Process`
of them, whatever waits behind. -/
def Obligations.EngineRunIsPushSample : Prop :=
  (∀ (s : State) (x : Sample) (rest out : List Sample) (fuel : Nat) (rs : Resampler),
    s.params.outDepth = .unbounded → s.seq = .idle → s.inq = x :: rest →
    pushSample s.params fuel s.rs x = some (out, rs) →
    ∃ k, engineRun k s = .next { s with
      cur := x, inq := rest, outq := s.outq ++ out, rs := rs, seq := .idle }) ∧
  (∀ (s : State) (xs rest out : List Sample) (fuel : Nat) (rs : Resampler),
    s.params.outDepth = .unbounded → s.seq = .idle → s.inq = xs ++ rest →
    processSamples s.params fuel s.rs xs = some (out, rs) →
    ∃ k, engineRun k s = .next { s with
      cur := xs.getLastD s.cur, inq := rest, outq := s.outq ++ out, rs := rs, seq := .idle })

/-- R163: splitting a sequence of samples into chunks changes nothing: the outputs of the whole are those of
the first part followed by those of the second on the same instance. A configured sound block answers every
sequence: a fuel of 2^34 tests for each sample is enough, and more changes nothing (R160). -/
def Obligations.ChunkingIsInvisible : Prop :=
  (∀ (p : Params) (fuel : Nat) (rs rs' rs'' : Resampler) (a b out out' : List Sample),
    processSamples p fuel rs a = some (out, rs') → processSamples p fuel rs' b = some (out', rs'') →
    processSamples p fuel rs (a ++ b) = some (out ++ out', rs'')) ∧
  (∀ s : State, Sound s → s.configured = true → ∀ xs : List Sample, ∃ (out : List Sample) (rs : Resampler),
    ∀ fuel : Nat, 2 ^ 34 ≤ fuel → processSamples s.params fuel s.rs xs = some (out, rs))

/-- R166, R152: with equal rates every buffer comes out as it went in, and history and position keep their
values. -/
def Obligations.IdentityModeCopies : Prop :=
  ∀ (p : Params) (fuel : Nat) (rs : Resampler) (xs : List Sample), rs.inputRate = rs.outputRate →
    processSamples p fuel rs xs = some (xs, rs)

/-- R160: from a sound state with an unbounded `outq` the engine, left to run, finishes every waiting sample
and returns to `IDLE`, within a bound on its turns. -/
def Obligations.EngineReturnsToIdle : Prop :=
  ∀ s : State, Sound s → s.params.outDepth = .unbounded →
    ∃ k t, k ≤ (s.inq.length + 1) * 2 ^ 36 ∧ engineRun k s = .next t ∧ t.seq = .idle ∧ t.inq = []

/-- 70_reset_and_hazards.md R295: `IN_READY` and `OUT_VALID`, once 1, stay 1 through every step but the host's own
`PUSH` (for `IN_READY`) or `POP` (for `OUT_VALID`) and the reset event: every turn of the engine and every other
transaction of the host, a failing one and `INIT` too. While they are 1 the `PUSH` or `POP` they announce does not
hold. -/
def Obligations.ReadyBitsPersist : Prop :=
  ∀ s t : State, Coherent s → step s = .next t → nextEvent s ≠ .reset →
    (inReady s = true →
      (nextEvent s = .host ∧ ∃ w x, currentWord s = some w ∧ decode w = .ok (.push x)) ∨
      (inReady t = true ∧ ∀ x, exec (.push x) t ≠ .next t)) ∧
    (outValid s = true →
      (nextEvent s = .host ∧ ∃ w, currentWord s = some w ∧ decode w = .ok .pop) ∨
      (outValid t = true ∧ exec .pop t ≠ .next t))

/-! ## Arithmetic (42_dot_product_mac.md, 43_output_saturator.md) -/

/-- 42 R182: the scalar datapath accumulates the taps in index order from `+0.0`, product and sum rounded
separately. -/
def Obligations.ScalarDotAccumulatesInOrder : Prop :=
  (∀ base din dout, (Params.decided base din dout).dotMode = .scalar) ∧
  ∀ (p : Params) (coef hist : Row) (acc : Nat → F32), p.dotMode = .scalar →
    acc 0 = 0x00000000#32 →
    (∀ (i : Nat) (h : i < 16), acc (i + 1) = fadd32 (acc i) (fmul32 coef[i] hist[i])) →
    dot p coef hist = acc 16

/-- 42 R187 (a): against a zero history a finite row gives `+0.0`. -/
def Obligations.ZeroHistoryGivesZero : Prop :=
  ∀ (p : Params) (coef : Row), p.dotMode = .scalar →
    (∀ (i : Nat) (h : i < 16), ∃ n m, val32 coef[i] = .fin n m) →
    dot p coef zeroHistory = 0x00000000#32

/-- 42 R187 (b): when only the newest history word is not zero and its product is finite and not zero, the
dot product is exactly that product. -/
def Obligations.FirstOutputIsOneProduct : Prop :=
  ∀ (p : Params) (coef hist : Row) (n : Bool) (m : Nat), p.dotMode = .scalar →
    (∀ (i : Nat) (h : i < 16), ∃ n m, val32 coef[i] = .fin n m) →
    (∀ (i : Nat) (h : i < 15), hist[i] = 0x00000000#32) →
    val32 (fmul32 coef[15] hist[15]) = .fin n m → m ≠ 0 →
    dot p coef hist = fmul32 coef[15] hist[15]

/-- 42 R187 (c), 43 R204: with a finite table whose rows have magnitude sums of at most 2 (P-FINITE and P-L1 of
40_filter_bank_builder.md R130) and a history of converted samples, the dot product of every phase is finite, so no
NaN and no infinity reaches the saturator. -/
def Obligations.FiniteTablesGiveFiniteSums : Prop :=
  ∀ (p : Params) (table : Table) (hist : Row) (ph : Fin 128), p.dotMode = .scalar →
    PFinite table → PL1 2 table → (∀ (i : Nat) (h : i < 16), ∃ x : Sample, hist[i] = i16ToF32 x) →
    isFinite32 (dot p (phaseRow table ph) hist)

/-- 43 R201, R202, R204: NaN gives `SAT_NAN`, the infinities the bounds, and a finite value its integer part
(rounding toward zero) clamped to the sample range. -/
def Obligations.SaturatorClampsAndTruncates : Prop :=
  (∀ base din dout, (Params.decided base din dout).outRound = .towardZero ∧
    (Params.decided base din dout).satNan = 0#16) ∧
  ∀ (p : Params) (y : F32), p.outRound = .towardZero →
    (val32 y = .nan → saturate p y = p.satNan) ∧
    (val32 y = .inf false → s16 (saturate p y) = 32767) ∧
    (val32 y = .inf true → s16 (saturate p y) = -32768) ∧
    (∀ (m : Nat), val32 y = .fin false m →
      s16 (saturate p y) = min 32767 ((m / oneUnits fmt32 : Nat) : Int)) ∧
    (∀ (m : Nat), val32 y = .fin true m →
      s16 (saturate p y) = max (-32768) (-((m / oneUnits fmt32 : Nat) : Int)))

/-- 43 R205: the saturator is monotone over the values that are no NaN, whatever the rounding. -/
def Obligations.SaturatorIsMonotone : Prop :=
  ∀ (p : Params) (y z : F32), fge32 z y = true → s16 (saturate p y) ≤ s16 (saturate p z)

/-- 43 R205: the saturator is odd inside the bounds. -/
def Obligations.SaturatorIsOddInside : Prop :=
  ∀ (p : Params) (y z : F32) (n : Bool) (m : Nat), val32 y = .fin n m → val32 z = .fin (!n) m →
    m < 32767 * oneUnits fmt32 → s16 (saturate p z) = - s16 (saturate p y)

/-- 43 R200: the input conversion is exact for all 65536 samples. -/
def Obligations.SampleConversionIsExact : Prop :=
  ∀ x : Sample,
    val32 (i16ToF32 x) = .fin (decide (s16 x < 0)) ((s16 x).natAbs * oneUnits fmt32) ∧
    ∀ p : Params, saturate p (i16ToF32 x) = x

/-! ## The builder (40_filter_bank_builder.md) -/

/-- R121 to R130: word `16*ph + t` of a built table is the raw tap of phase `ph`, tap `t`, divided by the sum of
the row's raw taps in index order and rounded once to binary32. Everything is spelt out in the primitives of R129:
the cutoff, the tap offsets `x`, the sinc taps `v` with the peak branch, the windows `w` at index `128*i + ph` over
2047, the raw taps and their sum. The reference `CoefGen` is this builder with this hardware's constants (how its
sine and cosine are computed is log entry 6). -/
def Obligations.TableWordIsNormalisedTap : Prop :=
  (∀ base din dout, let p := Params.decided base din dout
    p.center = .realDivision ∧ p.hammingA0 = 0x3FE147AE147AE148#64 ∧ p.hammingA1 = 0x3FDD70A3D70A3D71#64 ∧
    p.pi64 = 0x400921FB54442D18#64 ∧ ∀ input output, coefGen p input output = build p refSin64 refCos64 input output) ∧
  (∀ (p : Params) (sin cos : F64 → F64) (input output : Word) (ph t : Nat) (hph : ph < 128) (ht : t < 16)
    (ratio cutoff center : F64) (x v w raw sum : Nat → F64),
    ratio = fdiv64 (u32ToF64 output) (u32ToF64 input) →
    (fge64 ratio 0x3FF0000000000000#64 = true → cutoff = 0x3FDCCCCCCCCCCCCD#64) →
    (fge64 ratio 0x3FF0000000000000#64 = false → cutoff = fmul64 ratio 0x3FDCCCCCCCCCCCCD#64) →
    (p.center = .realDivision → center = 0x401E000000000000#64) →
    (p.center = .integerDivision → center = 0x401C000000000000#64) →
    (∀ i, i < 16 →
      x i = fsub64 (fsub64 (intToF64 i) center) (fdiv64 (intToF64 ph) 0x4060000000000000#64) ∧
      (flt64 (fabs64 (x i)) 0x3EB0C6F7A0B5ED8D#64 = true → v i = fmul64 0x4000000000000000#64 cutoff) ∧
      (flt64 (fabs64 (x i)) 0x3EB0C6F7A0B5ED8D#64 = false → v i =
        fdiv64 (sin (fmul64 (fmul64 (fmul64 (x i) p.pi64) 0x4000000000000000#64) cutoff)) (fmul64 (x i) p.pi64)) ∧
      w i = fsub64 p.hammingA0 (fmul64 p.hammingA1 (cos (fdiv64
        (fmul64 (fmul64 0x4000000000000000#64 p.pi64) (intToF64 ((128 * i + ph : Nat) : Int))) 0x409FFC0000000000#64))) ∧
      raw i = fmul64 (v i) (w i)) →
    sum 0 = 0x0000000000000000#64 →
    (∀ i, i < 16 → sum (i + 1) = fadd64 (sum i) (raw i)) →
    (build p sin cos input output)[16 * ph + t] = f64ToF32 (fdiv64 (raw t) (sum 16)))

/-- R123, R124: with `CENTER = 7.5` every tap offset is the exact real `t - 7.5 - ph/128`, and the peak branch is
taken at `ph = 64`, `t = 8` only. -/
def Obligations.TapOffsetsExactPeakOnce : Prop :=
  ∀ (ph t : Nat), ph < 128 → t < 16 → ∃ (neg : Bool) (m : Nat),
    val64 (tapOffset (centerOf .realDivision) ph t) = .fin neg m ∧
    signedUnits neg m * 128 = (128 * (t : Int) - 960 - (ph : Int)) * (oneUnits fmt64 : Int) ∧
    (flt64 (fabs64 (tapOffset (centerOf .realDivision) ph t)) 0x3EB0C6F7A0B5ED8D#64 = true ↔
      ph = 64 ∧ t = 8)

/-- R136: every pair of non-zero rates with `output_rate >= input_rate` gets the same table from the builder,
whatever sine and cosine it uses. -/
def Obligations.UpsamplingPairsShareTable : Prop :=
  ∀ (p : Params) (sin cos : F64 → F64) (a b c d : Word), a ≠ 0#32 → c ≠ 0#32 →
    a.toNat ≤ b.toNat → c.toNat ≤ d.toNat → build p sin cos a b = build p sin cos c d

/-! ## Reset (10_state.md R46, 70_reset_and_hazards.md) -/

/-- R290: the reset event, in any state (also with a transaction held or the engine inside a sample), puts the
elements of 10_state.md R46 that have a reset value to it and abandons the outstanding transaction without
a response. That the host's program, the trace and the parameters survive is the model's choice: they are outside
the block (DEDUCED, log entry 17). -/
def Obligations.ResetEventPutsResetValues : Prop :=
  ∀ (s : State) (later : List Event), s.schedule = .reset :: later → ∃ t, step s = .next t ∧
    t.inRate = 0#32 ∧ t.outRate = 0#32 ∧ t.configured = false ∧ t.inq = [] ∧ t.outq = [] ∧ t.seq = .idle ∧
    t.port = none ∧ t.trace = s.trace ∧ t.program = s.program ∧ t.params = s.params ∧
    t.schedule = later ∧ t.tick = s.tick + 1

/-- R291: right after reset (the state the machine starts in, or any reset event) no engine step is enabled,
`STAT` reads 0, `GETPARAMS` 0x00100080, `GETIN` and `GETOUT` 0, `PUSH` is answered with `E_UNCONF` and `POP`
holds. -/
def Obligations.BehaviourRightAfterReset : Prop :=
  ∀ s : State, s = State.reset ∨ (∃ r, s = resetEvent r) →
    engineEnabled s = false ∧ engineTurn s = .next s ∧
    exec .stat s = .next { s with port := none, trace := s.trace ++ [⟨⟨false, 0x00000000#32⟩, none⟩] } ∧
    exec .getparams s = .next { s with port := none, trace := s.trace ++ [⟨⟨false, 0x00100080#32⟩, none⟩] } ∧
    exec .getin s = .next { s with port := none, trace := s.trace ++ [⟨⟨false, 0x00000000#32⟩, none⟩] } ∧
    exec .getout s = .next { s with port := none, trace := s.trace ++ [⟨⟨false, 0x00000000#32⟩, none⟩] } ∧
    (∀ x, exec (.push x) s =
      .next { s with port := none, trace := s.trace ++ [⟨⟨true, 0x00000000#32⟩, some .unconf⟩] }) ∧
    exec .pop s = .next s

/-- The state after reset satisfies the invariants. That it does so with the values of log entries 1 and 3
is the model's choice; the invariants ask nothing of an element the spec gives no value. -/
def Obligations.ResetStateIsSound : Prop := Sound State.reset ∧ UnitPosition State.reset

/-! ## The whole machine -/

/-- Every step keeps the control invariant: nothing moves before `INIT`, a configured block has the ratio,
step and table of its rates, the sequencer agrees with the identity test, the queues keep within their
depths, the history holds converted samples (10_state.md R21, R41 to R44). -/
def Obligations.StepKeepsCoherent : Prop :=
  ∀ s t : State, Coherent s → step s = .next t → Coherent t

/-- Every step from a sound state keeps the phase accumulator finite, not negative, bounded, below 1.0 in
`E_EMIT` and at least 1.0 in `E_RENORM` (10_state.md R44 a and c; 41_streaming_engine.md R158, R159). -/
def Obligations.StepKeepsPositionOk : Prop :=
  ∀ s t : State, Sound s → step s = .next t → PositionOk t

/-- 10_state.md R44 (b): when `step <= 1.0`, every step keeps the position in [0, 1) between input samples. -/
def Obligations.StepKeepsUnitPosition : Prop :=
  ∀ s t : State, Sound s → UnitPosition s → step s = .next t → UnitPosition t

/-- 41_streaming_engine.md R150, R158, 60_exceptions.md R260: from a sound state no step faults, and the only
stop is the refusal of `INIT` with a zero staging rate. -/
def Obligations.SoundStateNeverFaults : Prop :=
  ∀ s : State, Sound s →
    (∀ r, step s ≠ .fault r) ∧
    (∀ r, step s = .refused r → r = .initZeroRate ∧ nextEvent s = .host ∧
      (s.inRate = 0#32 ∨ s.outRate = 0#32) ∧
      ∃ w, decode w = .ok .init ∧ (s.port = some w ∨ s.port = none ∧ s.program.head? = some w))

/-- 10_state.md R25, R47: the elements without a value before `INIT`, and `cur` outside `PASS` and `SHIFT`, are
read by no step: two coherent states that differ only there step to states that differ only there, with the
same responses, or stop alike. -/
def Obligations.UnsetElementsAreUnobservable : Prop :=
  ∀ s t : State, Coherent s → Coherent t → SameVisible s t →
    sameOutcome SameVisible (step s) (step t)

/-- 20_memory.md R72, 00_scope.md R14: a host operation other than `STAT` that completes in a coherent state
and an enabled engine step commute: whichever comes first, the state is the same. -/
def Obligations.HostAndEngineCommute : Prop :=
  ∀ (s a b : State) (w : Bus48), Coherent s → s.port = some w → decode w ≠ .ok .stat →
    hostTurn s = .next a → a.port = none → engineEnabled s = true → engineTurn s = .next b →
    ∃ c, engineTurn a = .next c ∧ hostTurn b = .next c

/-- 20_memory.md R72: for a fixed program that completes, what the host receives (all of it but the `BUSY`,
`IN_READY` and `OUT_VALID` bits of `STAT`) is the same for every interleaving and every pair of depths. The
runs start from sound states that differ in schedule and depths only, with the engine idle and nothing
outstanding or queued, and no reset event happens in them. -/
def Obligations.ResponsesIndependentOfInterleaving : Prop :=
  ∀ (s : State) (din dout din' dout' : Depth) (sch sch' : List Event) (t t' : State),
    Sound s → s.port = none → s.seq = .idle → s.inq = [] → s.outq = [] → s.trace = [] →
    (∀ e ∈ sch, e ≠ .reset) → (∀ e ∈ sch', e ≠ .reset) →
    run sch.length { s with
      schedule := sch, params := { s.params with inDepth := din, outDepth := dout } } = .next t →
    run sch'.length { s with
      schedule := sch', params := { s.params with inDepth := din', outDepth := dout' } } = .next t' →
    t.program = [] → t.port = none → t'.program = [] → t'.port = none →
    List.zipWith dataOfEntry s.program t.trace = List.zipWith dataOfEntry s.program t'.trace ∧
      t.trace.length = s.program.length ∧ t'.trace.length = s.program.length

/-- 30_encoding.md R91: a step sends at most one response, after all earlier ones; an error response carries
`RDATA = 0` and a cause, any other no cause. -/
def Obligations.StepSendsAtMostOneResponse : Prop :=
  ∀ s t : State, step s = .next t → t.trace = s.trace ∨
    ∃ e : TraceEntry, t.trace = s.trace ++ [e] ∧ t.port = none ∧ nextEvent s = .host ∧
      (e.resp.err = true → e.resp.rdata = 0#32 ∧ e.cause.isSome = true) ∧
      (e.resp.err = false → e.cause = none)

/-- 10_state.md R22, R35, R38, R44 (e), 60_exceptions.md R264: the active rates, ratio, step and table change
only by a completed `INIT` of the host, on an idle engine with `inq` empty, or by a reset event; the parameters
never change. -/
def Obligations.ConfigurationChangesOnlyByInitOrReset : Prop :=
  ∀ s t : State, step s = .next t → t.params = s.params ∧
    (nextEvent s = .reset ∨
      (nextEvent s = .host ∧ s.seq = .idle ∧ s.inq = [] ∧ t.port = none ∧
        ∃ w, currentWord s = some w ∧ decode w = .ok .init) ∨
      (t.configured = s.configured ∧ t.rs.inputRate = s.rs.inputRate ∧ t.rs.outputRate = s.rs.outputRate ∧
        t.rs.ratio = s.rs.ratio ∧ t.rs.step = s.rs.step ∧ t.rs.coefficients = s.rs.coefficients))

/-- 20_memory.md R73: `INIT` is a drain barrier: a step that completes it starts with the engine idle and
`inq` empty, and no sample is in progress after it. -/
def Obligations.InitIsDrainBarrier : Prop :=
  ∀ s t : State, exec .init s = .next t → t ≠ s →
    s.seq = .idle ∧ s.inq = [] ∧ t.seq = .idle ∧ t.inq = [] ∧ t.outq = s.outq ∧ engineEnabled t = false

/-- 70_reset_and_hazards.md R302, 41_streaming_engine.md R160. Every run of the machine gives host and engine a turn
again and again: neither is starved (the form is log entry 2). And under any fair schedule without a reset event,
from any sound state, with any depths: if the host keeps popping and its program makes no step stop, then again and
again the engine is back in `IDLE` with `inq` empty, so every pushed sample is eventually fully processed. -/
def Obligations.FairRunsProcessEverySample : Prop :=
  (∀ (s : State) (agent : Event), agent = .host ∨ agent = .engine →
    ∃ k, ∀ t, run k s = .next t → nextEvent t = agent) ∧
  (∀ (s : State) (events : Nat → Event), Sound s → Fair events s → (∀ k, events k ≠ .reset) →
    (∀ k, ∃ t, runUnder events k s = .next t) → HostKeepsPopping events s →
    ∀ n, ∃ k t, n ≤ k ∧ runUnder events k s = .next t ∧ t.seq = .idle ∧ t.inq = [])
end

