-- ==== Sys2Proof/Laws/Decode.lean ====
section
/-! SUPPORT. The fields of a word built from fields, and the register map read both ways. -/

namespace Sys2Proof

@[simp] theorem weOf_busWord (we : Bool) (off : BitVec 8) (data : Word) : weOf (busWord we off data) = we := by
  simp only [weOf, busWord, BitVec.getLsbD_cast, BitVec.getLsbD_append]
  simp

@[simp] theorem rsvdOf_busWord (we : Bool) (off : BitVec 8) (data : Word) : rsvdOf (busWord we off data) = 0#7 := by
  apply BitVec.eq_of_getLsbD_eq
  intro i hi
  simp only [rsvdOf, busWord, BitVec.getLsbD_extractLsb', BitVec.getLsbD_cast, BitVec.getLsbD_append,
    BitVec.getLsbD_zero]
  have h1 : ¬ (40 + i < 32) := by omega
  have h2 : ¬ (40 + i - 32 < 8) := by omega
  have h3 : 40 + i - 32 - 8 < 7 := by omega
  simp [h1, h2, h3]

@[simp] theorem addrOf_busWord (we : Bool) (off : BitVec 8) (data : Word) : addrOf (busWord we off data) = off := by
  apply BitVec.eq_of_getLsbD_eq
  intro i hi
  simp only [addrOf, busWord, BitVec.getLsbD_extractLsb', BitVec.getLsbD_cast, BitVec.getLsbD_append]
  have h1 : ¬ (32 + i < 32) := by omega
  have h2 : 32 + i - 32 < 8 := by omega
  have h3 : 32 + i - 32 = i := by omega
  simp [h1, h3, hi]

@[simp] theorem dataOf_busWord (we : Bool) (off : BitVec 8) (data : Word) : dataOf (busWord we off data) = data := by
  apply BitVec.eq_of_getLsbD_eq
  intro i hi
  simp only [dataOf, busWord, BitVec.getLsbD_extractLsb', BitVec.getLsbD_cast, BitVec.getLsbD_append]
  simp [hi]

/-- Masking a word field by field. -/
theorem busWord_and (a b : BitVec 1) (c d : BitVec 7) (e f : BitVec 8) (x y : Word) :
    ((((a ++ c) ++ e) ++ x) &&& (((b ++ d) ++ f) ++ y)) =
      ((((a &&& b) ++ (c &&& d)) ++ (e &&& f)) ++ (x &&& y)) := by
  rw [BitVec.and_append, BitVec.and_append, BitVec.and_append]

/-- The row mask of the fixed fields keeps them and clears the data. -/
theorem busWord_and_fields (we : Bool) (off : BitVec 8) (data : Word) :
    busWord we off data &&& 0xFFFF00000000#48 = busWord we off 0#32 := by
  have h := busWord_and (BitVec.ofBool we) 1#1 0#7 0x7F#7 off 0xFF#8 data 0#32
  refine h.trans ?_
  have h1 : BitVec.ofBool we &&& 1#1 = BitVec.ofBool we := by cases we <;> rfl
  have h2 : (0#7 &&& 0x7F#7) = 0#7 := rfl
  have h3 : off &&& 0xFF#8 = off := BitVec.and_allOnes
  have h4 : data &&& 0#32 = 0#32 := BitVec.and_zero
  rw [h1, h2, h3, h4]
  rfl

/-- The row mask of `CTRL` writes keeps bit 0 of the data as well. -/
theorem busWord_and_ctrl (we : Bool) (off : BitVec 8) (data : Word) :
    busWord we off data &&& 0xFFFF00000001#48 = busWord we off (data &&& 1#32) := by
  have h := busWord_and (BitVec.ofBool we) 1#1 0#7 0x7F#7 off 0xFF#8 data 1#32
  refine h.trans ?_
  have h1 : BitVec.ofBool we &&& 1#1 = BitVec.ofBool we := by cases we <;> rfl
  have h2 : (0#7 &&& 0x7F#7) = 0#7 := rfl
  have h3 : off &&& 0xFF#8 = off := BitVec.and_allOnes
  rw [h1, h2, h3]
  rfl

@[simp] theorem regAt_regOffset (reg : Reg) : regAt (regOffset reg) = some reg := by
  cases reg <;> decide

/-- An offset that names a register is that register's. -/
theorem regAt_some {off : BitVec 8} {reg : Reg} (h : regAt off = some reg) : off = regOffset reg := by
  unfold regAt at h
  repeat' split at h
  all_goals first
    | cases h; assumption
    | cases h

/-- Every register's offset is a multiple of 4. -/
theorem regOffset_aligned (reg : Reg) : (regOffset reg).extractLsb' 0 2 = 0#2 := by
  cases reg <;> decide

end Sys2Proof
end

