-- ==== Sys2Proof/Laws/Float.lean ====
section
/-! SUPPORT. The laws of the rounding function: it is exact on representable magnitudes, monotone, and
hence bounded by any representable bound; and what `floatVal` reads back from a rounded result. -/

namespace Sys2Proof.Machine

/-! ## Rounding to a whole number -/

theorem divNearestEven_upper {n d : Nat} (hd : 0 < d) : 2 * n ≤ (2 * divNearestEven n d + 1) * d := by
  have hn := Nat.div_add_mod n d
  have hr := Nat.mod_lt n hd
  unfold divNearestEven
  simp only
  split
  · nlinarith
  · split
    · nlinarith [Nat.zero_le ((n / d % 2) * d)]
    · nlinarith

theorem divNearestEven_lower {n d : Nat} (hd : 0 < d) : 2 * divNearestEven n d * d ≤ 2 * n + d := by
  have hn := Nat.div_add_mod n d
  have hr := Nat.mod_lt n hd
  unfold divNearestEven
  simp only
  split
  · nlinarith
  · split
    · rcases Nat.mod_two_eq_zero_or_one (n / d) with h | h <;> rw [h] <;> nlinarith
    · nlinarith [Nat.zero_le (n % d)]

theorem divNearestEven_tie_upper {n d : Nat} (hd : 0 < d)
    (h : 2 * n = (2 * divNearestEven n d + 1) * d) : divNearestEven n d % 2 = 0 := by
  have hn := Nat.div_add_mod n d
  have hr := Nat.mod_lt n hd
  revert h
  unfold divNearestEven
  simp only
  split
  · intro h; nlinarith
  · split
    · intro h
      rcases Nat.mod_two_eq_zero_or_one (n / d) with h2 | h2
      · omega
      · rw [h2] at h; nlinarith
    · intro h
      have : 2 * (n % d) = d := by nlinarith
      contradiction

theorem divNearestEven_tie_lower {n d : Nat} (hd : 0 < d)
    (h : 2 * divNearestEven n d * d = 2 * n + d) : divNearestEven n d % 2 = 0 := by
  have hn := Nat.div_add_mod n d
  have hr := Nat.mod_lt n hd
  revert h
  unfold divNearestEven
  simp only
  split
  · intro h
    have : 2 * (n % d) = d := by nlinarith
    omega
  · split
    · intro h
      rcases Nat.mod_two_eq_zero_or_one (n / d) with h2 | h2
      · rw [h2] at h; nlinarith
      · omega
    · intro h; nlinarith [Nat.zero_le (n % d)]

/-- Rounding to a whole number is monotone in the fraction. -/
theorem divNearestEven_mono {n d n' d' : Nat} (hd : 0 < d) (hd' : 0 < d') (h : n * d' ≤ n' * d) :
    divNearestEven n d ≤ divNearestEven n' d' := by
  by_contra hlt
  push Not at hlt
  have l := divNearestEven_lower (n := n) hd
  have u := divNearestEven_upper (n := n') hd'
  have tl := divNearestEven_tie_lower (n := n) hd
  have tu := divNearestEven_tie_upper (n := n') hd'
  generalize divNearestEven n d = a at *
  generalize divNearestEven n' d' = b at *
  -- (2a-1) d d' ≤ 2 n d' ≤ 2 n' d ≤ (2b+1) d' d, and b + 1 ≤ a
  obtain ⟨c, rfl⟩ : ∃ c, a = b + 1 + c := ⟨a - (b + 1), by omega⟩
  have h1 : 2 * (b + 1 + c) * d * d' ≤ (2 * n + d) * d' := Nat.mul_le_mul_right _ l
  have h2 : 2 * n' * d ≤ (2 * b + 1) * d' * d := Nat.mul_le_mul_right _ u
  have hdd : 0 < d * d' := Nat.mul_pos hd hd'
  have h3 : 2 * (c * (d * d')) = 0 := by nlinarith
  have hc : c = 0 := by
    rcases Nat.eq_zero_or_pos c with hc | hc
    · exact hc
    · have := Nat.mul_pos hc hdd; omega
  subst hc
  have e1 : 2 * (b + 1 + 0) * d = 2 * n + d := by
    apply Nat.eq_of_mul_eq_mul_right hd'
    nlinarith
  have e2 : 2 * n' = (2 * b + 1) * d' := by
    apply Nat.eq_of_mul_eq_mul_right hd
    nlinarith
  have := tl e1
  have := tu e2
  omega

/-- Rounding is exact on whole numbers. -/
theorem divNearestEven_exact (q : Nat) {d : Nat} (hd : 0 < d) : divNearestEven (q * d) d = q := by
  unfold divNearestEven
  simp only [Nat.mul_div_cancel _ hd, Nat.mul_mod_left]
  split
  · omega
  · split
    · omega
    · rfl

/-! ## Magnitude patterns -/

theorem magUnits_zero (f : FloatFormat) : magUnits f 0 = 0 := by
  unfold magUnits
  simp

/-- A normal pattern: exponent field `k + 1`, fraction `r`. -/
theorem magUnits_normal (f : FloatFormat) {k r : Nat} (hr : r < 2 ^ f.fracBits) :
    magUnits f ((k + 1) * 2 ^ f.fracBits + r) = (2 ^ f.fracBits + r) * 2 ^ k := by
  have hp : 0 < 2 ^ f.fracBits := Nat.two_pow_pos _
  have h1 : ¬ (k + 1) * 2 ^ f.fracBits + r < 2 ^ f.fracBits := by nlinarith
  have h2 : ((k + 1) * 2 ^ f.fracBits + r) / 2 ^ f.fracBits = k + 1 := by
    rw [Nat.add_comm, Nat.add_mul_div_right _ _ hp, Nat.div_eq_of_lt hr]; omega
  have h3 : ((k + 1) * 2 ^ f.fracBits + r) % 2 ^ f.fracBits = r := by
    rw [Nat.add_comm, Nat.add_mul_mod_self_right, Nat.mod_eq_of_lt hr]
  unfold magUnits
  rw [if_neg h1, h2, h3]
  rfl

/-- Every pattern is subnormal or normal. -/
theorem pattern_cases (f : FloatFormat) (pat : Nat) :
    pat < 2 ^ f.fracBits ∨ ∃ k r, r < 2 ^ f.fracBits ∧ pat = (k + 1) * 2 ^ f.fracBits + r := by
  by_cases h : pat < 2 ^ f.fracBits
  · exact .inl h
  · right
    have hp : 0 < 2 ^ f.fracBits := Nat.two_pow_pos _
    have hq : 1 ≤ pat / 2 ^ f.fracBits := (Nat.one_le_div_iff hp).2 (by omega)
    refine ⟨pat / 2 ^ f.fracBits - 1, pat % 2 ^ f.fracBits, Nat.mod_lt _ hp, ?_⟩
    rw [Nat.sub_add_cancel hq, Nat.mul_comm]
    exact (Nat.div_add_mod pat _).symm

/-- The next pattern is one spacing larger. -/
theorem magUnits_lt_succ (f : FloatFormat) (pat : Nat) : magUnits f pat < magUnits f (pat + 1) := by
  have hp : 0 < 2 ^ f.fracBits := Nat.two_pow_pos _
  rcases pattern_cases f pat with h | ⟨k, r, hr, rfl⟩
  · have e : magUnits f pat = pat := by unfold magUnits; rw [if_pos h]
    by_cases h2 : pat + 1 < 2 ^ f.fracBits
    · have e2 : magUnits f (pat + 1) = pat + 1 := by unfold magUnits; rw [if_pos h2]
      omega
    · have h3 : pat + 1 = (0 + 1) * 2 ^ f.fracBits + 0 := by omega
      rw [h3, magUnits_normal f hp, e]
      simp only [Nat.add_zero, Nat.pow_zero, Nat.mul_one]
      exact h
  · have hk : 0 < 2 ^ k := Nat.two_pow_pos _
    rw [magUnits_normal f hr]
    by_cases h2 : r + 1 < 2 ^ f.fracBits
    · rw [Nat.add_assoc, magUnits_normal f h2]
      exact Nat.mul_lt_mul_of_pos_right (by omega) hk
    · have h3 : (k + 1) * 2 ^ f.fracBits + r + 1 = ((k + 1) + 1) * 2 ^ f.fracBits + 0 := by
        have : r + 1 = 2 ^ f.fracBits := by omega
        nlinarith
      rw [h3, magUnits_normal f hp, Nat.pow_succ]
      nlinarith

theorem magUnits_strictMono (f : FloatFormat) : StrictMono (magUnits f) :=
  strictMono_nat_of_lt_succ (magUnits_lt_succ f)

theorem magUnits_le_iff (f : FloatFormat) {a b : Nat} : magUnits f a ≤ magUnits f b ↔ a ≤ b :=
  (magUnits_strictMono f).le_iff_le

theorem magUnits_lt_iff (f : FloatFormat) {a b : Nat} : magUnits f a < magUnits f b ↔ a < b :=
  (magUnits_strictMono f).lt_iff_lt

/-! ## Rounding to the format -/

/-- The pattern before the clamp to infinity. -/
def openPattern (f : FloatFormat) (num den : Nat) : Nat :=
  let k := Nat.log2 (num / den) - f.fracBits
  k * 2 ^ f.fracBits + divNearestEven num (den * 2 ^ k)

theorem roundPattern_eq (f : FloatFormat) (num den : Nat) :
    roundPattern f num den = min (openPattern f num den) (infPattern f) := rfl

theorem log2_mono {a b : Nat} (h : a ≤ b) : Nat.log2 a ≤ Nat.log2 b := by
  simp only [Nat.log2_eq_log_two]
  exact Nat.log_mono_right h

/-- The significand of a rounded value fits in one bit more than the fraction, the carry included. -/
theorem openSignificand_le (f : FloatFormat) (num : Nat) {den : Nat} (hd : 0 < den) :
    divNearestEven num (den * 2 ^ (Nat.log2 (num / den) - f.fracBits)) ≤ 2 ^ (f.fracBits + 1) := by
  set k := Nat.log2 (num / den) - f.fracBits with hk
  have hq : num / den < 2 ^ (f.fracBits + 1 + k) := by
    have h1 : num / den < 2 ^ (Nat.log2 (num / den) + 1) := Nat.lt_log2_self
    exact lt_of_lt_of_le h1 (Nat.pow_le_pow_right (by norm_num) (by omega))
  have hn : num < den * 2 ^ (f.fracBits + 1 + k) := by
    rw [Nat.mul_comm]; exact (Nat.div_lt_iff_lt_mul hd).1 hq
  have hpos : 0 < den * 2 ^ k := Nat.mul_pos hd (Nat.two_pow_pos _)
  have h := divNearestEven_mono (n := num) (n' := 2 ^ (f.fracBits + 1) * (den * 2 ^ k)) hpos hpos (by
    apply Nat.mul_le_mul_right
    rw [Nat.pow_add] at hn
    nlinarith)
  rwa [divNearestEven_exact _ hpos] at h

/-- Where the value is past the subnormals the significand has its hidden bit. -/
theorem openSignificand_ge (f : FloatFormat) (num : Nat) {den : Nat} (hd : 0 < den)
    (hk : 0 < Nat.log2 (num / den) - f.fracBits) :
    2 ^ f.fracBits ≤ divNearestEven num (den * 2 ^ (Nat.log2 (num / den) - f.fracBits)) := by
  set k := Nat.log2 (num / den) - f.fracBits with hkk
  have hne : num / den ≠ 0 := by
    intro h0; rw [h0] at hkk; simp [Nat.log2] at hkk; omega
  have hq : 2 ^ (f.fracBits + k) ≤ num / den := by
    have h1 := Nat.log2_self_le hne
    have : f.fracBits + k = Nat.log2 (num / den) := by omega
    rwa [this]
  have hn : 2 ^ (f.fracBits + k) * den ≤ num := (Nat.le_div_iff_mul_le hd).1 hq
  have hpos : 0 < den * 2 ^ k := Nat.mul_pos hd (Nat.two_pow_pos _)
  have h := divNearestEven_mono (n := 2 ^ f.fracBits * (den * 2 ^ k)) (n' := num) hpos hpos (by
    apply Nat.mul_le_mul_right
    rw [Nat.pow_add] at hn
    nlinarith)
  rwa [divNearestEven_exact _ hpos] at h

theorem openPattern_mono (f : FloatFormat) {n d n' d' : Nat} (hd : 0 < d) (hd' : 0 < d')
    (h : n * d' ≤ n' * d) : openPattern f n d ≤ openPattern f n' d' := by
  have hq : n / d ≤ n' / d' := by
    rw [Nat.le_div_iff_mul_le hd']
    have h1 : n / d * d ≤ n := Nat.div_mul_le_self n d
    have h2 : n / d * d' * d ≤ n' * d := by nlinarith
    exact Nat.le_of_mul_le_mul_right h2 hd
  have hl := log2_mono hq
  unfold openPattern
  simp only
  rcases Nat.eq_or_lt_of_le (show Nat.log2 (n / d) - f.fracBits ≤ Nat.log2 (n' / d') - f.fracBits by omega)
    with hk | hk
  · rw [hk]
    apply Nat.add_le_add_left
    have hp : 0 < 2 ^ (Nat.log2 (n' / d') - f.fracBits) := Nat.two_pow_pos _
    exact divNearestEven_mono (Nat.mul_pos hd hp) (Nat.mul_pos hd' hp) (by nlinarith)
  · have hu := openSignificand_le f n hd
    have hv := openSignificand_ge f n' hd' (by omega)
    rw [Nat.pow_succ] at hu
    have : (Nat.log2 (n / d) - f.fracBits + 1) * 2 ^ f.fracBits ≤
        (Nat.log2 (n' / d') - f.fracBits) * 2 ^ f.fracBits := Nat.mul_le_mul_right _ hk
    nlinarith

/-- Rounding is exact on a magnitude the format holds. -/
theorem openPattern_exact (f : FloatFormat) (pat : Nat) {den : Nat} (hd : 0 < den) :
    openPattern f (magUnits f pat * den) den = pat := by
  have hp : 0 < 2 ^ f.fracBits := Nat.two_pow_pos _
  unfold openPattern
  simp only [Nat.mul_div_cancel _ hd]
  rcases pattern_cases f pat with h | ⟨k, r, hr, rfl⟩
  · have e : magUnits f pat = pat := by unfold magUnits; rw [if_pos h]
    have hl : Nat.log2 pat - f.fracBits = 0 := by
      rcases Nat.eq_zero_or_pos pat with h0 | h0
      · subst h0; simp [Nat.log2]
      · have := (Nat.log2_lt (by omega)).2 h; omega
    rw [e, hl]
    simp only [Nat.pow_zero, Nat.mul_one, Nat.zero_mul, Nat.zero_add]
    exact divNearestEven_exact pat hd
  · rw [magUnits_normal f hr]
    have hl : Nat.log2 ((2 ^ f.fracBits + r) * 2 ^ k) = f.fracBits + k := by
      have hne : (2 ^ f.fracBits + r) * 2 ^ k ≠ 0 := by positivity
      have hk : 0 < 2 ^ k := Nat.two_pow_pos _
      rw [Nat.log2_eq_iff hne]
      constructor
      · rw [Nat.pow_add]; exact Nat.mul_le_mul_right _ (by omega)
      · rw [show f.fracBits + k + 1 = (f.fracBits + 1) + k by omega, Nat.pow_add, Nat.pow_succ]
        exact Nat.mul_lt_mul_of_pos_right (by omega) hk
    rw [hl, Nat.add_sub_cancel_left, Nat.mul_assoc, Nat.mul_comm (2 ^ k) den,
      divNearestEven_exact _ (Nat.mul_pos hd (Nat.two_pow_pos _))]
    ring

theorem roundPattern_le_inf (f : FloatFormat) (num den : Nat) : roundPattern f num den ≤ infPattern f :=
  Nat.min_le_right _ _

/-- Rounding is monotone. -/
theorem roundPattern_mono (f : FloatFormat) {n d n' d' : Nat} (hd : 0 < d) (hd' : 0 < d')
    (h : n * d' ≤ n' * d) : roundPattern f n d ≤ roundPattern f n' d' := by
  rw [roundPattern_eq, roundPattern_eq]
  exact min_le_min_right _ (openPattern_mono f hd hd' h)

/-- Rounding a finite magnitude of the format gives it back. -/
theorem roundPattern_exact (f : FloatFormat) {pat den : Nat} (hd : 0 < den) (hp : pat ≤ infPattern f) :
    roundPattern f (magUnits f pat * den) den = pat := by
  rw [roundPattern_eq, openPattern_exact f pat hd]
  exact Nat.min_eq_left hp

/-- A fraction at or above a representable magnitude rounds to at least it. -/
theorem le_roundPattern (f : FloatFormat) {pat num den : Nat} (hd : 0 < den) (hp : pat ≤ infPattern f)
    (h : magUnits f pat * den ≤ num) : pat ≤ roundPattern f num den := by
  calc pat = roundPattern f (magUnits f pat * den) den := (roundPattern_exact f hd hp).symm
    _ ≤ roundPattern f num den := roundPattern_mono f hd hd (Nat.mul_le_mul_right _ h)

/-- A fraction at or below a representable magnitude rounds to at most it. -/
theorem roundPattern_le (f : FloatFormat) {pat num den : Nat} (hd : 0 < den) (hp : pat ≤ infPattern f)
    (h : num ≤ magUnits f pat * den) : roundPattern f num den ≤ pat := by
  calc roundPattern f num den ≤ roundPattern f (magUnits f pat * den) den :=
        roundPattern_mono f hd hd (Nat.mul_le_mul_right _ h)
    _ = pat := roundPattern_exact f hd hp

/-- Every magnitude `n * 2^j` with a significand of at most `fracBits + 1` bits is representable. -/
theorem exists_pattern (f : FloatFormat) (n j : Nat) (hn : n ≤ 2 ^ (f.fracBits + 1)) :
    ∃ pat, magUnits f pat = n * 2 ^ j ∧ pat ≤ (j + 2) * 2 ^ f.fracBits := by
  have hp : 0 < 2 ^ f.fracBits := Nat.two_pow_pos _
  induction j generalizing n with
  | zero =>
    rw [Nat.pow_succ] at hn
    rcases pattern_cases f n with h | ⟨k, r, hr, hnr⟩
    · exact ⟨n, by unfold magUnits; simp [h], by omega⟩
    · rcases Nat.eq_zero_or_pos k with hk | hk
      · subst hk
        exact ⟨n, by rw [hnr, magUnits_normal f hr]; simp, by omega⟩
      · have h2 : 2 * 2 ^ f.fracBits ≤ (k + 1) * 2 ^ f.fracBits := Nat.mul_le_mul_right _ (by omega)
        have hk1 : k = 1 := by
          by_contra hne
          have : 3 * 2 ^ f.fracBits ≤ (k + 1) * 2 ^ f.fracBits := Nat.mul_le_mul_right _ (by omega)
          omega
        have hr0 : r = 0 := by subst hk1; omega
        subst hk1; subst hr0
        refine ⟨(1 + 1) * 2 ^ f.fracBits + 0, ?_, by omega⟩
        rw [magUnits_normal f hp, hnr]; ring
  | succ j ih =>
    by_cases h : 2 ^ f.fracBits ≤ n
    · rw [Nat.pow_succ] at hn
      by_cases hn2 : n = 2 ^ f.fracBits * 2
      · refine ⟨((j + 2) + 1) * 2 ^ f.fracBits + 0, ?_, by simp [Nat.add_right_comm]⟩
        rw [magUnits_normal f hp, hn2, Nat.pow_succ, Nat.pow_succ]; ring
      · refine ⟨((j + 1) + 1) * 2 ^ f.fracBits + (n - 2 ^ f.fracBits), ?_, ?_⟩
        · rw [magUnits_normal f (by omega), Nat.add_sub_cancel' h]
        · have : ((j + 1) + 1) * 2 ^ f.fracBits + 2 ^ f.fracBits = (j + 1 + 2) * 2 ^ f.fracBits := by ring
          omega
    · obtain ⟨pat, he, hb⟩ := ih (n * 2) (by rw [Nat.pow_succ]; omega)
      refine ⟨pat, by rw [he, Nat.pow_succ]; ring, le_trans hb (Nat.mul_le_mul_right _ (by omega))⟩

/-! ## Reading a rounded result back -/

/-- What `floatVal` reads from a sign and a magnitude pattern up to infinity. -/
theorem floatVal_pattern (f : FloatFormat) {neg : Bool} {pat : Nat} (hp : pat ≤ infPattern f)
    (hi : infPattern f < signWeight f) :
    floatVal f ((if neg then signWeight f else 0) + pat) =
      if pat = infPattern f then .inf neg else .fin neg (magUnits f pat) := by
  have hlt : pat < signWeight f := lt_of_le_of_lt hp hi
  have hmod : ((if neg then signWeight f else 0) + pat) % signWeight f = pat := by
    cases neg
    · simp [Nat.mod_eq_of_lt hlt]
    · simp [Nat.mod_eq_of_lt hlt]
  have hneg : decide (signWeight f ≤ (if neg then signWeight f else 0) + pat) = neg := by
    cases neg
    · simp; omega
    · simp
  unfold floatVal
  simp only [hmod, hneg]
  rw [if_neg (by omega)]

theorem infPattern_lt_sign32 : infPattern fmt32 < signWeight fmt32 := by decide
theorem infPattern_lt_sign64 : infPattern fmt64 < signWeight fmt64 := by decide

/-- The value of a finite or overflowing binary64 result. -/
theorem val64_round64_ratio (nan : F64) (neg : Bool) (num den : Nat) :
    val64 (round64 nan (.ratio neg num den)) =
      if roundPattern fmt64 num den = infPattern fmt64 then .inf neg
      else .fin neg (magUnits fmt64 (roundPattern fmt64 num den)) := by
  have hb : (if neg then signWeight fmt64 else 0) + roundPattern fmt64 num den < 2 ^ 64 := by
    have h1 := roundPattern_le_inf fmt64 num den
    have h2 := infPattern_lt_sign64
    have h3 : signWeight fmt64 = 2 ^ 63 := by decide
    cases neg <;> simp <;> omega
  unfold val64 round64 roundBits
  rw [BitVec.toNat_ofNat, Nat.mod_eq_of_lt hb]
  exact floatVal_pattern fmt64 (roundPattern_le_inf _ _ _) infPattern_lt_sign64

/-- The value of a finite or overflowing binary32 result. -/
theorem val32_round32_ratio (nan : F32) (neg : Bool) (num den : Nat) :
    val32 (round32 nan (.ratio neg num den)) =
      if roundPattern fmt32 num den = infPattern fmt32 then .inf neg
      else .fin neg (magUnits fmt32 (roundPattern fmt32 num den)) := by
  have hb : (if neg then signWeight fmt32 else 0) + roundPattern fmt32 num den < 2 ^ 32 := by
    have h1 := roundPattern_le_inf fmt32 num den
    have h2 := infPattern_lt_sign32
    have h3 : signWeight fmt32 = 2 ^ 31 := by decide
    cases neg <;> simp <;> omega
  unfold val32 round32 roundBits
  rw [BitVec.toNat_ofNat, Nat.mod_eq_of_lt hb]
  exact floatVal_pattern fmt32 (roundPattern_le_inf _ _ _) infPattern_lt_sign32

/-- A finite value comes from a pattern below infinity. -/
theorem floatVal_fin (f : FloatFormat) {bits : Nat} {neg : Bool} {m : Nat}
    (h : floatVal f bits = .fin neg m) :
    bits % signWeight f < infPattern f ∧ m = magUnits f (bits % signWeight f) ∧
      neg = decide (signWeight f ≤ bits) := by
  unfold floatVal at h
  simp only at h
  split at h
  · cases h
  · split at h
    · cases h
    · cases h
      exact ⟨by omega, rfl, rfl⟩

end Sys2Proof.Machine
end

