-- ==== Sys2Proof/Laws/Rounding.lean ====
section
/-! SUPPORT. Enclosures of the binary64 primitives: between which representable magnitudes a rounded result
lies (00_scope.md R10). Magnitudes are in units of the smallest subnormal. -/

namespace Sys2Proof.Machine

theorem unitExp64 : unitExp fmt64 = 1074 := by decide

theorem unitExp32 : unitExp fmt32 = 149 := by decide

theorem oneUnits64 : oneUnits fmt64 = 2 ^ 1074 := congrArg (2 ^ ·) unitExp64

theorem oneUnits32 : oneUnits fmt32 = 2 ^ 149 := congrArg (2 ^ ·) unitExp32

theorem oneUnits_pos (f : FloatFormat) : 0 < oneUnits f := Nat.two_pow_pos _

/-- A magnitude the format has a finite pattern for. -/
def Representable (f : FloatFormat) (m : Nat) : Prop := ∃ pat, magUnits f pat = m ∧ pat < infPattern f

theorem representable64 (n j : Nat) (hn : n ≤ 2 ^ 53) (hj : j ≤ 2044) : Representable fmt64 (n * 2 ^ j) := by
  obtain ⟨pat, he, hp⟩ := exists_pattern fmt64 n j hn
  refine ⟨pat, he, lt_of_le_of_lt hp ?_⟩
  have h : (j + 2) * 2 ^ 52 ≤ 2046 * 2 ^ 52 := Nat.mul_le_mul_right _ (by omega)
  exact lt_of_le_of_lt h (by decide)

theorem representable32 (n j : Nat) (hn : n ≤ 2 ^ 24) (hj : j ≤ 252) : Representable fmt32 (n * 2 ^ j) := by
  obtain ⟨pat, he, hp⟩ := exists_pattern fmt32 n j hn
  refine ⟨pat, he, lt_of_le_of_lt hp ?_⟩
  have h : (j + 2) * 2 ^ 23 ≤ 254 * 2 ^ 23 := Nat.mul_le_mul_right _ (by omega)
  exact lt_of_le_of_lt h (by decide)

/-- The magnitude of a finite value is representable. -/
theorem representable_of_val64 {a : F64} {neg : Bool} {m : Nat} (h : val64 a = .fin neg m) :
    Representable fmt64 m := by
  obtain ⟨h1, h2, -⟩ := floatVal_fin fmt64 h
  exact ⟨_, h2.symm, h1⟩

theorem representable_of_val32 {a : F32} {neg : Bool} {m : Nat} (h : val32 a = .fin neg m) :
    Representable fmt32 m := by
  obtain ⟨h1, h2, -⟩ := floatVal_fin fmt32 h
  exact ⟨_, h2.symm, h1⟩

/-- A representable binary64 magnitude is a significand of at most 53 bits times a power of two. -/
theorem Representable.significand {m : Nat} (h : Representable fmt64 m) :
    ∃ n j, m = n * 2 ^ j ∧ n < 2 ^ 53 ∧ j ≤ 2045 ∧ (j = 0 ∨ 2 ^ 52 ≤ n) := by
  obtain ⟨pat, rfl, hp⟩ := h
  have hf : fmt64.fracBits = 52 := rfl
  have hi : infPattern fmt64 = 2047 * 2 ^ 52 := by decide
  rw [hi] at hp
  rcases pattern_cases fmt64 pat with hlt | ⟨k, r, hr, rfl⟩
  · refine ⟨pat, 0, by unfold magUnits; rw [if_pos hlt]; simp, ?_, by omega, .inl rfl⟩
    rw [hf] at hlt
    omega
  · rw [magUnits_normal fmt64 hr]
    rw [hf] at hr hp ⊢
    exact ⟨2 ^ 52 + r, k, rfl, by omega, by omega, .inr (by omega)⟩

theorem exponent_lt {n j a b : Nat} (hn : 2 ^ a ≤ n) (h : n * 2 ^ j < 2 ^ b) : a + j < b := by
  refine (Nat.pow_lt_pow_iff_right (a := 2) (by norm_num)).1 ?_
  rw [Nat.pow_add]
  exact lt_of_le_of_lt (Nat.mul_le_mul_right _ hn) h

/-- Below 1.0 the exponent of a representable magnitude is below that of 1.0. -/
theorem Representable.significand_below_one {m : Nat} (h : Representable fmt64 m) (hlt : m < oneUnits fmt64) :
    ∃ n j, m = n * 2 ^ j ∧ n < 2 ^ 53 ∧ j ≤ 1021 := by
  obtain ⟨n, j, rfl, hn, hj, hc⟩ := h.significand
  refine ⟨n, j, rfl, hn, ?_⟩
  rcases hc with rfl | hc
  · omega
  · have h1 := exponent_lt hc hlt
    have h2 := unitExp64
    omega

/-- Below 1.0 the representable magnitudes end at the multiple of 2^-53 before it. -/
theorem Representable.below_one {m : Nat} (h : Representable fmt64 m) (hlt : m < oneUnits fmt64) :
    m ≤ (2 ^ 53 - 1) * 2 ^ 1021 := by
  obtain ⟨n, j, rfl, hn, hj⟩ := h.significand_below_one hlt
  exact Nat.mul_le_mul (by omega) (Nat.pow_le_pow_right (by norm_num) hj)

/-- 128 times a representable magnitude below 1.0 is representable. -/
theorem Representable.times128 {m : Nat} (h : Representable fmt64 m) (hlt : m < oneUnits fmt64) :
    Representable fmt64 (m * 128) := by
  obtain ⟨n, j, rfl, hn, hj⟩ := h.significand_below_one hlt
  have he : n * 2 ^ j * 128 = n * 2 ^ (j + 7) := by
    rw [Nat.pow_add, Nat.mul_assoc]
  rw [he]
  exact representable64 n (j + 7) hn.le (by omega)

/-- A result at most a representable magnitude is finite and at most it. -/
theorem val64_round64_upper (nan : F64) (neg : Bool) {num den hi : Nat} (hd : 0 < den)
    (hr : Representable fmt64 hi) (h : num ≤ hi * den) :
    ∃ m, val64 (round64 nan (.ratio neg num den)) = .fin neg m ∧ m ≤ hi ∧
      ∀ lo, Representable fmt64 lo → lo * den ≤ num → lo ≤ m := by
  obtain ⟨pat, rfl, hp⟩ := hr
  have hle : roundPattern fmt64 num den ≤ pat := roundPattern_le fmt64 hd hp.le h
  refine ⟨magUnits fmt64 (roundPattern fmt64 num den), ?_, (magUnits_le_iff fmt64).2 hle, ?_⟩
  · rw [val64_round64_ratio, if_neg (by omega)]
  · rintro lo ⟨q, rfl, hq⟩ hlo
    exact (magUnits_le_iff fmt64).2 (le_roundPattern fmt64 hd hq.le hlo)

theorem val32_round32_upper (nan : F32) (neg : Bool) {num den hi : Nat} (hd : 0 < den)
    (hr : Representable fmt32 hi) (h : num ≤ hi * den) :
    ∃ m, val32 (round32 nan (.ratio neg num den)) = .fin neg m ∧ m ≤ hi ∧
      ∀ lo, Representable fmt32 lo → lo * den ≤ num → lo ≤ m := by
  obtain ⟨pat, rfl, hp⟩ := hr
  have hle : roundPattern fmt32 num den ≤ pat := roundPattern_le fmt32 hd hp.le h
  refine ⟨magUnits fmt32 (roundPattern fmt32 num den), ?_, (magUnits_le_iff fmt32).2 hle, ?_⟩
  · rw [val32_round32_ratio, if_neg (by omega)]
  · rintro lo ⟨q, rfl, hq⟩ hlo
    exact (magUnits_le_iff fmt32).2 (le_roundPattern fmt32 hd hq.le hlo)

/-- A representable result is exact. -/
theorem val64_round64_exact (nan : F64) (neg : Bool) {m den : Nat} (hd : 0 < den)
    (hr : Representable fmt64 m) : val64 (round64 nan (.ratio neg (m * den) den)) = .fin neg m := by
  obtain ⟨k, h1, h2, h3⟩ := val64_round64_upper nan neg hd hr (Nat.le_refl _)
  rw [h1, Nat.le_antisymm h2 (h3 m hr (Nat.le_refl _))]

theorem val32_round32_exact (nan : F32) (neg : Bool) {m den : Nat} (hd : 0 < den)
    (hr : Representable fmt32 m) : val32 (round32 nan (.ratio neg (m * den) den)) = .fin neg m := by
  obtain ⟨k, h1, h2, h3⟩ := val32_round32_upper nan neg hd hr (Nat.le_refl _)
  rw [h1, Nat.le_antisymm h2 (h3 m hr (Nat.le_refl _))]

/-! ## The primitives on finite, not negative operands -/

theorem fadd64_nonneg {a b : F64} {m n hi : Nat} (ha : val64 a = .fin false m) (hb : val64 b = .fin false n)
    (hr : Representable fmt64 hi) (h : m + n ≤ hi) :
    ∃ r, val64 (fadd64 a b) = .fin false r ∧ r ≤ hi ∧ ∀ lo, Representable fmt64 lo → lo ≤ m + n → lo ≤ r := by
  unfold fadd64
  rw [ha, hb]
  have hz : addExact (.fin false m) (.fin false n) = .ratio false (m + n) 1 := by
    simp only [addExact, exactOfInt, signedUnits]
    congr 1
    · simp; omega
  rw [hz]
  obtain ⟨r, h1, h2, h3⟩ := val64_round64_upper (nan64 .add [a.toNat, b.toNat]) false Nat.one_pos hr
    (by omega : m + n ≤ hi * 1)
  exact ⟨r, h1, h2, fun lo hl hlo => h3 lo hl (by omega)⟩

theorem fsub64_nonneg {a b : F64} {m n hi : Nat} (ha : val64 a = .fin false m) (hb : val64 b = .fin false n)
    (hn : n ≤ m) (hr : Representable fmt64 hi) (h : m - n ≤ hi) :
    ∃ r, val64 (fsub64 a b) = .fin false r ∧ r ≤ hi ∧ ∀ lo, Representable fmt64 lo → lo ≤ m - n → lo ≤ r := by
  unfold fsub64
  rw [ha, hb]
  have hz : addExact (.fin false m) (negVal (.fin false n)) = .ratio false (m - n) 1 := by
    simp only [addExact, exactOfInt, signedUnits, negVal]
    congr 1
    · simp; omega
    · simp; omega
  rw [hz]
  obtain ⟨r, h1, h2, h3⟩ := val64_round64_upper (nan64 .sub [a.toNat, b.toNat]) false Nat.one_pos hr
    (by omega : m - n ≤ hi * 1)
  exact ⟨r, h1, h2, fun lo hl hlo => h3 lo hl (by omega)⟩

theorem fdiv64_nonneg {a b : F64} {m n hi : Nat} (ha : val64 a = .fin false m) (hb : val64 b = .fin false n)
    (hn : 0 < n) (hr : Representable fmt64 hi) (h : m * oneUnits fmt64 ≤ hi * n) :
    ∃ r, val64 (fdiv64 a b) = .fin false r ∧ r ≤ hi ∧
      ∀ lo, Representable fmt64 lo → lo * n ≤ m * oneUnits fmt64 → lo ≤ r := by
  unfold fdiv64
  rw [ha, hb]
  have hz : divExact (oneUnits fmt64) (.fin false m) (.fin false n) = .ratio false (m * oneUnits fmt64) n := by
    simp only [divExact]
    rw [if_neg (by omega)]; rfl
  rw [hz]
  exact val64_round64_upper (nan64 .div [a.toNat, b.toNat]) false hn hr h

theorem fmul64_nonneg {a b : F64} {m n hi : Nat} (ha : val64 a = .fin false m) (hb : val64 b = .fin false n)
    (hr : Representable fmt64 hi) (h : m * n ≤ hi * oneUnits fmt64) :
    ∃ r, val64 (fmul64 a b) = .fin false r ∧ r ≤ hi ∧
      ∀ lo, Representable fmt64 lo → lo * oneUnits fmt64 ≤ m * n → lo ≤ r := by
  unfold fmul64
  rw [ha, hb]
  exact val64_round64_upper (nan64 .mul [a.toNat, b.toNat]) false (oneUnits_pos _) hr h

/-- A whole, not negative number of ones as an exact value. -/
theorem exactOfInt_nat (n one : Nat) :
    exactOfInt false ((n : Int) * (one : Int)) 1 = .ratio false (n * one * 1) 1 := by
  have h : ¬ ((n : Int) * (one : Int) < 0) := not_lt.2 (by positivity)
  unfold exactOfInt
  rw [Int.natAbs_mul, Int.natAbs_natCast, Int.natAbs_natCast, Nat.mul_one]
  simp [h]

/-- An integer below 2^53 converts exactly. -/
theorem val64_intToF64 (n : Nat) (hn : n ≤ 2 ^ 53) :
    val64 (intToF64 (n : Int)) = .fin false (n * oneUnits fmt64) := by
  have hr : Representable fmt64 (n * oneUnits fmt64) := representable64 n (unitExp fmt64) hn (by decide)
  unfold intToF64
  rw [exactOfInt_nat]
  exact val64_round64_exact 0#64 false Nat.one_pos hr

theorem val64_u32ToF64 (n : Word) : val64 (u32ToF64 n) = .fin false (n.toNat * oneUnits fmt64) :=
  val64_intToF64 n.toNat (le_trans n.isLt.le (by norm_num))

end Sys2Proof.Machine
end

