-- ==== Sys2Proof/Laws/Dot.lean ====
section
/-! SUPPORT. The rounding error of the binary32 primitives, and what it gives for this hardware's dot product:
P-DOTCLOSE holds of it (42_dot_product_mac.md R186). -/

namespace Sys2Proof.Machine

/-! ## The error of one rounding -/

/-- The magnitude of a pattern written as an exponent and a significand that may have carried. -/
theorem magUnits_significand (f : FloatFormat) {k m : Nat} (hm : m ≤ 2 ^ (f.fracBits + 1))
    (hk : k = 0 ∨ 2 ^ f.fracBits ≤ m) : magUnits f (k * 2 ^ f.fracBits + m) = m * 2 ^ k := by
  have hp : 0 < 2 ^ f.fracBits := Nat.two_pow_pos _
  rw [Nat.pow_succ] at hm
  rcases Nat.lt_or_ge m (2 ^ f.fracBits) with h | h
  · obtain rfl : k = 0 := by omega
    unfold magUnits
    simp [h]
  · rcases Nat.eq_or_lt_of_le hm with h2 | h2
    · have e : k * 2 ^ f.fracBits + m = ((k + 1) + 1) * 2 ^ f.fracBits + 0 := by rw [h2]; ring
      rw [e, magUnits_normal f hp, h2, Nat.pow_succ]
      ring
    · have e : k * 2 ^ f.fracBits + m = (k + 1) * 2 ^ f.fracBits + (m - 2 ^ f.fracBits) := by
        rw [Nat.add_mul, Nat.one_mul]; omega
      rw [e, magUnits_normal f (by omega), Nat.add_sub_cancel' h]

/-- The rounded magnitude before the clamp, and how far it is off: half a spacing `2^k` at most, where `k` is 0 or
the value has its hidden bit at `k`. -/
theorem openPattern_error (f : FloatFormat) (num : Nat) {den : Nat} (hd : 0 < den) :
    ∃ k, 2 * num ≤ 2 * (magUnits f (openPattern f num den) * den) + den * 2 ^ k ∧
      2 * (magUnits f (openPattern f num den) * den) ≤ 2 * num + den * 2 ^ k ∧
      (k = 0 ∨ 2 ^ f.fracBits * 2 ^ k * den ≤ num) := by
  have hle := openSignificand_le f num hd
  have hge := openSignificand_ge f num hd
  set k := Nat.log2 (num / den) - f.fracBits with hk
  have hpos : 0 < den * 2 ^ k := Nat.mul_pos hd (Nat.two_pow_pos _)
  have hm : magUnits f (openPattern f num den) = divNearestEven num (den * 2 ^ k) * 2 ^ k :=
    magUnits_significand f hle (by
      rcases Nat.eq_zero_or_pos k with h | h
      · exact .inl h
      · exact .inr (hge h))
  have hu := divNearestEven_upper (n := num) hpos
  have hl := divNearestEven_lower (n := num) hpos
  refine ⟨k, by rw [hm]; nlinarith, by rw [hm]; nlinarith, ?_⟩
  rcases Nat.eq_zero_or_pos k with h | h
  · exact .inl h
  · right
    have hne : num / den ≠ 0 := by
      intro h0; rw [h0] at hk; simp [Nat.log2] at hk; omega
    have hq : 2 ^ (f.fracBits + k) ≤ num / den := by
      have h1 := Nat.log2_self_le hne
      have h2 : f.fracBits + k = Nat.log2 (num / den) := by omega
      rwa [h2]
    rw [← Nat.pow_add]
    exact (Nat.le_div_iff_mul_le hd).1 hq

/-- A fraction below half a spacing past the largest finite binary32 value does not round to infinity. -/
theorem openPattern_lt_inf {num den : Nat} (hd : 0 < den) (h : num < (2 ^ 25 - 1) * 2 ^ 252 * den) :
    openPattern fmt32 num den < infPattern fmt32 := by
  by_contra hc
  have hinf : magUnits fmt32 (infPattern fmt32) = 2 ^ 25 * 2 ^ 252 := by decide +kernel
  have hm := (magUnits_le_iff fmt32).2 (Nat.le_of_not_lt hc)
  rw [hinf] at hm
  obtain ⟨k, -, h2, h3⟩ := openPattern_error fmt32 num hd
  have hk : 2 ^ k ≤ 2 * 2 ^ 252 := by
    rw [← Nat.pow_succ']
    refine Nat.pow_le_pow_right (by norm_num) ?_
    rcases h3 with h3 | h3
    · omega
    · have h4 : 2 ^ 23 * 2 ^ k * den < 2 ^ 25 * 2 ^ 252 * den :=
        lt_of_le_of_lt h3 (lt_of_lt_of_le h
          (Nat.mul_le_mul_right _ (Nat.mul_le_mul_right _ (by norm_num))))
      have h5 := lt_of_mul_lt_mul_right h4 (Nat.zero_le _)
      rw [← Nat.pow_add, ← Nat.pow_add] at h5
      have := (Nat.pow_lt_pow_iff_right (a := 2) (by norm_num)).1 h5
      omega
  have h5 : den * 2 ^ k ≤ den * (2 * 2 ^ 252) := Nat.mul_le_mul_left _ hk
  have h6 : 2 ^ 25 * 2 ^ 252 * den ≤ magUnits fmt32 (openPattern fmt32 num den) * den := Nat.mul_le_mul_right _ hm
  rw [show 2 ^ 25 - 1 = 33554431 by norm_num] at h
  generalize 2 ^ 252 = x at *
  nlinarith

/-- The unit roundoff of binary32. -/
def roundoff32 : ℚ := 1 / 2 ^ 24

/-- One rounding to binary32 of a fraction of units below overflow: finite, off by at most the fraction itself, and
by at most the roundoff where the fraction is a whole number or at least the smallest normal magnitude. -/
theorem round32_error (nan : F32) (neg : Bool) {num den : Nat} (hd : 0 < den)
    (h : num < (2 ^ 25 - 1) * 2 ^ 252 * den) :
    ∃ m, val32 (round32 nan (.ratio neg num den)) = .fin neg m ∧
      |(m : ℚ) - num / den| ≤ num / den ∧
      ((den = 1 ∨ 2 ^ 23 * den ≤ num) → |(m : ℚ) - num / den| ≤ roundoff32 * (num / den)) := by
  have hlt := openPattern_lt_inf hd h
  have he : roundPattern fmt32 num den = openPattern fmt32 num den := by
    rw [roundPattern_eq]; exact Nat.min_eq_left hlt.le
  refine ⟨magUnits fmt32 (openPattern fmt32 num den), ?_, ?_⟩
  · rw [val32_round32_ratio, he, if_neg (by omega)]
  obtain ⟨k, h1, h2, h3⟩ := openPattern_error fmt32 num hd
  have hf : fmt32.fracBits = 23 := rfl
  rw [hf] at h3
  have hq : (0 : ℚ) < den := by exact_mod_cast hd
  have hnear : ∀ c : ℚ, 0 ≤ c → (den : ℚ) * 2 ^ k ≤ 2 * (c * num) →
      |(magUnits fmt32 (openPattern fmt32 num den) : ℚ) - num / den| ≤ c * (num / den) := by
    intro c hc hk
    have h1' : (2 : ℚ) * num ≤ 2 * (magUnits fmt32 (openPattern fmt32 num den) * den) + den * 2 ^ k := by
      exact_mod_cast h1
    have h2' : (2 : ℚ) * (magUnits fmt32 (openPattern fmt32 num den) * den) ≤ 2 * num + den * 2 ^ k := by
      exact_mod_cast h2
    generalize (magUnits fmt32 (openPattern fmt32 num den) : ℚ) = m at *
    have e1 : m - num / den = (m * den - num) / den := by field_simp
    rw [e1, abs_div, abs_of_pos hq, mul_div_assoc', div_le_div_iff_of_pos_right hq, abs_le]
    constructor <;> linarith
  have hbig : 0 < k → (den : ℚ) * 2 ^ k ≤ 2 * (roundoff32 * num) := by
    intro hk
    have h4 : ((2 ^ 23 * 2 ^ k * den : Nat) : ℚ) ≤ num := by
      exact_mod_cast h3.resolve_left (by omega)
    push_cast at h4
    unfold roundoff32
    linarith
  have hsmall : roundoff32 ≤ 1 := by unfold roundoff32; norm_num
  have hn : (0 : ℚ) ≤ num := Nat.cast_nonneg _
  constructor
  · have hone : (den : ℚ) * 2 ^ k ≤ 2 * (1 * num) ∨ magUnits fmt32 (openPattern fmt32 num den) = 0 := by
      rcases Nat.eq_zero_or_pos k with rfl | hk
      · rcases Nat.eq_zero_or_pos (magUnits fmt32 (openPattern fmt32 num den)) with h0 | h0
        · exact .inr h0
        · left
          have h5 : den ≤ magUnits fmt32 (openPattern fmt32 num den) * den := Nat.le_mul_of_pos_left _ h0
          have h6 : den ≤ 2 * num := by rw [Nat.pow_zero] at h2; omega
          have h7 : (den : ℚ) ≤ 2 * num := by exact_mod_cast h6
          simpa using h7
      · left
        have := hbig hk
        nlinarith
    rcases hone with h8 | h8
    · simpa using hnear 1 (by norm_num) h8
    · rw [h8]
      rw [Nat.cast_zero, zero_sub, abs_neg, abs_of_nonneg (div_nonneg hn hq.le)]
  · intro hc
    have hu : (0 : ℚ) ≤ roundoff32 := by unfold roundoff32; norm_num
    rcases Nat.eq_zero_or_pos k with rfl | hk
    · rcases hc with rfl | hc
      · have h9 : magUnits fmt32 (openPattern fmt32 num 1) = num := by omega
        rw [h9]
        simp only [Nat.cast_one, div_one, sub_self, abs_zero]
        positivity
      · refine hnear _ hu ?_
        have h9 : ((2 ^ 23 * den : Nat) : ℚ) ≤ num := by exact_mod_cast hc
        push_cast at h9
        unfold roundoff32
        linarith
    · exact hnear _ hu (hbig hk)

/-! ## The binary32 primitives as rational numbers -/

theorem roundoff32_nonneg : 0 ≤ roundoff32 := by unfold roundoff32; norm_num

theorem oneUnits32_pos : (0 : ℚ) < oneUnits fmt32 := by exact_mod_cast oneUnits_pos fmt32

theorem overflow32_units : overflow32 * oneUnits fmt32 = (((2 ^ 25 - 1) * 2 ^ 252 : Nat) : ℚ) := by
  rw [oneUnits32]
  unfold overflow32
  norm_num

theorem ratOf32_fin {a : F32} {neg : Bool} {m : Nat} (h : val32 a = .fin neg m) :
    ratOf32 a = (signedUnits neg m : ℚ) / oneUnits fmt32 := by
  unfold ratOf32; rw [h]

theorem signedUnits_cast (neg : Bool) (m : Nat) : (signedUnits neg m : ℚ) = (if neg then -1 else 1) * (m : ℚ) := by
  cases neg <;> simp [signedUnits]

theorem abs_sign_mul (neg : Bool) (x : ℚ) : |(if neg then -1 else 1) * x| = |x| := by
  cases neg <;> simp

/-- One rounding of an exact result, as rational numbers. -/
theorem round32_close (nan : F32) (neg : Bool) {num den : Nat} (hd : 0 < den) {x : ℚ}
    (hx : x = (if neg then -1 else 1) * ((num : ℚ) / den / oneUnits fmt32)) (h : |x| < overflow32) :
    isFinite32 (round32 nan (.ratio neg num den)) ∧
    |ratOf32 (round32 nan (.ratio neg num den)) - x| ≤ |x| ∧
    ((den = 1 ∨ 2 ^ 23 * den ≤ num) → |ratOf32 (round32 nan (.ratio neg num den)) - x| ≤ roundoff32 * |x|) := by
  have hq : (0 : ℚ) < den := by exact_mod_cast hd
  have ho := oneUnits32_pos
  have hu := overflow32_units
  have hax : |x| = (num : ℚ) / den / oneUnits fmt32 := by
    rw [hx, abs_sign_mul, abs_of_nonneg (by positivity)]
  have hlt : num < (2 ^ 25 - 1) * 2 ^ 252 * den := by
    rw [hax, div_lt_iff₀ ho, hu, div_lt_iff₀ hq] at h
    exact_mod_cast h
  obtain ⟨m, h1, h2, h3⟩ := round32_error nan neg hd hlt
  have hr : |ratOf32 (round32 nan (.ratio neg num den)) - x| = |(m : ℚ) - num / den| / oneUnits fmt32 := by
    rw [ratOf32_fin h1, signedUnits_cast, hx, ← mul_div_assoc', ← mul_sub, abs_sign_mul, ← sub_div, abs_div,
      abs_of_pos ho]
  refine ⟨⟨neg, m, h1⟩, ?_, fun hc => ?_⟩
  · rw [hr, hax]
    exact div_le_div_of_nonneg_right h2 ho.le
  · rw [hr, hax, mul_div_assoc']
    exact div_le_div_of_nonneg_right (h3 hc) ho.le

/-- A product below overflow: finite, off by at most itself, and by at most the roundoff unless it is subnormal. -/
theorem fmul32_close {a b : F32} (ha : isFinite32 a) (hb : isFinite32 b)
    (h : |ratOf32 a * ratOf32 b| < overflow32) :
    isFinite32 (fmul32 a b) ∧ |ratOf32 (fmul32 a b) - ratOf32 a * ratOf32 b| ≤ |ratOf32 a * ratOf32 b| ∧
    (1 / 2 ^ 126 ≤ |ratOf32 a * ratOf32 b| →
      |ratOf32 (fmul32 a b) - ratOf32 a * ratOf32 b| ≤ roundoff32 * |ratOf32 a * ratOf32 b|) := by
  obtain ⟨s, m, hm⟩ := ha
  obtain ⟨t, n, hn⟩ := hb
  have ho := oneUnits32_pos
  have hx : ratOf32 a * ratOf32 b =
      (if (s ^^ t) then -1 else 1) * (((m * n : Nat) : ℚ) / oneUnits fmt32 / oneUnits fmt32) := by
    rw [ratOf32_fin hm, ratOf32_fin hn, signedUnits_cast, signedUnits_cast]
    push_cast
    cases s <;> cases t <;> simp <;> field_simp
  have hc := round32_close (nan32 .mul [a.toNat, b.toNat]) (s ^^ t) (oneUnits_pos fmt32) hx h
  have hf : fmul32 a b = round32 (nan32 .mul [a.toNat, b.toNat]) (.ratio (s ^^ t) (m * n) (oneUnits fmt32)) := by
    unfold fmul32
    rw [hm, hn]
    rfl
  rw [hf]
  refine ⟨hc.1, hc.2.1, fun hbig => hc.2.2 (.inr ?_)⟩
  rw [hx, abs_sign_mul, abs_of_nonneg (by positivity), le_div_iff₀ ho, le_div_iff₀ ho] at hbig
  have h149 : (oneUnits fmt32 : ℚ) = 2 ^ 149 := by rw [oneUnits32]; norm_num
  have h23 : (1 : ℚ) / 2 ^ 126 * oneUnits fmt32 = 2 ^ 23 := by rw [h149]; norm_num
  rw [h23] at hbig
  exact_mod_cast hbig

/-- A sum below overflow: finite, and off by at most the roundoff (a subnormal sum is exact). -/
theorem fadd32_close {a b : F32} (ha : isFinite32 a) (hb : isFinite32 b)
    (h : |ratOf32 a + ratOf32 b| < overflow32) :
    isFinite32 (fadd32 a b) ∧
    |ratOf32 (fadd32 a b) - (ratOf32 a + ratOf32 b)| ≤ roundoff32 * |ratOf32 a + ratOf32 b| := by
  obtain ⟨s, m, hm⟩ := ha
  obtain ⟨t, n, hn⟩ := hb
  set z := signedUnits s m + signedUnits t n with hz
  set neg := if z = 0 then (s && t) else decide (z < 0) with hneg
  have hx : ratOf32 a + ratOf32 b =
      (if neg then -1 else 1) * (((z.natAbs : Nat) : ℚ) / ((1 : Nat) : ℚ) / oneUnits fmt32) := by
    have hzc : (z : ℚ) = (if neg then -1 else 1) * ((z.natAbs : Nat) : ℚ) := by
      by_cases h0 : z = 0
      · rw [h0]; simp
      · rw [hneg, if_neg h0]
        by_cases h1 : z < 0
        · have h2 : ((z.natAbs : Nat) : Int) = -z := by omega
          have h3 : ((z.natAbs : Nat) : ℚ) = -(z : ℚ) := by
            rw [← Int.cast_natCast (z.natAbs), h2, Int.cast_neg]
          rw [h3]; simp [h1]
        · have h2 : ((z.natAbs : Nat) : Int) = z := by omega
          have h3 : ((z.natAbs : Nat) : ℚ) = (z : ℚ) := by
            rw [← Int.cast_natCast (z.natAbs), h2]
          rw [h3]; simp [h1]
    rw [ratOf32_fin hm, ratOf32_fin hn, ← add_div, Nat.cast_one, div_one, mul_div_assoc', ← hzc, hz]
    push_cast
    rfl
  have hc := round32_close (nan32 .add [a.toNat, b.toNat]) neg Nat.one_pos hx h
  have hf : fadd32 a b = round32 (nan32 .add [a.toNat, b.toNat]) (.ratio neg z.natAbs 1) := by
    unfold fadd32
    rw [hm, hn]
    rfl
  rw [hf]
  exact ⟨hc.1, hc.2.2 (.inl rfl)⟩

/-- Adding to `+0.0` is exact. -/
theorem fadd32_zero {r : F32} (hr : isFinite32 r) :
    isFinite32 (fadd32 0x00000000#32 r) ∧ ratOf32 (fadd32 0x00000000#32 r) = ratOf32 r := by
  obtain ⟨t, n, hn⟩ := hr
  have h0 : val32 0x00000000#32 = .fin false 0 := by decide
  have hv : ∃ neg, val32 (fadd32 0x00000000#32 r) = .fin neg n ∧ (n = 0 ∨ neg = t) := by
    have he : addExact (.fin false 0) (.fin t n) = .ratio (if n = 0 then false else t) (n * 1) 1 := by
      cases t <;> simp [addExact, exactOfInt, signedUnits]
      omega
    refine ⟨if n = 0 then false else t, ?_, ?_⟩
    · unfold fadd32
      rw [h0, hn, he]
      exact val32_round32_exact _ _ Nat.one_pos (representable_of_val32 hn)
    · by_cases h : n = 0 <;> simp [h]
  obtain ⟨neg, h1, h2⟩ := hv
  refine ⟨⟨neg, n, h1⟩, ?_⟩
  rw [ratOf32_fin h1, ratOf32_fin hn]
  rcases h2 with rfl | rfl
  · cases neg <;> cases t <;> simp [signedUnits]
  · rfl

/-! ## The scalar datapath -/

/-- The exact product of a pair of operands. -/
def pairProduct (ch : F32 × F32) : ℚ := ratOf32 ch.1 * ratOf32 ch.2

/-- Accumulation of a list of pairs (R182). -/
def accumulate (pairs : List (F32 × F32)) : F32 :=
  pairs.foldl (fun acc ch => fadd32 acc (fmul32 ch.1 ch.2)) 0x00000000#32

theorem absSum_append (a b : List ℚ) : absSum (a ++ b) = absSum a + absSum b := by
  simp [absSum]

theorem absSum_singleton (x : ℚ) : absSum [x] = |x| := by simp [absSum]

theorem abs_sum_le_absSum (l : List ℚ) : |l.sum| ≤ absSum l := by
  induction l with
  | nil => simp [absSum]
  | cons x l ih =>
    have h : absSum (x :: l) = |x| + absSum l := by simp [absSum]
    rw [List.sum_cons, h]
    exact le_trans (abs_add_le _ _) (by linarith)

theorem absSum_nonneg (l : List ℚ) : 0 ≤ absSum l := le_trans (abs_nonneg _) (abs_sum_le_absSum l)

/-- The unrounded sum of an accumulator and a product, both with their errors. -/
theorem sum_error {S A p a r c e : ℚ} (ha : |a - S| ≤ c * A) (hr : |r - p| ≤ e * |p|) :
    |a + r - (S + p)| ≤ c * A + e * |p| := by
  have h : a + r - (S + p) = (a - S) + (r - p) := by ring
  rw [h]
  exact le_trans (abs_add_le _ _) (add_le_add ha hr)

/-- How the errors of the accumulator, the product and the sum add up. -/
theorem step_error {S A p a r y c e u : ℚ} (hu : 0 ≤ u) (hec : e ≤ c) (hS : |S| ≤ A)
    (h : |a + r - (S + p)| ≤ c * A + e * |p|) (hy : |y - (a + r)| ≤ u * |a + r|) :
    |y - (S + p)| ≤ ((1 + c) * (1 + u) - 1) * (A + |p|) := by
  have h1 : |S + p| ≤ A + |p| := le_trans (abs_add_le _ _) (by linarith)
  have h2 : |a + r| ≤ |a + r - (S + p)| + |S + p| := by
    have h3 : a + r = (a + r - (S + p)) + (S + p) := by ring
    calc |a + r| = |(a + r - (S + p)) + (S + p)| := by rw [← h3]
      _ ≤ _ := abs_add_le _ _
  have h4 : u * |a + r| ≤ u * (c * A + e * |p| + (A + |p|)) := mul_le_mul_of_nonneg_left (by linarith) hu
  have h5 : |y - (S + p)| ≤ |y - (a + r)| + |a + r - (S + p)| := abs_sub_le _ _ _
  have h6 : 0 ≤ (c - e) * |p| * (1 + u) :=
    mul_nonneg (mul_nonneg (by linarith) (abs_nonneg p)) (by linarith)
  have h7 : c * A + e * |p| + u * (c * A + e * |p| + (A + |p|)) + (c - e) * |p| * (1 + u) =
      ((1 + c) * (1 + u) - 1) * (A + |p|) := by ring
  linarith

/-- One more tap: the error grows by the roundoff of the sum. `e` bounds the relative error of the product. -/
theorem accumulate_step {tol c e : ℚ} {products : List ℚ} {acc : F32} {ch : F32 × F32}
    (hacc : DotWithin c products acc) (h1 : isFinite32 ch.1) (h2 : isFinite32 ch.2)
    (hno : NoOverflow tol (products ++ [pairProduct ch])) (he : 0 ≤ e) (hec : e ≤ c) (hct : c ≤ tol)
    (hp : |ratOf32 (fmul32 ch.1 ch.2) - pairProduct ch| ≤ e * |pairProduct ch|) :
    DotWithin ((1 + c) * (1 + roundoff32) - 1) (products ++ [pairProduct ch])
      (fadd32 acc (fmul32 ch.1 ch.2)) := by
  have hpn := abs_nonneg (pairProduct ch)
  have hone := hno [pairProduct ch] (List.sublist_append_right _ _)
  have hall := hno _ (List.Sublist.refl _)
  rw [absSum_append, absSum_singleton, List.sum_append, List.sum_singleton] at hall
  rw [absSum_singleton, List.sum_singleton] at hone
  have htp : e * |pairProduct ch| ≤ tol * |pairProduct ch| := mul_le_mul_of_nonneg_right (by linarith) hpn
  have hep : 0 ≤ e * |pairProduct ch| := mul_nonneg he hpn
  have hmul := fmul32_close h1 h2 (show |pairProduct ch| < overflow32 by linarith)
  have htA : c * absSum products ≤ tol * absSum products :=
    mul_le_mul_of_nonneg_right hct (absSum_nonneg products)
  have herr := sum_error hacc.2 hp
  have hadd := fadd32_close hacc.1 hmul.1 (by
    have h3 := abs_sub_abs_le_abs_sub (ratOf32 acc + ratOf32 (fmul32 ch.1 ch.2)) (products.sum + pairProduct ch)
    linarith)
  refine ⟨hadd.1, ?_⟩
  rw [absSum_append, absSum_singleton, List.sum_append, List.sum_singleton]
  exact step_error roundoff32_nonneg hec (abs_sum_le_absSum products) herr hadd.2

/-- The error of an accumulation: one rounding of each product and one of each sum but the first, which is
exact. -/
theorem accumulate_within {tol e : ℚ} (he : roundoff32 ≤ e) (first : F32 × F32) (pairs : List (F32 × F32))
    (hfin : ∀ ch ∈ first :: pairs, isFinite32 ch.1 ∧ isFinite32 ch.2)
    (hno : NoOverflow tol ((first :: pairs).map pairProduct))
    (hp : ∀ ch ∈ first :: pairs, |ratOf32 (fmul32 ch.1 ch.2) - pairProduct ch| ≤ e * |pairProduct ch|)
    (ht : (1 + e) * (1 + roundoff32) ^ pairs.length - 1 ≤ tol) :
    DotWithin ((1 + e) * (1 + roundoff32) ^ pairs.length - 1) ((first :: pairs).map pairProduct)
      (accumulate (first :: pairs)) := by
  have hu := roundoff32_nonneg
  induction pairs using List.reverseRecOn with
  | nil =>
    simp only [List.length_nil, pow_zero, mul_one, add_sub_cancel_left] at ht ⊢
    simp only [List.map_cons, List.map_nil] at hno ⊢
    have hone := hno _ (List.Sublist.refl _)
    rw [absSum_singleton, List.sum_singleton] at hone
    have h1 := hfin first List.mem_cons_self
    have hmul := fmul32_close h1.1 h1.2 (by
      change |pairProduct first| < overflow32
      have : 0 ≤ tol * |pairProduct first| := mul_nonneg (by linarith) (abs_nonneg _)
      linarith)
    have hz := fadd32_zero hmul.1
    refine ⟨hz.1, ?_⟩
    rw [absSum_singleton, List.sum_singleton]
    change |ratOf32 (fadd32 0x00000000#32 (fmul32 first.1 first.2)) - _| ≤ _
    rw [hz.2]
    exact hp first List.mem_cons_self
  | append_singleton l ch ih =>
    have hmem : ∀ c ∈ first :: l, c ∈ first :: (l ++ [ch]) := by
      intro c hc
      rw [← List.cons_append]
      exact List.mem_append_left _ hc
    have hlast : ch ∈ first :: (l ++ [ch]) := by simp
    have hpow : (1 + e) * (1 + roundoff32) ^ (l ++ [ch]).length - 1 =
        (1 + ((1 + e) * (1 + roundoff32) ^ l.length - 1)) * (1 + roundoff32) - 1 := by
      rw [List.length_append, List.length_singleton, pow_succ]; ring
    have hge : (1 : ℚ) ≤ (1 + roundoff32) ^ l.length := one_le_pow₀ (by linarith)
    have hec : e ≤ (1 + e) * (1 + roundoff32) ^ l.length - 1 := by nlinarith
    have hle : (1 + e) * (1 + roundoff32) ^ l.length - 1 ≤ tol := by
      refine le_trans ?_ ht
      rw [hpow]
      nlinarith
    have hmap : (first :: (l ++ [ch])).map pairProduct = (first :: l).map pairProduct ++ [pairProduct ch] := by
      simp
    have hacc : accumulate (first :: (l ++ [ch])) =
        fadd32 (accumulate (first :: l)) (fmul32 ch.1 ch.2) := by
      unfold accumulate
      rw [← List.cons_append, List.foldl_append]
      rfl
    rw [hmap] at hno ⊢
    rw [hacc, hpow]
    refine accumulate_step ?_ (hfin ch hlast).1 (hfin ch hlast).2 hno (by linarith) hec hle (hp ch hlast)
    exact ih (fun c hc => hfin c (hmem c hc))
      (fun part hs => hno part (hs.trans (List.sublist_append_left _ _)))
      (fun c hc => hp c (hmem c hc)) hle

/-- The pairs of a dot product's operands. -/
theorem zip_finite {coef hist : Row} (h : ∀ (i : Nat) (h : i < 16), isFinite32 coef[i] ∧ isFinite32 hist[i]) :
    ∀ ch ∈ List.zip coef.toList hist.toList, isFinite32 ch.1 ∧ isFinite32 ch.2 := by
  intro ch hc
  obtain ⟨i, hi, rfl⟩ := List.mem_iff_getElem.1 hc
  have hl : i < 16 := by simpa using hi
  simpa using h i hl

/-- This hardware's dot product under the error `e` of its products. -/
theorem dotScalar_within {tol e : ℚ} (he : roundoff32 ≤ e) {coef hist : Row}
    (hfin : ∀ (i : Nat) (h : i < 16), isFinite32 coef[i] ∧ isFinite32 hist[i])
    (hno : NoOverflow tol (exactProducts coef hist))
    (hp : ∀ ch ∈ List.zip coef.toList hist.toList,
      |ratOf32 (fmul32 ch.1 ch.2) - pairProduct ch| ≤ e * |pairProduct ch|)
    (ht : (1 + e) * (1 + roundoff32) ^ 15 - 1 ≤ tol) :
    DotWithin tol (exactProducts coef hist) (dotScalar coef hist) := by
  have hz := zip_finite hfin
  have hlen : (List.zip coef.toList hist.toList).length = 16 := by simp
  unfold exactProducts at hno ⊢
  unfold dotScalar
  generalize List.zip coef.toList hist.toList = pairs at *
  cases pairs with
  | nil => simp at hlen
  | cons first pairs =>
    have h15 : pairs.length = 15 := by simpa using hlen
    have h := accumulate_within he first pairs hz hno hp (by rw [h15]; exact ht)
    rw [h15] at h
    exact ⟨h.1, le_trans h.2 (mul_le_mul_of_nonneg_right ht (absSum_nonneg _))⟩

/-- A product of two taps that does not overflow, from the premise. -/
theorem NoOverflow.product {tol : ℚ} (ht : 0 ≤ tol) {pairs : List (F32 × F32)}
    (h : NoOverflow tol (pairs.map pairProduct)) {ch : F32 × F32} (hc : ch ∈ pairs) :
    |pairProduct ch| < overflow32 := by
  have h1 := h [pairProduct ch] (List.singleton_sublist.2 (List.mem_map_of_mem hc))
  rw [absSum_singleton, List.sum_singleton] at h1
  have : 0 ≤ tol * |pairProduct ch| := mul_nonneg ht (abs_nonneg _)
  linarith

/-- R186: P-DOTCLOSE holds of this hardware's datapath, subnormal products included, with tolerance 2. -/
theorem pDotClose_dotScalar : PDotClose 2 dotScalar := by
  intro coef hist hfin hno
  have hu := roundoff32_nonneg
  refine dotScalar_within (e := 1) (by unfold roundoff32; norm_num) hfin hno ?_ (by unfold roundoff32; norm_num)
  intro ch hc
  have hf := zip_finite hfin ch hc
  rw [one_mul]
  exact (fmul32_close hf.1 hf.2 (NoOverflow.product (by norm_num) hno hc)).2.1

/-- R186: the classical bound, where no product is subnormal. -/
theorem dotScalar_classical {coef hist : Row}
    (hfin : ∀ (i : Nat) (h : i < 16), isFinite32 coef[i] ∧ isFinite32 hist[i])
    (hno : NoOverflow (16 * roundoff32 / (1 - 16 * roundoff32)) (exactProducts coef hist))
    (hnormal : ∀ x ∈ exactProducts coef hist, x = 0 ∨ 1 / 2 ^ 126 ≤ |x|) :
    DotWithin (16 * roundoff32 / (1 - 16 * roundoff32)) (exactProducts coef hist) (dotScalar coef hist) := by
  have hu := roundoff32_nonneg
  have htol : (0 : ℚ) ≤ 16 * roundoff32 / (1 - 16 * roundoff32) := by unfold roundoff32; norm_num
  refine dotScalar_within (le_refl roundoff32) hfin hno ?_ (by unfold roundoff32; norm_num)
  intro ch hc
  have hf := zip_finite hfin ch hc
  have hm := fmul32_close hf.1 hf.2 (NoOverflow.product htol hno hc)
  rcases hnormal (pairProduct ch) (List.mem_map_of_mem hc) with h0 | h0
  · have h1 := hm.2.1
    change |ratOf32 (fmul32 ch.1 ch.2) - pairProduct ch| ≤ |pairProduct ch| at h1
    rw [h0] at h1 ⊢
    simpa using h1
  · exact hm.2.2 h0

end Sys2Proof.Machine
end

