-- ==== Sys2Proof/Laws/State.lean ====
section
/-! SUPPORT. The fields of a state after each named update: one lemma per field per update, so that no proof
unfolds a record. -/

namespace Sys2Proof.Machine

/-! ## `respondWith` -/

@[simp] theorem respondWith_inRate (e : TraceEntry) (s : State) : (respondWith e s).inRate = s.inRate := rfl
@[simp] theorem respondWith_outRate (e : TraceEntry) (s : State) : (respondWith e s).outRate = s.outRate := rfl
@[simp] theorem respondWith_configured (e : TraceEntry) (s : State) :
    (respondWith e s).configured = s.configured := rfl
@[simp] theorem respondWith_rs (e : TraceEntry) (s : State) : (respondWith e s).rs = s.rs := rfl
@[simp] theorem respondWith_inq (e : TraceEntry) (s : State) : (respondWith e s).inq = s.inq := rfl
@[simp] theorem respondWith_outq (e : TraceEntry) (s : State) : (respondWith e s).outq = s.outq := rfl
@[simp] theorem respondWith_seq (e : TraceEntry) (s : State) : (respondWith e s).seq = s.seq := rfl
@[simp] theorem respondWith_cur (e : TraceEntry) (s : State) : (respondWith e s).cur = s.cur := rfl
@[simp] theorem respondWith_port (e : TraceEntry) (s : State) : (respondWith e s).port = none := rfl
@[simp] theorem respondWith_program (e : TraceEntry) (s : State) : (respondWith e s).program = s.program := rfl
@[simp] theorem respondWith_trace (e : TraceEntry) (s : State) :
    (respondWith e s).trace = s.trace ++ [e] := rfl
@[simp] theorem respondWith_schedule (e : TraceEntry) (s : State) :
    (respondWith e s).schedule = s.schedule := rfl
@[simp] theorem respondWith_tick (e : TraceEntry) (s : State) : (respondWith e s).tick = s.tick := rfl
@[simp] theorem respondWith_params (e : TraceEntry) (s : State) : (respondWith e s).params = s.params := rfl

/-! ## `hold` -/

@[simp] theorem hold_inRate (s : State) : (hold s).inRate = s.inRate := rfl
@[simp] theorem hold_outRate (s : State) : (hold s).outRate = s.outRate := rfl
@[simp] theorem hold_configured (s : State) : (hold s).configured = s.configured := rfl
@[simp] theorem hold_rs (s : State) : (hold s).rs = s.rs := rfl
@[simp] theorem hold_inq (s : State) : (hold s).inq = s.inq := rfl
@[simp] theorem hold_outq (s : State) : (hold s).outq = s.outq := rfl
@[simp] theorem hold_seq (s : State) : (hold s).seq = s.seq := rfl
@[simp] theorem hold_cur (s : State) : (hold s).cur = s.cur := rfl
@[simp] theorem hold_port (s : State) : (hold s).port = s.port := rfl
@[simp] theorem hold_program (s : State) : (hold s).program = s.program := rfl
@[simp] theorem hold_trace (s : State) : (hold s).trace = s.trace := rfl
@[simp] theorem hold_schedule (s : State) : (hold s).schedule = s.schedule := rfl
@[simp] theorem hold_tick (s : State) : (hold s).tick = s.tick := rfl
@[simp] theorem hold_params (s : State) : (hold s).params = s.params := rfl

/-! ## `consumeTurn` -/

@[simp] theorem consumeTurn_inRate (s : State) : (consumeTurn s).inRate = s.inRate := rfl
@[simp] theorem consumeTurn_outRate (s : State) : (consumeTurn s).outRate = s.outRate := rfl
@[simp] theorem consumeTurn_configured (s : State) : (consumeTurn s).configured = s.configured := rfl
@[simp] theorem consumeTurn_rs (s : State) : (consumeTurn s).rs = s.rs := rfl
@[simp] theorem consumeTurn_inq (s : State) : (consumeTurn s).inq = s.inq := rfl
@[simp] theorem consumeTurn_outq (s : State) : (consumeTurn s).outq = s.outq := rfl
@[simp] theorem consumeTurn_seq (s : State) : (consumeTurn s).seq = s.seq := rfl
@[simp] theorem consumeTurn_cur (s : State) : (consumeTurn s).cur = s.cur := rfl
@[simp] theorem consumeTurn_port (s : State) : (consumeTurn s).port = s.port := rfl
@[simp] theorem consumeTurn_program (s : State) : (consumeTurn s).program = s.program := rfl
@[simp] theorem consumeTurn_trace (s : State) : (consumeTurn s).trace = s.trace := rfl
@[simp] theorem consumeTurn_schedule (s : State) : (consumeTurn s).schedule = (upcoming s).tail := rfl
@[simp] theorem consumeTurn_tick (s : State) : (consumeTurn s).tick = s.tick + 1 := rfl
@[simp] theorem consumeTurn_params (s : State) : (consumeTurn s).params = s.params := rfl

/-! ## `issue` -/

@[simp] theorem issue_inRate (w : Bus48) (rest : List Bus48) (s : State) :
    (issue w rest s).inRate = s.inRate := rfl
@[simp] theorem issue_outRate (w : Bus48) (rest : List Bus48) (s : State) :
    (issue w rest s).outRate = s.outRate := rfl
@[simp] theorem issue_configured (w : Bus48) (rest : List Bus48) (s : State) :
    (issue w rest s).configured = s.configured := rfl
@[simp] theorem issue_rs (w : Bus48) (rest : List Bus48) (s : State) : (issue w rest s).rs = s.rs := rfl
@[simp] theorem issue_inq (w : Bus48) (rest : List Bus48) (s : State) : (issue w rest s).inq = s.inq := rfl
@[simp] theorem issue_outq (w : Bus48) (rest : List Bus48) (s : State) : (issue w rest s).outq = s.outq := rfl
@[simp] theorem issue_seq (w : Bus48) (rest : List Bus48) (s : State) : (issue w rest s).seq = s.seq := rfl
@[simp] theorem issue_cur (w : Bus48) (rest : List Bus48) (s : State) : (issue w rest s).cur = s.cur := rfl
@[simp] theorem issue_port (w : Bus48) (rest : List Bus48) (s : State) : (issue w rest s).port = some w := rfl
@[simp] theorem issue_program (w : Bus48) (rest : List Bus48) (s : State) :
    (issue w rest s).program = rest := rfl
@[simp] theorem issue_trace (w : Bus48) (rest : List Bus48) (s : State) :
    (issue w rest s).trace = s.trace := rfl
@[simp] theorem issue_schedule (w : Bus48) (rest : List Bus48) (s : State) :
    (issue w rest s).schedule = s.schedule := rfl
@[simp] theorem issue_tick (w : Bus48) (rest : List Bus48) (s : State) : (issue w rest s).tick = s.tick := rfl
@[simp] theorem issue_params (w : Bus48) (rest : List Bus48) (s : State) :
    (issue w rest s).params = s.params := rfl

/-! ## `placeWord` -/

@[simp] theorem placeWord_inRate (w : Bus48) (s : State) : (placeWord w s).inRate = s.inRate := rfl
@[simp] theorem placeWord_outRate (w : Bus48) (s : State) : (placeWord w s).outRate = s.outRate := rfl
@[simp] theorem placeWord_configured (w : Bus48) (s : State) : (placeWord w s).configured = s.configured := rfl
@[simp] theorem placeWord_rs (w : Bus48) (s : State) : (placeWord w s).rs = s.rs := rfl
@[simp] theorem placeWord_inq (w : Bus48) (s : State) : (placeWord w s).inq = s.inq := rfl
@[simp] theorem placeWord_outq (w : Bus48) (s : State) : (placeWord w s).outq = s.outq := rfl
@[simp] theorem placeWord_seq (w : Bus48) (s : State) : (placeWord w s).seq = s.seq := rfl
@[simp] theorem placeWord_cur (w : Bus48) (s : State) : (placeWord w s).cur = s.cur := rfl
@[simp] theorem placeWord_port (w : Bus48) (s : State) : (placeWord w s).port = some w := rfl
@[simp] theorem placeWord_program (w : Bus48) (s : State) : (placeWord w s).program = s.program := rfl
@[simp] theorem placeWord_trace (w : Bus48) (s : State) : (placeWord w s).trace = s.trace := rfl
@[simp] theorem placeWord_schedule (w : Bus48) (s : State) :
    (placeWord w s).schedule = .host :: s.schedule := rfl
@[simp] theorem placeWord_tick (w : Bus48) (s : State) : (placeWord w s).tick = s.tick := rfl
@[simp] theorem placeWord_params (w : Bus48) (s : State) : (placeWord w s).params = s.params := rfl

/-! ## `loadProgram` -/

@[simp] theorem loadProgram_inRate (p : List Bus48) (q : List Event) (s : State) :
    (loadProgram p q s).inRate = s.inRate := rfl
@[simp] theorem loadProgram_outRate (p : List Bus48) (q : List Event) (s : State) :
    (loadProgram p q s).outRate = s.outRate := rfl
@[simp] theorem loadProgram_configured (p : List Bus48) (q : List Event) (s : State) :
    (loadProgram p q s).configured = s.configured := rfl
@[simp] theorem loadProgram_rs (p : List Bus48) (q : List Event) (s : State) :
    (loadProgram p q s).rs = s.rs := rfl
@[simp] theorem loadProgram_inq (p : List Bus48) (q : List Event) (s : State) :
    (loadProgram p q s).inq = s.inq := rfl
@[simp] theorem loadProgram_outq (p : List Bus48) (q : List Event) (s : State) :
    (loadProgram p q s).outq = s.outq := rfl
@[simp] theorem loadProgram_seq (p : List Bus48) (q : List Event) (s : State) :
    (loadProgram p q s).seq = s.seq := rfl
@[simp] theorem loadProgram_cur (p : List Bus48) (q : List Event) (s : State) :
    (loadProgram p q s).cur = s.cur := rfl
@[simp] theorem loadProgram_port (p : List Bus48) (q : List Event) (s : State) :
    (loadProgram p q s).port = s.port := rfl
@[simp] theorem loadProgram_program (p : List Bus48) (q : List Event) (s : State) :
    (loadProgram p q s).program = p := rfl
@[simp] theorem loadProgram_trace (p : List Bus48) (q : List Event) (s : State) :
    (loadProgram p q s).trace = s.trace := rfl
@[simp] theorem loadProgram_schedule (p : List Bus48) (q : List Event) (s : State) :
    (loadProgram p q s).schedule = q := rfl
@[simp] theorem loadProgram_tick (p : List Bus48) (q : List Event) (s : State) :
    (loadProgram p q s).tick = s.tick := rfl
@[simp] theorem loadProgram_params (p : List Bus48) (q : List Event) (s : State) :
    (loadProgram p q s).params = s.params := rfl

/-! ## `ePop` -/

@[simp] theorem ePop_inRate (x : Sample) (rest : List Sample) (s : State) :
    (ePop x rest s).inRate = s.inRate := rfl
@[simp] theorem ePop_outRate (x : Sample) (rest : List Sample) (s : State) :
    (ePop x rest s).outRate = s.outRate := rfl
@[simp] theorem ePop_configured (x : Sample) (rest : List Sample) (s : State) :
    (ePop x rest s).configured = s.configured := rfl
@[simp] theorem ePop_rs (x : Sample) (rest : List Sample) (s : State) : (ePop x rest s).rs = s.rs := rfl
@[simp] theorem ePop_inq (x : Sample) (rest : List Sample) (s : State) : (ePop x rest s).inq = rest := rfl
@[simp] theorem ePop_outq (x : Sample) (rest : List Sample) (s : State) : (ePop x rest s).outq = s.outq := rfl
@[simp] theorem ePop_seq (x : Sample) (rest : List Sample) (s : State) :
    (ePop x rest s).seq = if ratesEqual s.rs then .pass else .shift := rfl
@[simp] theorem ePop_cur (x : Sample) (rest : List Sample) (s : State) : (ePop x rest s).cur = x := rfl
@[simp] theorem ePop_port (x : Sample) (rest : List Sample) (s : State) : (ePop x rest s).port = s.port := rfl
@[simp] theorem ePop_program (x : Sample) (rest : List Sample) (s : State) :
    (ePop x rest s).program = s.program := rfl
@[simp] theorem ePop_trace (x : Sample) (rest : List Sample) (s : State) :
    (ePop x rest s).trace = s.trace := rfl
@[simp] theorem ePop_schedule (x : Sample) (rest : List Sample) (s : State) :
    (ePop x rest s).schedule = s.schedule := rfl
@[simp] theorem ePop_tick (x : Sample) (rest : List Sample) (s : State) : (ePop x rest s).tick = s.tick := rfl
@[simp] theorem ePop_params (x : Sample) (rest : List Sample) (s : State) :
    (ePop x rest s).params = s.params := rfl

/-! ## `ePass` -/

@[simp] theorem ePass_inRate (s : State) : (ePass s).inRate = s.inRate := rfl
@[simp] theorem ePass_outRate (s : State) : (ePass s).outRate = s.outRate := rfl
@[simp] theorem ePass_configured (s : State) : (ePass s).configured = s.configured := rfl
@[simp] theorem ePass_rs (s : State) : (ePass s).rs = s.rs := rfl
@[simp] theorem ePass_inq (s : State) : (ePass s).inq = s.inq := rfl
@[simp] theorem ePass_outq (s : State) : (ePass s).outq = pushBack s.outq s.cur := rfl
@[simp] theorem ePass_seq (s : State) : (ePass s).seq = .idle := rfl
@[simp] theorem ePass_cur (s : State) : (ePass s).cur = s.cur := rfl
@[simp] theorem ePass_port (s : State) : (ePass s).port = s.port := rfl
@[simp] theorem ePass_program (s : State) : (ePass s).program = s.program := rfl
@[simp] theorem ePass_trace (s : State) : (ePass s).trace = s.trace := rfl
@[simp] theorem ePass_schedule (s : State) : (ePass s).schedule = s.schedule := rfl
@[simp] theorem ePass_tick (s : State) : (ePass s).tick = s.tick := rfl
@[simp] theorem ePass_params (s : State) : (ePass s).params = s.params := rfl

/-! ## `eShift` -/

@[simp] theorem eShift_inRate (s : State) : (eShift s).inRate = s.inRate := rfl
@[simp] theorem eShift_outRate (s : State) : (eShift s).outRate = s.outRate := rfl
@[simp] theorem eShift_configured (s : State) : (eShift s).configured = s.configured := rfl
@[simp] theorem eShift_rs (s : State) :
    (eShift s).rs = { s.rs with history := shiftHistory s.rs.history (i16ToF32 s.cur) } := rfl
@[simp] theorem eShift_inq (s : State) : (eShift s).inq = s.inq := rfl
@[simp] theorem eShift_outq (s : State) : (eShift s).outq = s.outq := rfl
@[simp] theorem eShift_seq (s : State) : (eShift s).seq = .test := rfl
@[simp] theorem eShift_cur (s : State) : (eShift s).cur = s.cur := rfl
@[simp] theorem eShift_port (s : State) : (eShift s).port = s.port := rfl
@[simp] theorem eShift_program (s : State) : (eShift s).program = s.program := rfl
@[simp] theorem eShift_trace (s : State) : (eShift s).trace = s.trace := rfl
@[simp] theorem eShift_schedule (s : State) : (eShift s).schedule = s.schedule := rfl
@[simp] theorem eShift_tick (s : State) : (eShift s).tick = s.tick := rfl
@[simp] theorem eShift_params (s : State) : (eShift s).params = s.params := rfl

/-! ## `eTest` -/

@[simp] theorem eTest_inRate (s : State) : (eTest s).inRate = s.inRate := rfl
@[simp] theorem eTest_outRate (s : State) : (eTest s).outRate = s.outRate := rfl
@[simp] theorem eTest_configured (s : State) : (eTest s).configured = s.configured := rfl
@[simp] theorem eTest_rs (s : State) : (eTest s).rs = s.rs := rfl
@[simp] theorem eTest_inq (s : State) : (eTest s).inq = s.inq := rfl
@[simp] theorem eTest_outq (s : State) : (eTest s).outq = s.outq := rfl
@[simp] theorem eTest_seq (s : State) :
    (eTest s).seq = if moreOutputs s.rs.position then .emit else .renorm := rfl
@[simp] theorem eTest_cur (s : State) : (eTest s).cur = s.cur := rfl
@[simp] theorem eTest_port (s : State) : (eTest s).port = s.port := rfl
@[simp] theorem eTest_program (s : State) : (eTest s).program = s.program := rfl
@[simp] theorem eTest_trace (s : State) : (eTest s).trace = s.trace := rfl
@[simp] theorem eTest_schedule (s : State) : (eTest s).schedule = s.schedule := rfl
@[simp] theorem eTest_tick (s : State) : (eTest s).tick = s.tick := rfl
@[simp] theorem eTest_params (s : State) : (eTest s).params = s.params := rfl

/-! ## `eRenorm` -/

@[simp] theorem eRenorm_inRate (s : State) : (eRenorm s).inRate = s.inRate := rfl
@[simp] theorem eRenorm_outRate (s : State) : (eRenorm s).outRate = s.outRate := rfl
@[simp] theorem eRenorm_configured (s : State) : (eRenorm s).configured = s.configured := rfl
@[simp] theorem eRenorm_rs (s : State) :
    (eRenorm s).rs = { s.rs with position := renormPosition s.rs.position } := rfl
@[simp] theorem eRenorm_inq (s : State) : (eRenorm s).inq = s.inq := rfl
@[simp] theorem eRenorm_outq (s : State) : (eRenorm s).outq = s.outq := rfl
@[simp] theorem eRenorm_seq (s : State) : (eRenorm s).seq = .idle := rfl
@[simp] theorem eRenorm_cur (s : State) : (eRenorm s).cur = s.cur := rfl
@[simp] theorem eRenorm_port (s : State) : (eRenorm s).port = s.port := rfl
@[simp] theorem eRenorm_program (s : State) : (eRenorm s).program = s.program := rfl
@[simp] theorem eRenorm_trace (s : State) : (eRenorm s).trace = s.trace := rfl
@[simp] theorem eRenorm_schedule (s : State) : (eRenorm s).schedule = s.schedule := rfl
@[simp] theorem eRenorm_tick (s : State) : (eRenorm s).tick = s.tick := rfl
@[simp] theorem eRenorm_params (s : State) : (eRenorm s).params = s.params := rfl

/-! ## `resetEvent` -/

@[simp] theorem resetEvent_inRate (s : State) : (resetEvent s).inRate = 0#32 := rfl
@[simp] theorem resetEvent_outRate (s : State) : (resetEvent s).outRate = 0#32 := rfl
@[simp] theorem resetEvent_configured (s : State) : (resetEvent s).configured = false := rfl
@[simp] theorem resetEvent_inq (s : State) : (resetEvent s).inq = [] := rfl
@[simp] theorem resetEvent_outq (s : State) : (resetEvent s).outq = [] := rfl
@[simp] theorem resetEvent_seq (s : State) : (resetEvent s).seq = .idle := rfl
@[simp] theorem resetEvent_port (s : State) : (resetEvent s).port = none := rfl
@[simp] theorem resetEvent_program (s : State) : (resetEvent s).program = s.program := rfl
@[simp] theorem resetEvent_trace (s : State) : (resetEvent s).trace = s.trace := rfl
@[simp] theorem resetEvent_schedule (s : State) : (resetEvent s).schedule = s.schedule := rfl
@[simp] theorem resetEvent_tick (s : State) : (resetEvent s).tick = s.tick := rfl
@[simp] theorem resetEvent_params (s : State) : (resetEvent s).params = s.params := rfl

/-! ## The state after reset -/

@[simp] theorem reset_configured : State.reset.configured = false := rfl
@[simp] theorem reset_inq : State.reset.inq = [] := rfl
@[simp] theorem reset_outq : State.reset.outq = [] := rfl
@[simp] theorem reset_seq : State.reset.seq = .idle := rfl
@[simp] theorem reset_port : State.reset.port = none := rfl

end Sys2Proof.Machine
end

