-- ==== Sys2Proof/Laws/Engine.lean ====
section
/-! SUPPORT. What a turn of the engine can do, said once (41_streaming_engine.md R151 to R156). -/

namespace Sys2Proof.Machine

/-- The identity test looks at the active rates only. -/
@[simp] theorem ratesEqual_history (rs : Resampler) (h : Row) :
    ratesEqual { rs with history := h } = ratesEqual rs := by
  unfold ratesEqual; rfl

@[simp] theorem ratesEqual_position (rs : Resampler) (position : F64) :
    ratesEqual { rs with position := position } = ratesEqual rs := by
  unfold ratesEqual; rfl

/-- Everything a turn of the engine that answers a next state can have done. -/
theorem engineTurn_cases {s t : State} (h : engineTurn s = .next t) :
    (t = s ∧ engineEnabled s = false) ∨
    (∃ x rest, s.seq = .idle ∧ s.inq = x :: rest ∧ t = ePop x rest s) ∨
    (s.seq = .pass ∧ outFull s = false ∧ t = ePass s) ∨
    (s.seq = .shift ∧ t = eShift s) ∨
    (s.seq = .test ∧ t = eTest s) ∨
    (∃ ph, s.seq = .emit ∧ outFull s = false ∧ phaseIndex s.rs.position = some ph ∧
      t = { s with
        outq := pushBack s.outq (outputSample s.params s.rs ph)
        rs := { s.rs with position := advancePosition s.rs.position s.rs.step }
        seq := .test }) ∨
    (s.seq = .renorm ∧ t = eRenorm s) := by
  unfold engineTurn at h
  cases hs : s.seq with
  | idle =>
    simp only [hs] at h
    cases hq : s.inq with
    | nil =>
      simp only [hq] at h; cases h
      exact .inl ⟨rfl, by simp [engineEnabled, hs, hq]⟩
    | cons x rest =>
      simp only [hq] at h; cases h
      exact .inr (.inl ⟨x, rest, rfl, rfl, rfl⟩)
  | pass =>
    simp only [hs] at h
    by_cases hf : outFull s = true
    · rw [if_pos hf] at h; cases h; exact .inl ⟨rfl, by simp [engineEnabled, hs, hf]⟩
    · rw [if_neg hf] at h; cases h; exact .inr (.inr (.inl ⟨rfl, by simpa using hf, rfl⟩))
  | shift =>
    simp only [hs] at h; cases h
    exact .inr (.inr (.inr (.inl ⟨rfl, rfl⟩)))
  | test =>
    simp only [hs] at h; cases h
    exact .inr (.inr (.inr (.inr (.inl ⟨rfl, rfl⟩))))
  | emit =>
    simp only [hs] at h
    by_cases hf : outFull s = true
    · rw [if_pos hf] at h; cases h; exact .inl ⟨rfl, by simp [engineEnabled, hs, hf]⟩
    · rw [if_neg hf] at h
      unfold eEmit at h
      split at h
      · cases h
      · cases h
        exact .inr (.inr (.inr (.inr (.inr (.inl ⟨_, rfl, by simpa using hf, ‹_›, rfl⟩)))))
  | renorm =>
    simp only [hs] at h; cases h
    exact .inr (.inr (.inr (.inr (.inr (.inr ⟨rfl, rfl⟩)))))

/-- The engine never refuses. -/
theorem engineTurn_ne_refused (s : State) (r : Refusal) : engineTurn s ≠ .refused r := by
  unfold engineTurn eEmit
  intro h
  repeat' split at h
  all_goals cases h

/-- The one stop of the engine: `E_EMIT` at a position with no phase. -/
theorem engineTurn_fault {s : State} {r : Fault} (h : engineTurn s = .fault r) :
    s.seq = .emit ∧ outFull s = false ∧ phaseIndex s.rs.position = none := by
  unfold engineTurn at h
  cases hs : s.seq with
  | idle => simp only [hs] at h; split at h <;> cases h
  | pass => simp only [hs] at h; split at h <;> cases h
  | shift => simp only [hs] at h; cases h
  | test => simp only [hs] at h; cases h
  | emit =>
    simp only [hs] at h
    by_cases hf : outFull s = true
    · rw [if_pos hf] at h; cases h
    · rw [if_neg hf] at h
      unfold eEmit at h
      split at h
      · exact ⟨rfl, by simpa using hf, ‹_›⟩
      · cases h
  | renorm => simp only [hs] at h; cases h

/-- A run of the engine is a first turn and the rest. -/
theorem engineRun_succ (k : Nat) {s t : State} (h : engineTurn s = .next t) :
    engineRun (k + 1) s = engineRun k t := by
  simp [engineRun, h]

/-- Runs of the engine compose. -/
theorem engineRun_add (j k : Nat) {s t : State} (h : engineRun j s = .next t) :
    engineRun (j + k) s = engineRun k t := by
  induction j generalizing s with
  | zero => cases h; simp
  | succ j ih =>
    rw [Nat.add_right_comm]
    rw [engineRun] at h
    rw [engineRun]
    split at h
    · exact ih h
    · cases h
    · cases h

end Sys2Proof.Machine
end

