-- ==== Sys2Proof/Laws/Ops.lean ====
section
/-! SUPPORT. What each shared operation and each operation with more than one outcome can do, said once. -/

namespace Sys2Proof.Machine

/-! ## Queues -/

@[simp] theorem queueFull_unbounded (q : List Sample) : queueFull .unbounded q = false := rfl

theorem queueFull_entries (more : Nat) (q : List Sample) :
    queueFull (.entries more) q = true ↔ q.length = more + 1 := by
  simp [queueFull]

@[simp] theorem pushBack_length (q : List Sample) (x : Sample) : (pushBack q x).length = q.length + 1 := by
  simp [pushBack]

/-- The front of a queue is not changed by an append. -/
theorem pushBack_cons (y : Sample) (q : List Sample) (x : Sample) :
    pushBack (y :: q) x = y :: pushBack q x := rfl

/-! ## The outcomes of `INIT`, `PUSH` and `POP` -/

/-- Everything `INIT` can do. -/
theorem execInit_cases (s : State) :
    (busy s = true ∧ execInit s = .next s) ∨
    (busy s = false ∧ (s.inRate = 0#32 ∨ s.outRate = 0#32) ∧ execInit s = .refused .initZeroRate) ∨
    (busy s = false ∧ s.inRate ≠ 0#32 ∧ s.outRate ≠ 0#32 ∧
      execInit s = .next (respond 0#32
        { s with rs := construct s.params s.inRate s.outRate, configured := true })) := by
  unfold execInit hold
  by_cases hb : busy s = true
  · exact .inl ⟨hb, by simp [hb]⟩
  · have hb' : busy s = false := by simpa using hb
    by_cases hz : s.inRate = 0#32 ∨ s.outRate = 0#32
    · exact .inr (.inl ⟨hb', hz, by simp [hb', hz]⟩)
    · have hz' := not_or.1 hz
      exact .inr (.inr ⟨hb', hz'.1, hz'.2, by simp [hb', hz]⟩)

/-- Everything `PUSH` can do. -/
theorem execPush_cases (x : Sample) (s : State) :
    (s.configured = false ∧ execPush x s = .next (respondError .unconf s)) ∨
    (s.configured = true ∧ inFull s = true ∧ execPush x s = .next s) ∨
    (s.configured = true ∧ inFull s = false ∧
      execPush x s = .next (respond 0#32 { s with inq := pushBack s.inq x })) := by
  unfold execPush hold
  cases hc : s.configured <;> cases hf : inFull s <;> simp

/-- Everything `POP` can do. -/
theorem execPop_cases (s : State) :
    (s.outq = [] ∧ execPop s = .next s) ∨
    (∃ x rest, s.outq = x :: rest ∧
      execPop s = .next (respond (sampleWord x) { s with outq := rest })) := by
  unfold execPop hold
  cases h : s.outq with
  | nil => exact .inl ⟨rfl, rfl⟩
  | cons x rest => exact .inr ⟨x, rest, rfl, rfl⟩

/-- No operation touches the sequencer, the latch, the program, the schedule, the step count or the
parameters. -/
theorem exec_frame {i : Instr} {s t : State} (h : exec i s = .next t) :
    t.seq = s.seq ∧ t.cur = s.cur ∧ t.program = s.program ∧ t.schedule = s.schedule ∧
      t.tick = s.tick ∧ t.params = s.params := by
  cases i with
  | getparams => cases h; exact ⟨rfl, rfl, rfl, rfl, rfl, rfl⟩
  | getin => cases h; exact ⟨rfl, rfl, rfl, rfl, rfl, rfl⟩
  | setin rate => cases h; exact ⟨rfl, rfl, rfl, rfl, rfl, rfl⟩
  | getout => cases h; exact ⟨rfl, rfl, rfl, rfl, rfl, rfl⟩
  | setout rate => cases h; exact ⟨rfl, rfl, rfl, rfl, rfl, rfl⟩
  | init =>
    change execInit s = .next t at h
    rcases execInit_cases s with ⟨-, e⟩ | ⟨-, -, e⟩ | ⟨-, -, -, e⟩ <;> rw [e] at h <;> cases h <;>
      exact ⟨rfl, rfl, rfl, rfl, rfl, rfl⟩
  | ctrlnop => cases h; exact ⟨rfl, rfl, rfl, rfl, rfl, rfl⟩
  | stat => cases h; exact ⟨rfl, rfl, rfl, rfl, rfl, rfl⟩
  | push x =>
    change execPush x s = .next t at h
    rcases execPush_cases x s with ⟨-, e⟩ | ⟨-, -, e⟩ | ⟨-, -, e⟩ <;> rw [e] at h <;> cases h <;>
      exact ⟨rfl, rfl, rfl, rfl, rfl, rfl⟩
  | pop =>
    change execPop s = .next t at h
    rcases execPop_cases s with ⟨-, e⟩ | ⟨x, rest, -, e⟩ <;> rw [e] at h <;> cases h <;>
      exact ⟨rfl, rfl, rfl, rfl, rfl, rfl⟩

/-! ## Vectors -/

theorem phaseRow_get (table : Table) (ph : Fin 128) (i : Nat) (h : i < 16) :
    (phaseRow table ph)[i] = table[16 * ph.val + i] := by
  simp [phaseRow]

theorem shiftHistory_get (h : Row) (x : F32) (i : Nat) (hi : i < 15) :
    (shiftHistory h x)[i] = h[i + 1] := by
  simp only [shiftHistory, Vector.getElem_ofFn]
  rw [dif_pos (by omega)]

theorem shiftHistory_last (h : Row) (x : F32) : (shiftHistory h x)[15] = x := by
  simp [shiftHistory]

theorem zeroHistory_get (i : Nat) (h : i < 16) : zeroHistory[i] = 0x00000000#32 := by
  simp [zeroHistory]

end Sys2Proof.Machine
end

