-- ==== Sys2Proof/Laws/PerInstr.lean ====
section
/-! SUPPORT. Claims about every operation as syntax, one lemma per constructor. -/

namespace Sys2Proof.Laws

/-- The canonical word of an operation is well formed, selects the row of its mnemonic in the opcode map
(30_encoding.md R95), and is sent in six bytes. -/
def CanonicalWord.Statement (i : Instr) : Prop :=
  (encode i).legal = true ∧ (busBytes (encode i)).length = 6 ∧
    (opRows.filter fun row => rowSelects row (encode i)).map OpRow.mnemonic = [mnemonicOf i]

theorem legal_busWord (we : Bool) (off : BitVec 8) (data : Word)
    (h : (busWord we off 0#32).legal = true) : (busWord we off data).legal = true := by
  have fields : ∀ d : Word, (busWord we off d).legal =
      ((rsvdOf (busWord we off d) == 0#7) && ((addrOf (busWord we off d)).extractLsb' 0 2 == 0#2) &&
        decide ((addrOf (busWord we off d)).toNat < 0x1C) &&
        (if weOf (busWord we off d) then !([0x00#8, 0x10#8, 0x18#8].contains (addrOf (busWord we off d)))
          else !([0x0C#8, 0x14#8].contains (addrOf (busWord we off d))))) := by
    intro d
    have hx : ∀ w : Bus48, w.extractLsb' 32 2 = (addrOf w).extractLsb' 0 2 := by
      intro w
      apply BitVec.eq_of_getLsbD_eq
      intro i hi
      simp only [addrOf, BitVec.getLsbD_extractLsb']
      have h8 : i < 8 := by omega
      simp [h8]
    simp only [Bus48.legal, Bus48.rsvdZero, Bus48.aligned, Bus48.mapped, Bus48.directionAllowed, hx]
    rfl
  rw [fields] at h ⊢
  simpa only [weOf_busWord, rsvdOf_busWord, addrOf_busWord] using h

theorem rowSelects_busWord (row : OpRow) (we : Bool) (off : BitVec 8) (data : Word)
    (hm : row.mask = 0xFFFF00000000#48 ∨ (row.mask = 0xFFFF00000001#48 ∧
      addrOf row.pattern ≠ off)) :
    rowSelects row (busWord we off data) = rowSelects row (busWord we off 0#32) := by
  unfold rowSelects
  rcases hm with hm | ⟨hm, hne⟩
  · rw [hm, busWord_and_fields, busWord_and_fields]
  · rw [hm, busWord_and_ctrl, busWord_and_ctrl]
    have no : ∀ d : Word, (busWord we off d == row.pattern) = false := by
      intro d
      rw [beq_eq_false_iff_ne]
      intro he
      exact hne (by rw [← he, addrOf_busWord])
    rw [no, no]

/-- The rows a word with free data selects, for a register other than `CTRL`. -/
theorem rows_busWord (we : Bool) (off : BitVec 8) (data : Word) (hoff : off ≠ 0x0C#8) :
    (opRows.filter fun row => rowSelects row (busWord we off data)) =
      (opRows.filter fun row => rowSelects row (busWord we off 0#32)) := by
  apply List.filter_congr
  intro row hrow
  apply rowSelects_busWord
  simp only [opRows, List.mem_cons, List.not_mem_nil, or_false] at hrow
  rcases hrow with h | h | h | h | h | h | h | h | h | h <;> subst h
  all_goals first
    | exact .inl rfl
    | exact .inr ⟨rfl, by intro he; apply hoff; rw [← he]; decide⟩

theorem CanonicalWord.getparams : CanonicalWord.Statement .getparams := by
  unfold CanonicalWord.Statement; decide
theorem CanonicalWord.getin : CanonicalWord.Statement .getin := by
  unfold CanonicalWord.Statement; decide
theorem CanonicalWord.getout : CanonicalWord.Statement .getout := by
  unfold CanonicalWord.Statement; decide
theorem CanonicalWord.init : CanonicalWord.Statement .init := by
  unfold CanonicalWord.Statement; decide
theorem CanonicalWord.ctrlnop : CanonicalWord.Statement .ctrlnop := by
  unfold CanonicalWord.Statement; decide
theorem CanonicalWord.stat : CanonicalWord.Statement .stat := by
  unfold CanonicalWord.Statement; decide
theorem CanonicalWord.pop : CanonicalWord.Statement .pop := by
  unfold CanonicalWord.Statement; decide

theorem CanonicalWord.setin (rate : Word) : CanonicalWord.Statement (.setin rate) := by
  refine ⟨legal_busWord _ _ _ (by decide), rfl, ?_⟩
  change List.map _ (opRows.filter fun row => rowSelects row (busWord true 0x04#8 rate)) = _
  rw [rows_busWord _ _ _ (by decide)]
  have rows : List.map OpRow.mnemonic
      (opRows.filter fun row => rowSelects row (busWord true 0x04#8 0#32)) = ["SETIN"] := by decide
  exact rows

theorem CanonicalWord.setout (rate : Word) : CanonicalWord.Statement (.setout rate) := by
  refine ⟨legal_busWord _ _ _ (by decide), rfl, ?_⟩
  change List.map _ (opRows.filter fun row => rowSelects row (busWord true 0x08#8 rate)) = _
  rw [rows_busWord _ _ _ (by decide)]
  have rows : List.map OpRow.mnemonic
      (opRows.filter fun row => rowSelects row (busWord true 0x08#8 0#32)) = ["SETOUT"] := by decide
  exact rows

theorem CanonicalWord.push (sample : Sample) : CanonicalWord.Statement (.push sample) := by
  refine ⟨legal_busWord _ _ _ (by decide), rfl, ?_⟩
  change List.map _ (opRows.filter fun row => rowSelects row (busWord true 0x14#8 (sample.setWidth 32))) = _
  rw [rows_busWord _ _ _ (by decide)]
  have rows : List.map OpRow.mnemonic
      (opRows.filter fun row => rowSelects row (busWord true 0x14#8 0#32)) = ["PUSH"] := by decide
  exact rows

end Sys2Proof.Laws
end

