-- ==== Sys2Proof/Laws/Step.lean ====
section
/-! SUPPORT. What a step and a run can do, said once. -/

namespace Sys2Proof.Machine

/-- A free round has a turn of the host and one of the engine. -/
theorem mem_freeEvents (n : Nat) : Event.host ∈ freeEvents n ∧ Event.engine ∈ freeEvents n := by
  simp [freeEvents]

theorem upcoming_scheduled {s : State} {e : Event} {rest : List Event} (h : s.schedule = e :: rest) :
    upcoming s = e :: rest := by
  simp [upcoming, h]

/-- Someone always moves next. -/
theorem upcoming_ne_nil (s : State) : upcoming s ≠ [] := by
  unfold upcoming
  split
  · exact List.ne_nil_of_mem (mem_freeEvents s.tick).1
  · exact List.cons_ne_nil _ _

theorem nextEvent_scheduled {s : State} {e : Event} {rest : List Event} (h : s.schedule = e :: rest) :
    nextEvent s = e := by
  simp [nextEvent, upcoming_scheduled h]

/-- With an entry in the schedule the step around the turn uses it up and counts itself. -/
theorem consumeTurn_scheduled {s : State} {e : Event} {rest : List Event} (h : s.schedule = e :: rest) :
    consumeTurn s = { s with schedule := rest, tick := s.tick + 1 } := by
  simp [consumeTurn, upcoming_scheduled h]

/-- A step is the turn of the event it takes. -/
theorem step_scheduled {s : State} {e : Event} {rest : List Event} (h : s.schedule = e :: rest) :
    step s = takeTurn e (consumeTurn s) := by
  simp [step, nextEvent_scheduled h]

/-- Every step is the turn of some event. -/
theorem step_turn (s : State) : ∃ e, step s = takeTurn e (consumeTurn s) := ⟨nextEvent s, rfl⟩

/-- Everything a turn of the host that answers a next state can have done: nothing to issue, an error
response, or an operation (performed or held) on the state with the transaction on the port. -/
theorem hostTurn_cases {s t : State} (h : hostTurn s = .next t) :
    (t = s ∧ s.port = none ∧ s.program = []) ∨
    ∃ w u, ((s.port = some w ∧ u = s) ∨ (∃ rest, s.port = none ∧ s.program = w :: rest ∧ u = issue w rest s)) ∧
      ((∃ c, decode w = .error c ∧ t = respondError c u) ∨ (∃ i, decode w = .ok i ∧ exec i u = .next t)) := by
  unfold hostTurn at h
  have run : ∀ w u, runTransaction w u = .next t →
      (∃ c, decode w = .error c ∧ t = respondError c u) ∨ (∃ i, decode w = .ok i ∧ exec i u = .next t) := by
    intro w u hr
    unfold runTransaction at hr
    split at hr
    · cases hr; exact .inl ⟨_, ‹_›, rfl⟩
    · exact .inr ⟨_, ‹_›, hr⟩
  split at h
  · exact .inr ⟨_, s, .inl ⟨‹_›, rfl⟩, run _ _ h⟩
  · split at h
    · cases h; exact .inl ⟨rfl, ‹_›, ‹_›⟩
    · exact .inr ⟨_, _, .inr ⟨_, ‹_›, ‹_›, rfl⟩, run _ _ h⟩

/-- Placing a word makes the next step that transaction. -/
theorem step_placeWord (w : Bus48) (s : State) :
    step (placeWord w s) = runTransaction w (consumeTurn (placeWord w s)) := rfl

/-- A turn of the engine leaves the host's side, the schedule, the step count and the parameters alone. -/
theorem engineTurn_frame {s t : State} (h : engineTurn s = .next t) :
    t.port = s.port ∧ t.program = s.program ∧ t.trace = s.trace ∧ t.schedule = s.schedule ∧ t.tick = s.tick ∧
      t.params = s.params := by
  rcases engineTurn_cases h with ⟨rfl, -⟩ | ⟨x, rest, -, -, rfl⟩ | ⟨-, -, rfl⟩ | ⟨-, rfl⟩ | ⟨-, rfl⟩ |
    ⟨ph, -, -, -, rfl⟩ | ⟨-, rfl⟩ <;> simp

/-- A turn leaves the schedule, the step count and the parameters alone. -/
theorem takeTurn_frame {e : Event} {s t : State} (h : takeTurn e s = .next t) :
    t.schedule = s.schedule ∧ t.tick = s.tick ∧ t.params = s.params := by
  cases e with
  | reset => cases h; exact ⟨rfl, rfl, rfl⟩
  | engine =>
    change engineTurn s = .next t at h
    exact (engineTurn_frame h).2.2.2
  | host =>
    rcases hostTurn_cases h with ⟨rfl, -⟩ | ⟨w, u, hu, hd⟩
    · exact ⟨rfl, rfl, rfl⟩
    · have hs : u.schedule = s.schedule ∧ u.tick = s.tick ∧ u.params = s.params := by
        rcases hu with ⟨-, rfl⟩ | ⟨_, -, -, rfl⟩ <;> exact ⟨rfl, rfl, rfl⟩
      rcases hd with ⟨c, -, rfl⟩ | ⟨i, -, hx⟩
      · exact hs
      · obtain ⟨-, -, -, h1, h2, h3⟩ := exec_frame hx
        exact ⟨h1.trans hs.1, h2.trans hs.2.1, h3.trans hs.2.2⟩

/-- What a step does to the schedule, the step count and the parameters. -/
theorem step_frame {s t : State} (h : step s = .next t) :
    t.schedule = (upcoming s).tail ∧ t.tick = s.tick + 1 ∧ t.params = s.params := takeTurn_frame h

/-- The transaction a turn of the host tries, read off the case it is in. -/
theorem currentWord_of_turn {s u : State} {w : Bus48}
    (h : (s.port = some w ∧ u = s) ∨ (∃ rest, s.port = none ∧ s.program = w :: rest ∧ u = issue w rest s)) :
    currentWord s = some w := by
  rcases h with ⟨h, -⟩ | ⟨rest, h1, h2, -⟩
  · simp [currentWord, h]
  · simp [currentWord, h1, h2]

/-! ## Runs -/

@[simp] theorem run_zero (s : State) : run 0 s = .next s := rfl

/-- A run is a first step and the rest. -/
theorem run_succ (k : Nat) {s t : State} (h : step s = .next t) : run (k + 1) s = run k t := by
  have hc : Sys2Proof.core.step s = .next t := h
  simp only [run, Host.Core.run, hc]
  rfl

/-- A run that goes on has a first step that goes on. -/
theorem run_succ_next {k : Nat} {s t : State} (h : run (k + 1) s = .next t) :
    ∃ u, step s = .next u ∧ run k u = .next t := by
  cases hs : step s with
  | next u => exact ⟨u, rfl, by rw [← run_succ k hs]; exact h⟩
  | fault r =>
    have hc : Sys2Proof.core.step s = .fault r := hs
    simp only [run, Host.Core.run, hc] at h
    cases h
  | refused r =>
    have hc : Sys2Proof.core.step s = .refused r := hs
    simp only [run, Host.Core.run, hc] at h
    cases h

@[simp] theorem runUnder_zero (events : Nat → Event) (s : State) : runUnder events 0 s = .next s := rfl

/-- One more step under an infinite schedule. -/
theorem runUnder_succ (events : Nat → Event) {k : Nat} {s t : State} (h : runUnder events k s = .next t) :
    runUnder events (k + 1) s = step { t with schedule := [events k] } := by
  simp [runUnder, h]

end Sys2Proof.Machine
end

