-- ==== Sys2Proof/Tests/Slice0.lean ====
section
/-! SUPPORT. The model's own tests: the checks of WellFormed, words of every family written out from
30_encoding.md R95, one step of every operation, the arithmetic, one row of the builder's table, and a witness
for the hypotheses of every statement. Expected values come from the spec, most from 95_test_vectors.md. -/

namespace Sys2Proof.Tests

-- One test after another: many tests waiting for the kernel at once take a thread's stack each.
set_option Elab.async false

open Sys2Proof.Machine

/-! ## Helpers -/

/-- This hardware's parameters. -/
def decided : Params := Params.decided 0 .unbounded .unbounded

/-- The same with an open table, so that no test has to build one, and the given depths. -/
def openParams (inDepth outDepth : Depth) : Params :=
  { Params.decided 0 inDepth outDepth with coefMode := .otherTable }

/-- A configured idle block, right after `INIT` with the two rates. -/
def live (input output : Word) (inDepth outDepth : Depth) : State :=
  { State.reset with
    inRate := input
    outRate := output
    configured := true
    rs := construct (openParams inDepth outDepth) input output
    params := openParams inDepth outDepth }

/-- Right after `CONFIG 8000, 16000`, unbounded queues. -/
def up : State := live 8000#32 16000#32 .unbounded .unbounded

/-- Right after `CONFIG 8000, 8000`, unbounded queues. -/
def same : State := live 8000#32 8000#32 .unbounded .unbounded

/-- `up` with both queues one entry deep. -/
def tight : State := live 8000#32 16000#32 (.entries 0) (.entries 0)

/-- The state an outcome goes on in. -/
def nextOf : Result → Option State
  | .next s => some s
  | .fault _ => none
  | .refused _ => none

/-- The refusal an outcome stops with. -/
def refusalOf : Result → Option Refusal
  | .next _ => none
  | .fault _ => none
  | .refused r => some r

/-- The responses an outcome leaves in the trace. -/
def responses (r : Result) : Option (List TraceEntry) := (nextOf r).map (·.trace)

/-- An answered value. -/
def answer (value : Word) : List TraceEntry := [⟨⟨false, value⟩, none⟩]

/-- A row with the same word sixteen times. -/
def allOf (x : F32) : Row := Vector.replicate 16 x

/-! ## WellFormed: an ill-formed term for each check, refused -/

theorem test_wf_rsvd : Bus48.rsvdZero 0x810D00000000#48 = false ∧ Bus48.legal 0xC01400000001#48 = false := by decide
theorem test_wf_aligned : Bus48.aligned 0x801D00000000#48 = false ∧ Bus48.legal 0x000D00000000#48 = false := by decide
theorem test_wf_mapped : Bus48.mapped 0x001C00000000#48 = false ∧ Bus48.mapped 0x00FC00000000#48 = false ∧
    Bus48.mapped 0x001800000000#48 = true := by decide
theorem test_wf_direction : Bus48.directionAllowed 0x801800000000#48 = false ∧
    Bus48.directionAllowed 0x001400000000#48 = false ∧ Bus48.legal 0x000C00000000#48 = false := by decide
theorem test_wf_legal : Bus48.legal 0x80141234FFFF#48 = true := by decide
theorem test_wf_rate : AsmLine.wellFormed (.setin 4294967296) = false ∧
    AsmLine.wellFormed (.setout 4294967296) = false ∧ AsmLine.wellFormed (.setin 4294967295) = true := by decide
theorem test_wf_sample : AsmLine.wellFormed (.push 32768) = false ∧
    AsmLine.wellFormed (.push (-32769)) = false ∧ AsmLine.wellFormed (.push (-32768)) = true := by decide
theorem test_wf_generic : AsmLine.wellFormed (.wr .ctrl 4294967296) = false ∧
    AsmLine.wellFormed (.txn 0x1000000000000) = false := by decide
theorem test_wf_pseudo : AsmLine.wellFormed (.config 0 4294967296) = false ∧
    AsmLine.wellFormed (.process [0, 32768]) = false ∧
    AsmLine.wellFormed (.resample 1 1 [-32769]) = false := by decide

/-! ## Decoding: words from R95 and 95_test_vectors.md section 6.1, refused ones from section 6.2 -/

theorem test_decode_params : decode 0x0000DEADBEEF#48 = .ok .getparams := by decide
theorem test_decode_rates : decode 0x80040000AC44#48 = .ok (.setin 44100#32) ∧
    decode 0x80080000BB80#48 = .ok (.setout 48000#32) ∧ decode 0x000400000000#48 = .ok .getin ∧
    decode 0x000800000000#48 = .ok .getout := by decide
theorem test_decode_ctrl : decode 0x800CFFFFFFFF#48 = .ok .init ∧ decode 0x800CFFFFFFFE#48 = .ok .ctrlnop := by
  decide
theorem test_decode_stat : decode 0x001000000000#48 = .ok .stat := by decide
theorem test_decode_push : decode 0x80141234FFFF#48 = .ok (.push (u16 (-1))) ∧
    decode 0x801400007FFF#48 = .ok (.push (u16 32767)) := by decide
theorem test_decode_pop : decode 0x001800000000#48 = .ok .pop := by decide
theorem test_decode_bits : decode 0b1000000000010100_00000000000000000000001111101000#48 =
    .ok (.push (u16 1000)) := by decide
theorem test_reject_rsvd : decode 0x810D00000000#48 = .error .rsvd ∧ decode 0x7F1800000000#48 = .error .rsvd := by
  decide
theorem test_reject_align : decode 0x801D00000000#48 = .error .align ∧ decode 0x00FF00000000#48 = .error .align := by
  decide
theorem test_reject_unmapped : decode 0x001C00000000#48 = .error .unmapped ∧
    decode 0x802000000000#48 = .error .unmapped ∧ decode 0x00FC00000000#48 = .error .unmapped := by decide
theorem test_reject_access : decode 0x800000000000#48 = .error .access ∧ decode 0x000C00000000#48 = .error .access ∧
    decode 0x801000000000#48 = .error .access ∧ decode 0x001400000000#48 = .error .access ∧
    decode 0x801800000000#48 = .error .access := by decide
theorem test_bytes_order : decodeBytes [0x80#8, 0x04#8, 0x00#8, 0x00#8, 0x1F#8, 0x40#8] = .ok (.setin 8000#32) := by
  decide
theorem test_bytes_length : decodeBytes [0x80#8, 0x04#8] = .error .badLength := by decide
theorem test_table_word : decodeTableWord 48 0x80141234FFFF = some (.push (u16 (-1))) := by decide
theorem test_assemble_config : assemble (.config 8000 16000) =
    [0x800400001F40#48, 0x800800003E80#48, 0x800C00000001#48] := by decide
theorem test_assemble_rd : assemble (.rd .dataOut) = [0x001800000000#48] ∧
    assemble (.wr .ctrl 0) = [0x800C00000000#48] := by decide
theorem test_cause_codes : causeCode (some .rsvd) = 1 ∧ causeCode (some .unconf) = 5 := by decide
theorem test_constants : Config.numPhases * Config.tapsPerPhase = Config.coefWords := by decide

/-! ## Operations: one step each (44_host_operations.md examples, 95_test_vectors.md section 6.3) -/

theorem test_getparams : responses (exec .getparams State.reset) = some (answer 0x00100080#32) := by decide
theorem test_getin : responses (exec .getin up) = some (answer 0x00001F40#32) := by decide
theorem test_setin : (nextOf (exec (.setin 44100#32) up)).map
    (fun t => (t.inRate, t.rs.inputRate, t.outRate)) = some (44100#32, 8000#32, 16000#32) := by decide
theorem test_getout : responses (exec .getout up) = some (answer 0x00003E80#32) := by decide
theorem test_setout : (nextOf (exec (.setout 48000#32) up)).map
    (fun t => (t.inRate, t.rs.outputRate, t.outRate)) = some (8000#32, 16000#32, 48000#32) := by decide
theorem test_init_quotient : (nextOf (exec .init { up with inRate := 49#32, outRate := 10#32 })).map
    (fun t => (t.rs.ratio, t.rs.step, t.rs.inputRate)) =
      some (0x3FCA1F58D0FAC688#64, 0x401399999999999A#64, 49#32) := by decide +kernel
theorem test_init_holds : (nextOf (exec .init { up with inq := [0#16], inRate := 1#32 })).map
    (fun t => (t.rs.inputRate, t.trace)) = some (8000#32, []) := by decide
theorem test_init_zero_rate : refusalOf (exec .init { up with inRate := 0#32 }) = some .initZeroRate := by decide
theorem test_ctrlnop : (nextOf (exec .ctrlnop State.reset)).map (fun t => (t.configured, t.trace)) =
    some (false, answer 0#32) := by decide
theorem test_stat_identity : responses (exec .stat same) = some (answer 0x00000015#32) := by decide
theorem test_stat_full : responses (exec .stat { tight with inq := [u16 1000] }) = some (answer 0x00000003#32) := by
  decide
theorem test_push_unconf : responses (exec (.push (u16 5)) State.reset) =
    some [⟨⟨true, 0#32⟩, some .unconf⟩] := by decide
theorem test_push_back : (nextOf (exec (.push (u16 2000)) { up with inq := [u16 1000] })).map (·.inq) =
    some [u16 1000, u16 2000] := by decide
theorem test_pop_sign : responses (exec .pop { up with outq := [u16 (-4), u16 7] }) =
    some (answer 0xFFFFFFFC#32) := by decide
theorem test_pop_front : (nextOf (exec .pop { up with outq := [u16 (-32768), u16 7] })).map (·.outq) =
    some [u16 7] := by decide

/-! ## Steps -/

/-- The first step after reset runs the placed word. -/
theorem test_step_runs : responses (step (State.reset.withFetchWord 48 0x000000000000)) =
    some (answer 0x00100080#32) := by decide
theorem test_step_pop_holds : (nextOf (step (State.reset.withFetchWord 48 0x001800000000))).map
    (fun t => (t.port, t.trace)) = some (some 0x001800000000#48, []) := by decide
/-- R151's example. -/
theorem test_e_pop : (nextOf (engineTurn { up with inq := [u16 1000, u16 2000] })).map
    (fun t => (t.cur, t.inq, t.seq)) = some (u16 1000, [u16 2000], .shift) := by decide
/-- R153's example. -/
theorem test_e_shift : (nextOf (engineTurn { up with
    seq := .shift, cur := u16 2000, rs := { up.rs with history := shiftHistory zeroHistory 0x447A0000#32 } })).map
    (fun t => (t.rs.history[13], t.rs.history[14], t.rs.history[15])) =
      some (0#32, 0x447A0000#32, 0x44FA0000#32) := by decide
/-- R154's examples. -/
theorem test_e_test : (nextOf (engineTurn { up with
      seq := .test, rs := { up.rs with position := 0x4014000000000000#64 } })).map (·.seq) = some .renorm ∧
    (nextOf (engineTurn { up with
      seq := .test, rs := { up.rs with position := 0x3FEFFFFFFFFFFFFF#64 } })).map (·.seq) = some .emit := by
  decide +kernel
/-- R155's example: at 0.5 the row is words 1024 to 1039 and the position becomes 1.0. -/
theorem test_e_emit_position : (nextOf (engineTurn { up with
    seq := .emit, rs := { up.rs with position := 0x3FE0000000000000#64 } })).map (·.rs.position) =
      some 0x3FF0000000000000#64 := by decide +kernel
/-- The second emission of 41_streaming_engine.md R169: only the newest history word is not zero, and the row
ends in 0x3B576228. -/
theorem test_e_emit_sample :
    dot decided (shiftHistory (allOf 0xBB3F9D07#32) 0x3B576228#32) (shiftHistory zeroHistory 0x447A0000#32) =
      0x405255DB#32 ∧ saturate decided 0x405255DB#32 = u16 3 := by decide +kernel
/-- R156's examples. -/
theorem test_e_renorm : renormPosition 0x4018000000000000#64 = 0x4014000000000000#64 ∧
    renormPosition 0x3FF0000000000000#64 = 0x0000000000000000#64 := by decide +kernel
theorem test_reset_event : (nextOf (step { up with schedule := [.reset], inq := [0#16], seq := .emit })).map
    (fun t => (t.configured, t.inRate, t.inq, t.seq)) = some (false, 0#32, [], .idle) := by decide
theorem test_phase : phaseIndex 0x3FEFFFFFFFFFFFFF#64 = some ⟨127, by decide⟩ ∧
    phaseIndex 0x3FDFFFFFFFFFFFFC#64 = some ⟨63, by decide⟩ := by decide +kernel
/-- 95_test_vectors.md section 3.1: the third addition of a third rounds up to 1.0. -/
theorem test_advance : advancePosition 0x3FE5555555555555#64 0x3FD5555555555555#64 = 0x3FF0000000000000#64 := by
  decide +kernel

/-! ## Arithmetic (95_test_vectors.md sections 2.2, 4 and 5) -/

theorem test_dot_exact : dot decided (allOf 0x3D800000#32)
    #v[0x3F800000#32, 0x40000000#32, 0x40400000#32, 0x40800000#32, 0x40A00000#32, 0x40C00000#32, 0x40E00000#32,
       0x41000000#32, 0x41100000#32, 0x41200000#32, 0x41300000#32, 0x41400000#32, 0x41500000#32, 0x41600000#32,
       0x41700000#32, 0x41800000#32] = 0x41080000#32 := by decide +kernel
theorem test_dot_rounded : dot decided (allOf 0x3DCCCCCD#32) (allOf 0x40400000#32) = 0x4099999A#32 := by
  decide +kernel
theorem test_dot_order : dot decided
    #v[0x4B800000#32, 0x3F800000#32, 0xCB800000#32, 0, 0, 0, 0, 0, 0, 0, 0, 0, 0, 0, 0, 0]
    (allOf 0x3F800000#32) = 0x00000000#32 := by decide +kernel
/-- Log entry 21, by hand: the exact products, 25165827 and 8388603 times 2^103, and their sum 33554430 times 2^103
are below overflow at 33554431 times 2^103, and the accumulation is an infinity, for the first product rounds up. -/
theorem test_dot_near_overflow : dot decided
    #v[0x5F800001#32, 0x5EFFFFF6#32, 0, 0, 0, 0, 0, 0, 0, 0, 0, 0, 0, 0, 0, 0]
    #v[0x5F400000#32, 0x5F000000#32, 0, 0, 0, 0, 0, 0, 0, 0, 0, 0, 0, 0, 0, 0] = 0x7F800000#32 := by decide +kernel
theorem test_sat_truncates : saturate decided 0xBF7FFFFF#32 = u16 0 ∧ saturate decided 0x4479FFFF#32 = u16 999 ∧
    saturate decided 0xC6FFFF00#32 = u16 (-32767) ∧ saturate decided 0x46FFFDFF#32 = u16 32766 := by decide +kernel
theorem test_sat_clamps : saturate decided 0x46FFFE00#32 = u16 32767 ∧ saturate decided 0x47000000#32 = u16 32767 ∧
    saturate decided 0xC7000001#32 = u16 (-32768) ∧ saturate decided 0xFF800000#32 = u16 (-32768) ∧
    saturate decided 0xFFC00001#32 = u16 0 := by decide +kernel
theorem test_convert : i16ToF32 (u16 12345) = 0x4640E400#32 ∧ i16ToF32 (u16 (-32768)) = 0xC7000000#32 ∧
    i16ToF32 0#16 = 0#32 := by decide +kernel
theorem test_ratio : rateRatio 44100#32 48000#32 = 0x3FF16A3B35FC845B#64 ∧
    rateStep .reciprocal 49#32 10#32 = 0x4013999999999999#64 ∧
    rateStep .quotient 1#32 4294967295#32 = 0x3DF0000000100000#64 := by decide +kernel
theorem test_cutoff : cutoffOf 0x3FE0000000000000#64 = 0x3FCCCCCCCCCCCCCD#64 ∧
    cutoffOf 0x4000000000000000#64 = 0x3FDCCCCCCCCCCCCD#64 := by decide +kernel

/-! ## The builder (95_test_vectors.md section 2.3) -/

theorem test_sine : refSin64 0xBFF69E9565708EFC#64 = 0xBFEF9B24942FE45C#64 := by decide +kernel
theorem test_cosine : refCos64 0x400AB771F7C768D7#64 = 0xBFEF5FF9EC5B6C7B#64 := by decide +kernel
theorem test_peak_tap : rawTap decided refSin64 refCos64 0x3FDCCCCCCCCCCCCD#64 64 8 = 0x3FEC8A8CD81FB498#64 := by
  decide +kernel
theorem test_sine_tap : rawTap decided refSin64 refCos64 0x3FDCCCCCCCCCCCCD#64 0 7 = 0x3FE36BD55EAC840D#64 := by
  decide +kernel
theorem test_last_tap : rawTap decided refSin64 refCos64 0x3FDCCCCCCCCCCCCD#64 127 15 = 0xBF5BD6242228024A#64 := by
  decide +kernel
theorem test_normalised : f64ToF32 (fdiv64 0x3FEC8A8CD81FB498#64 0x3FEFBA30C801CDE7#64) = 0x3F664ACB#32 := by
  decide +kernel
/-- Row 0 of the up-sampling table (section 2.4), all of it. -/
theorem test_row_zero : normaliseRow (rawRow decided refSin64 refCos64 0x3FDCCCCCCCCCCCCD#64 0) =
    [0x3B1E4F6A#32, 0xBB28A8F8#32, 0x3B00441E#32, 0x3B84DF87#32, 0xBCB7E434#32, 0x3D84EA05#32, 0xBE28A22C#32,
     0x3F1C5381#32, 0x3F21F57D#32, 0xBE3BED32#32, 0x3DA0689E#32, 0xBCF35F9D#32, 0x3BC49E91#32, 0x3B58A67E#32,
     0xBB9CC19D#32, 0x3B629A3D#32] := by decide +kernel

/-! ## Witnesses: a state and operands that meet the hypotheses of each statement -/

theorem wit_LegalWordsAreTheTenRows : ∃ row ∈ opRows, 0x801400008000#48 &&& row.mask = row.pattern := by decide

theorem wit_DecoderFollowsRuleR99 :
    ((0x010000000000#48).extractLsb' 40 7 ≠ 0#7 ∧ (0xC01400000001#48).extractLsb' 40 7 ≠ 0#7) ∧
    ((0x000100000000#48).extractLsb' 40 7 = 0#7 ∧ (0x000100000000#48).extractLsb' 32 2 ≠ 0#2) ∧
    ((0x001C00000000#48).extractLsb' 40 7 = 0#7 ∧ (0x001C00000000#48).extractLsb' 32 2 = 0#2 ∧
      0x18 < ((0x001C00000000#48).extractLsb' 32 8).toNat) ∧
    0x18 < ((0x00FC00000000#48).extractLsb' 32 8).toNat := by decide

theorem wit_IgnoredBitsDoNotMatter :
    ((0x1234FFFF#32).extractLsb' 0 16 = (0x0000FFFF#32).extractLsb' 0 16 ∧ (0x1234FFFF#32 : Word) ≠ 0x0000FFFF#32) ∧
    ((0xFFFFFFFE#32).getLsbD 0 = (0x00000000#32).getLsbD 0) ∧ decode 0x001800000000#48 = .ok .pop := by decide

theorem wit_SixBytesMostSignificantFirst : (busBytes 0x001800000000#48).length = 6 ∧
    ([] : List Byte).length ≠ 6 ∧ [0#8, 0#8, 0#8, 0#8, 0#8, 0#8, 0#8].length ≠ 6 := by decide

theorem wit_PseudoOperationsExpand : (AsmLine.config 0 4294967295).wellFormed = true ∧
    (AsmLine.process [-32768, 32767]).wellFormed = true := by decide

theorem wit_WindowIs256BytesFromBase : (0x0FFF < 0x1000 ∨ 0x1000 + 256 ≤ 0x0FFF) ∧
    (0x1100 < 0x1000 ∨ 0x1000 + 256 ≤ 0x1100) := by decide

theorem wit_CtrlnopDoesNothing : (0xFFFFFFFE#32).getLsbD 0 = false ∧ (0x00000001#32).getLsbD 0 = true := by decide

theorem wit_QuiescentStatusWords : same.configured = true ∧ same.seq = .idle ∧ same.inq = [] := by decide

theorem wit_PushAppendsHoldsOrErrs : State.reset.configured = false ∧ up.params.inDepth = .unbounded ∧
    (({ tight with inq := [0#16] } : State).configured = true ∧ inFull { tight with inq := [0#16] } = true) ∧
    (tight.configured = true ∧ inFull tight = false) := by decide

theorem wit_PopAnswersFrontSignExtended : up.outq = [] ∧
    ({ up with outq := [u16 (-4), 0#16] } : State).outq = u16 (-4) :: [0#16] := by decide

theorem wit_InitConstructsResampler :
    ({ up with seq := .renorm } : State).seq ≠ .idle ∧ ({ up with inq := [0#16] } : State).inq ≠ [] ∧
    (State.reset.seq = .idle ∧ State.reset.inq = [] ∧ State.reset.inRate = 0#32) ∧
    ({ up with outRate := 0#32 } : State).outRate = 0#32 ∧
    (up.seq = .idle ∧ up.inq = [] ∧ up.inRate ≠ 0#32 ∧ up.outRate ≠ 0#32) ∧ up.params.stepMode = .quotient ∧
    ({ up.params with stepMode := .reciprocal } : Params).stepMode = .reciprocal := by decide

/-- `INIT` completes on an idle block with non-zero rates. -/
theorem wit_OperationsCompleteButZeroRateInit :
    (nextOf (exec .init up)).isSome = true ∧ (nextOf (exec .init State.reset)).isSome = false := by decide

theorem wit_StepRunsDecodedOperation :
    decode 0x001000000000#48 = .ok .stat ∧
    (({ up with schedule := [.host], port := some 0x001000000000#48 } : State).schedule = .host :: [] ∧
      ({ up with schedule := [.host], port := some 0x001000000000#48 } : State).port = some 0x001000000000#48) ∧
    (({ up with schedule := [.host], program := [0x001000000000#48] } : State).port = none ∧
      ({ up with schedule := [.host], program := [0x001000000000#48] } : State).program = 0x001000000000#48 :: []) ∧
    (({ up with schedule := [.host, .reset] } : State).schedule = .host :: [.reset] ∧ up.port = none ∧ up.program = []) ∧
    ({ up with schedule := [.engine] } : State).schedule = .engine :: [] := by
  decide

theorem wit_ErrorResponseChangesNothing :
    (State.reset.configured = false ∧ decode 0x801400000001#48 = .ok (.push 1#16)) ∧
    decode 0x001C00000000#48 = .error .unmapped ∧
    ({ up with schedule := [.host], port := some 0x001C00000000#48 } : State).port = some 0x001C00000000#48 ∧
    ({ up with schedule := [.host], program := [0x001C00000000#48] } : State).program = 0x001C00000000#48 :: [] := by
  decide

theorem wit_HeldTransactionStaysOutstanding :
    (decode 0x801400000001#48 = .ok (.push 1#16) ∧ inFull { tight with inq := [0#16] } = true) ∧
    (decode 0x001800000000#48 = .ok .pop ∧ up.outq = []) ∧
    (decode 0x800C00000001#48 = .ok .init ∧ ({ up with inq := [0#16] } : State).inq ≠ []) := by decide

/-! ### Invariants of the states used -/

theorem queueWithin_nil (d : Depth) : queueWithin d [] := by cases d <;> simp [queueWithin]

/-- A block right after `INIT`, whatever its sequencer, queues and latch hold within the invariant. -/
theorem coherent_of_live {input output : Word} {inDepth outDepth : Depth} {s : State} (hi : input ≠ 0#32)
    (ho : output ≠ 0#32) (hc : s.configured = true) (hp : s.params = openParams inDepth outDepth)
    (hr : s.rs.inputRate = input ∧ s.rs.outputRate = output ∧ s.rs.ratio = rateRatio input output ∧
      s.rs.step = rateStep .quotient input output ∧ s.rs.coefficients = Config.coefTable input output)
    (hh : s.rs.history = zeroHistory) (h1 : s.seq = .pass → ratesEqual s.rs = true)
    (h2 : filtering s.seq = true → ratesEqual s.rs = false) (h3 : queueWithin inDepth s.inq)
    (h4 : queueWithin outDepth s.outq) : Coherent s where
  quiet h := by rw [hc] at h; cases h
  rates _ := by rw [hr.1, hr.2.1]; exact ⟨hi, ho⟩
  derived _ := by
    rw [hp, hr.1, hr.2.1, hr.2.2.1, hr.2.2.2.1, hr.2.2.2.2]
    exact ⟨rfl, rfl, rfl⟩
  passIdentity := h1
  filterRates := h2
  inWithin := by rw [hp]; exact h3
  outWithin := by rw [hp]; exact h4
  samples _ i h := ⟨0#16, by simp only [hh, zeroHistory, Vector.getElem_replicate]; decide⟩

theorem up_step : val64 up.rs.step = .fin false (oneUnits fmt64 / 2) := by decide +kernel

theorem half_bounds : oneUnits fmt64 ≤ oneUnits fmt64 / 2 * 2 ^ 32 ∧
    oneUnits fmt64 / 2 ≤ oneUnits fmt64 * 2 ^ 32 := by decide +kernel

/-- An idle block at position 0 with the step of `up`. -/
theorem position_of_up {s : State} (h1 : s.rs.step = up.rs.step) (h2 : s.rs.position = 0x0000000000000000#64)
    (h3 : s.seq = .idle) : PositionOk s where
  step _ := ⟨_, by rw [h1]; exact up_step, half_bounds⟩
  position _ := ⟨0, by rw [h2]; decide +kernel, Nat.zero_le _⟩
  emitBelowOne h := by rw [h3] at h; cases h
  renormAtLeastOne h := by rw [h3] at h; cases h

/-- `up` with a sample waiting. -/
def upWaiting : State := { up with inq := [u16 1000] }

theorem upWaiting_sound : Sound upWaiting where
  coherent := coherent_of_live (input := 8000#32) (output := 16000#32) (by decide) (by decide) rfl rfl
    ⟨rfl, rfl, rfl, rfl, rfl⟩ rfl (by intro h; cases h) (by intro h; cases h) trivial (queueWithin_nil _)
  position := position_of_up rfl rfl rfl

/-- `tight` in the middle of an emission that holds on a full `outq`. -/
def tightEmit : State := { tight with seq := .emit, outq := [u16 3] }

theorem tightEmit_coherent : Coherent tightEmit :=
  coherent_of_live (input := 8000#32) (output := 16000#32) (inDepth := .entries 0) (outDepth := .entries 0)
    (by decide) (by decide) rfl rfl ⟨rfl, rfl, rfl, rfl, rfl⟩ rfl (by intro h; cases h)
    (by intro _; decide) (queueWithin_nil _) (Nat.le_refl 1)

/-- An identity block that holds in `E_PASS` on a full `outq`. -/
def samePass : State :=
  { live 8000#32 8000#32 (.entries 0) (.entries 0) with seq := .pass, cur := u16 5, outq := [u16 3] }

theorem samePass_coherent : Coherent samePass :=
  coherent_of_live (input := 8000#32) (output := 8000#32) (inDepth := .entries 0) (outDepth := .entries 0)
    (by decide) (by decide) rfl rfl ⟨rfl, rfl, rfl, rfl, rfl⟩ rfl (by intro _; decide)
    (by intro h; cases h) (queueWithin_nil _) (Nat.le_refl 1)

theorem reset_coherent : Coherent State.reset where
  quiet _ := ⟨rfl, rfl, rfl⟩
  rates h := by cases h
  derived h := by cases h
  passIdentity h := by cases h
  filterRates h := by cases h
  inWithin := trivial
  outWithin := trivial
  samples h := by cases h

/-! ### Engine -/

theorem wit_EPopTakesFrontSample : upWaiting.seq = .idle ∧ upWaiting.inq = u16 1000 :: [] ∧ Coherent upWaiting ∧
    upWaiting.inq ≠ [] := ⟨rfl, rfl, upWaiting_sound.coherent, by decide⟩

theorem wit_EPassForwardsSample : samePass.seq = .pass ∧ outFull samePass = true ∧ Coherent samePass ∧
    ({ same with seq := .pass } : State).seq = .pass ∧ outFull { same with seq := .pass } = false :=
  ⟨rfl, by decide, samePass_coherent, rfl, rfl⟩

theorem wit_EShiftSlidesWindow : ({ up with seq := .shift } : State).seq = .shift := rfl

theorem wit_ETestComparesPosition : ({ up with seq := .test } : State).seq = .test := rfl

theorem wit_PhaseIndexIsExactFloor :
    val64 0x0000000000000000#64 = .fin false 0 ∧ 0 < oneUnits fmt64 ∧
    val64 0x3FEFFFFFFFFFFFFF#64 = .fin false ((2 ^ 53 - 1) * 2 ^ 1021) ∧
    (2 ^ 53 - 1) * 2 ^ 1021 < oneUnits fmt64 := by decide +kernel

theorem wit_EEmitEmitsOneSample : tightEmit.seq = .emit ∧ val64 tightEmit.rs.position = .fin false 0 ∧
    0 < oneUnits fmt64 ∧ outFull tightEmit = true ∧ outFull { tightEmit with outq := [] } = false := by
  decide +kernel

theorem wit_EEmitEmitsOneSample_coherent : Coherent tightEmit := tightEmit_coherent

theorem wit_ERenormSubtractsOne : ({ up with seq := .renorm } : State).seq = .renorm ∧
    val64 0x3FF0000000000000#64 = .fin false (oneUnits fmt64) ∧
    val64 0x3FFFFFFFFFFFFFFF#64 = .fin false ((2 ^ 53 - 1) * 2 ^ 1022) ∧
    oneUnits fmt64 ≤ (2 ^ 53 - 1) * 2 ^ 1022 ∧ (2 ^ 53 - 1) * 2 ^ 1022 < 2 * oneUnits fmt64 := by decide +kernel

theorem wit_EngineWritesOnlyItsElements : ∃ t, engineTurn upWaiting = .next t := ⟨_, rfl⟩

/-- A Resampler at 0.5 steps with an all-zero table. -/
def quietResampler : Resampler := { up.rs with coefficients := Vector.replicate 2048 0#32 }

theorem wit_EngineRunIsPushSample :
    (({ up with rs := quietResampler, inq := [u16 1000] } : State).params.outDepth = .unbounded ∧
      (pushSample up.params 3 quietResampler (u16 1000)).isSome = true ∧
      (pushSample same.params 0 same.rs (u16 1000)).isSome = true) ∧
    (({ up with rs := quietResampler, inq := [u16 1, u16 2, u16 3] } : State).inq = [u16 1, u16 2] ++ [u16 3] ∧
      (processSamples up.params 3 quietResampler [u16 1, u16 2]).isSome = true) := by decide +kernel

theorem wit_ChunkingIsInvisible : (∃ rs' rs'' out out',
    processSamples same.params 0 same.rs [u16 1, u16 2] = some (out, rs') ∧
    processSamples same.params 0 rs' [u16 3] = some (out', rs'')) ∧
    Sound upWaiting ∧ upWaiting.configured = true := ⟨⟨_, _, _, _, rfl, rfl⟩, upWaiting_sound, rfl⟩

theorem wit_IdentityModeCopies : same.rs.inputRate = same.rs.outputRate := rfl

theorem wit_EngineReturnsToIdle : Sound upWaiting ∧ upWaiting.params.outDepth = .unbounded := ⟨upWaiting_sound, rfl⟩

/-- The bits through a turn of the engine and through a transaction of the host that is neither a push nor a
pop. -/
theorem wit_ReadyBitsPersist : Coherent upWaiting ∧ inReady upWaiting = true ∧ Coherent tightEmit ∧
    outValid tightEmit = true ∧
    (∀ s ∈ [upWaiting, tightEmit],
      (∃ t, step { s with schedule := [.engine] } = .next t) ∧
      nextEvent { s with schedule := [.engine] } ≠ .reset ∧
      (∃ t, step { s with schedule := [.host], port := some 0x001000000000#48 } = .next t) ∧
      nextEvent { s with schedule := [.host], port := some 0x001000000000#48 } ≠ .reset ∧
      decode 0x001000000000#48 = .ok .stat) := by
  refine ⟨upWaiting_sound.coherent, by decide, tightEmit_coherent, by decide, ?_⟩
  intro s hs
  rcases List.mem_pair.1 hs with rfl | rfl <;>
    exact ⟨⟨_, rfl⟩, by decide, ⟨_, rfl⟩, by decide, by decide⟩

/-! ### Arithmetic and builder -/

/-- The partial sums of a scalar dot product. -/
def partials (coef hist : Row) : Nat → F32
  | 0 => 0x00000000#32
  | i + 1 => if h : i < 16 then fadd32 (partials coef hist i) (fmul32 coef[i] hist[i]) else 0#32

theorem wit_ScalarDotAccumulatesInOrder (coef hist : Row) : decided.dotMode = .scalar ∧
    partials coef hist 0 = 0x00000000#32 ∧
    ∀ (i : Nat) (h : i < 16), partials coef hist (i + 1) =
      fadd32 (partials coef hist i) (fmul32 coef[i] hist[i]) :=
  ⟨rfl, rfl, fun i h => by simp only [partials, dif_pos h]⟩

theorem wit_ZeroHistoryGivesZero : decided.dotMode = .scalar ∧
    ∀ (i : Nat) (h : i < 16), ∃ n m, val32 (allOf 0xBF800000#32)[i] = .fin n m :=
  ⟨rfl, fun i h => ⟨true, oneUnits fmt32, by simp only [allOf, Vector.getElem_replicate]; decide +kernel⟩⟩

theorem wit_FirstOutputIsOneProduct : decided.dotMode = .scalar ∧
    (∀ (i : Nat) (h : i < 16), ∃ n m, val32 (allOf 0x3D800000#32)[i] = .fin n m) ∧
    (∀ (i : Nat) (h : i < 15), (shiftHistory zeroHistory 0x41800000#32)[i] = 0x00000000#32) ∧
    val32 (fmul32 (allOf 0x3D800000#32)[15] (shiftHistory zeroHistory 0x41800000#32)[15]) =
      .fin false (oneUnits fmt32) ∧ oneUnits fmt32 ≠ 0 := by
  refine ⟨rfl, fun i h => ⟨false, oneUnits fmt32 / 16, ?_⟩, by decide, by decide +kernel, by decide +kernel⟩
  simp only [allOf, Vector.getElem_replicate]
  decide +kernel

/-- A table of sixteenths: every row sums to 1. -/
def flatTable : Table := Vector.replicate 2048 0x3D800000#32

theorem flatTable_row (ph : Fin 128) : phaseRow flatTable ph = allOf 0x3D800000#32 := by
  apply Vector.ext
  intro i h
  simp [phaseRow, flatTable, allOf]

theorem ratOf32_sixteenth : ratOf32 0x3D800000#32 = 1 / 16 := by
  have h : val32 0x3D800000#32 = .fin false (2 ^ 145) := by decide +kernel
  have h1 : oneUnits fmt32 = 2 ^ 149 := by decide +kernel
  unfold ratOf32
  rw [h, h1]
  norm_num [signedUnits]

theorem wit_FiniteTablesGiveFiniteSums : decided.dotMode = .scalar ∧ PFinite flatTable ∧ PL1 2 flatTable ∧
    ∀ (i : Nat) (h : i < 16), ∃ x : Sample, (allOf 0xC7000000#32)[i] = i16ToF32 x := by
  refine ⟨rfl, fun k h => ⟨false, 2 ^ 145, ?_⟩, fun ph => ?_, fun i h => ⟨u16 (-32768), ?_⟩⟩
  · simp only [flatTable, Vector.getElem_replicate]; decide +kernel
  · rw [flatTable_row]
    simp only [allOf, Vector.toList_replicate, List.map_replicate, List.sum_replicate, ratOf32_sixteenth]
    norm_num
  · simp only [allOf, Vector.getElem_replicate]; decide +kernel

theorem wit_SaturatorClampsAndTruncates : decided.outRound = .towardZero ∧ val32 0x7FC00000#32 = .nan ∧
    val32 0x7F800000#32 = .inf false ∧ val32 0xFF800000#32 = .inf true ∧
    val32 0x46FFFE00#32 = .fin false (32767 * oneUnits fmt32) ∧
    val32 0xC7000000#32 = .fin true (32768 * oneUnits fmt32) := by decide +kernel

theorem wit_SaturatorIsMonotone : fge32 0x46FFFE00#32 0xC7000001#32 = true ∧ fge32 0x7F800000#32 0x46FFFDFF#32 = true := by
  decide +kernel

theorem wit_SaturatorIsOddInside : val32 0x46FFFDFF#32 = .fin false (16776703 * 2 ^ 140) ∧
    val32 0xC6FFFDFF#32 = .fin true (16776703 * 2 ^ 140) ∧ 16776703 * 2 ^ 140 < 32767 * oneUnits fmt32 := by
  decide +kernel

/-- The partial sums of a row of raw taps. -/
def tapSums (raw : Nat → F64) : Nat → F64
  | 0 => 0x0000000000000000#64
  | i + 1 => fadd64 (tapSums raw i) (raw i)

/-- The functions of the statement for the up-sampling table, at the phase with the peak and at the last one. -/
theorem wit_TableWordIsNormalisedTap (sin cos : F64 → F64) :
    fge64 (rateRatio 8000#32 16000#32) 0x3FF0000000000000#64 = true ∧
    fge64 (rateRatio 16000#32 8000#32) 0x3FF0000000000000#64 = false ∧ decided.center = .realDivision ∧
    ({ decided with center := .integerDivision } : Params).center = .integerDivision ∧
    ∀ ph : Nat, ∃ x v w raw sum : Nat → F64,
      (∀ i, i < 16 →
        x i = fsub64 (fsub64 (intToF64 i) 0x401E000000000000#64) (fdiv64 (intToF64 ph) 0x4060000000000000#64) ∧
        (flt64 (fabs64 (x i)) 0x3EB0C6F7A0B5ED8D#64 = true →
          v i = fmul64 0x4000000000000000#64 0x3FDCCCCCCCCCCCCD#64) ∧
        (flt64 (fabs64 (x i)) 0x3EB0C6F7A0B5ED8D#64 = false → v i =
          fdiv64 (sin (fmul64 (fmul64 (fmul64 (x i) decided.pi64) 0x4000000000000000#64) 0x3FDCCCCCCCCCCCCD#64))
            (fmul64 (x i) decided.pi64)) ∧
        w i = fsub64 decided.hammingA0 (fmul64 decided.hammingA1 (cos (fdiv64
          (fmul64 (fmul64 0x4000000000000000#64 decided.pi64) (intToF64 ((128 * i + ph : Nat) : Int)))
          0x409FFC0000000000#64))) ∧
        raw i = fmul64 (v i) (w i)) ∧
      sum 0 = 0x0000000000000000#64 ∧ ∀ i, i < 16 → sum (i + 1) = fadd64 (sum i) (raw i) := by
  refine ⟨by decide +kernel, by decide +kernel, rfl, rfl, fun ph => ?_⟩
  refine ⟨fun i => tapOffset 0x401E000000000000#64 ph i,
    fun i => sincTap sin decided.pi64 0x3FDCCCCCCCCCCCCD#64 (tapOffset 0x401E000000000000#64 ph i),
    fun i => windowAt cos decided.hammingA0 decided.hammingA1 decided.pi64 (128 * i + ph),
    rawTap decided sin cos 0x3FDCCCCCCCCCCCCD#64 ph, tapSums (rawTap decided sin cos 0x3FDCCCCCCCCCCCCD#64 ph), ?_,
    rfl, fun _ _ => rfl⟩
  intro i _
  refine ⟨rfl, fun h => ?_, fun h => ?_, rfl, rfl⟩ <;> simp [sincTap, h]

theorem wit_TapOffsetsExactPeakOnce : 127 < 128 ∧ 15 < 16 := by decide

theorem wit_UpsamplingPairsShareTable : (8000#32 : Word) ≠ 0#32 ∧ (1#32 : Word) ≠ 0#32 ∧
    (8000#32 : Word).toNat ≤ (8000#32 : Word).toNat ∧ (1#32 : Word).toNat ≤ (4294967295#32 : Word).toNat := by decide

/-! ### Reset and the whole machine -/

theorem wit_ResetEventPutsResetValues :
    ({ tightEmit with schedule := [.reset], port := some 0x800C00000001#48 } : State).schedule = .reset :: [] := rfl

theorem wit_BehaviourRightAfterReset : State.reset = State.reset ∧ ∃ r, resetEvent up = resetEvent r :=
  ⟨rfl, up, rfl⟩

/-- `upWaiting` with the engine to move. -/
def upTurn : State := { upWaiting with schedule := [.engine] }

theorem upTurn_sound : Sound upTurn where
  coherent := coherent_of_live (input := 8000#32) (output := 16000#32) (by decide) (by decide) rfl rfl
    ⟨rfl, rfl, rfl, rfl, rfl⟩ rfl (by intro h; cases h) (by intro h; cases h) trivial (queueWithin_nil _)
  position := position_of_up rfl rfl rfl

theorem wit_StepKeepsCoherent : Coherent upTurn ∧ ∃ t, step upTurn = .next t := ⟨upTurn_sound.coherent, _, rfl⟩

theorem wit_StepKeepsPositionOk : Sound upTurn ∧ ∃ t, step upTurn = .next t := ⟨upTurn_sound, _, rfl⟩

theorem wit_StepKeepsUnitPosition : UnitPosition upTurn ∧ upTurn.configured = true ∧
    fge64 0x3FF0000000000000#64 upTurn.rs.step = true :=
  ⟨{ between := fun _ _ _ => by decide +kernel, inside := fun _ _ => by decide +kernel }, rfl, by decide +kernel⟩

/-- The refusal the statement allows happens in a sound state. -/
theorem wit_SoundStateNeverFaults : Sound upTurn ∧
    (Sound State.reset ∧ refusalOf (step (State.reset.withFetchWord 48 0x800C00000001)) = some .initZeroRate) := by
  refine ⟨upTurn_sound, ⟨reset_coherent, ⟨?_, ?_, ?_, ?_⟩⟩, by decide⟩ <;> intro h <;> cases h

theorem wit_UnsetElementsAreUnobservable : Coherent State.reset ∧ Coherent { State.reset with cur := 7#16 } ∧
    SameVisible State.reset { State.reset with cur := 7#16 } := by
  refine ⟨reset_coherent, ?_, ?_⟩
  · exact ⟨fun _ => ⟨rfl, rfl, rfl⟩, fun h => (by cases h), fun h => (by cases h), fun h => (by cases h),
      fun h => (by cases h), trivial, trivial, fun h => (by cases h)⟩
  · exact ⟨rfl, rfl, rfl, fun _ => rfl, rfl, rfl, rfl, fun h => (by rcases h with h | h <;> cases h), rfl, rfl,
      rfl, rfl, rfl, rfl⟩

/-- A push outstanding while the engine has a sample to take. -/
def upPushing : State := { upWaiting with port := some 0x801400000001#48 }

theorem upPushing_coherent : Coherent upPushing :=
  coherent_of_live (input := 8000#32) (output := 16000#32) (by decide) (by decide) rfl rfl
    ⟨rfl, rfl, rfl, rfl, rfl⟩ rfl (by intro h; cases h) (by intro h; cases h) trivial (queueWithin_nil _)

theorem wit_HostAndEngineCommute : Coherent upPushing ∧ decode 0x801400000001#48 ≠ .ok .stat ∧
    engineEnabled upPushing = true ∧ (∃ a, hostTurn upPushing = .next a ∧ a.port = none) ∧
    ∃ b, engineTurn upPushing = .next b :=
  ⟨upPushing_coherent, by decide, rfl, ⟨_, rfl, rfl⟩, ⟨_, rfl⟩⟩

/-- An identity block with a push and a pop to issue. -/
def sameProgram : State := { same with program := [0x801400000005#48, 0x001800000000#48] }

theorem sameProgram_sound : Sound sameProgram where
  coherent := coherent_of_live (input := 8000#32) (output := 8000#32) (by decide) (by decide) rfl rfl
    ⟨rfl, rfl, rfl, rfl, rfl⟩ rfl (by intro h; cases h) (by intro h; cases h) (queueWithin_nil _) (queueWithin_nil _)
  position :=
    { step := fun _ => ⟨oneUnits fmt64, by decide +kernel, by decide +kernel, by decide +kernel⟩
      position := fun _ => ⟨0, by decide +kernel, Nat.zero_le _⟩
      emitBelowOne := by intro h; cases h
      renormAtLeastOne := by intro h; cases h }

/-- Two schedules and two pairs of depths under which the program completes, a hold in one of them. -/
theorem wit_ResponsesIndependentOfInterleaving : Sound sameProgram ∧ sameProgram.trace = [] ∧
    (∃ t, run 4 { sameProgram with
        schedule := [.host, .engine, .engine, .host]
        params := { sameProgram.params with inDepth := .unbounded, outDepth := .unbounded } } = .next t ∧
      t.program = [] ∧ t.port = none) ∧
    (∃ t, run 5 { sameProgram with
        schedule := [.host, .host, .engine, .engine, .host]
        params := { sameProgram.params with inDepth := .entries 0, outDepth := .entries 2 } } = .next t ∧
      t.program = [] ∧ t.port = none) :=
  ⟨sameProgram_sound, rfl, ⟨_, rfl, rfl, rfl⟩, ⟨_, rfl, rfl, rfl⟩⟩

theorem wit_StepSendsAtMostOneResponse : ∃ t, step (State.reset.withFetchWord 48 0x001C00000000) = .next t := ⟨_, rfl⟩

/-- A step of the engine while an `INIT` is outstanding, and the step of the host that completes one. -/
theorem wit_ConfigurationChangesOnlyByInitOrReset :
    (∃ t, step { upTurn with port := some 0x800C00000001#48 } = .next t) ∧
    (∃ t, step { up with schedule := [.host], port := some 0x800C00000001#48 } = .next t ∧ t.port = none) ∧
    decode 0x800C00000001#48 = .ok .init := ⟨⟨_, rfl⟩, ⟨_, rfl, rfl⟩, by decide⟩

theorem wit_InitIsDrainBarrier : ∃ t, exec .init up = .next t ∧ t ≠ up :=
  ⟨_, rfl, fun h => absurd (congrArg State.trace h) (by decide)⟩

/-- An identity block with a sample waiting and a host that has nothing more to issue. -/
def sameWaiting : State := { same with inq := [u16 5] }

theorem sameWaiting_sound : Sound sameWaiting where
  coherent := coherent_of_live (input := 8000#32) (output := 8000#32) (by decide) (by decide) rfl rfl
    ⟨rfl, rfl, rfl, rfl, rfl⟩ rfl (by intro h; cases h) (by intro h; cases h) trivial (queueWithin_nil _)
  position :=
    { step := fun _ => ⟨oneUnits fmt64, by decide +kernel, by decide +kernel, by decide +kernel⟩
      position := fun _ => ⟨0, by decide +kernel, Nat.zero_le _⟩
      emitBelowOne := by intro h; cases h
      renormAtLeastOne := by intro h; cases h }

/-- Host and engine in turn. -/
def alternate (k : Nat) : Event := if k % 2 = 0 then .host else .engine

/-- What the run of `sameWaiting` keeps. -/
def Passing (s : State) : Prop :=
  (s.seq = .idle ∨ s.seq = .pass) ∧ ratesEqual s.rs = true ∧ s.port = none ∧ s.program = [] ∧
    s.params.outDepth = .unbounded

theorem passing_turn {e : Event} (he : e ≠ .reset) {s : State} (h : Passing s) :
    ∃ t, takeTurn e s = .next t ∧ Passing t := by
  obtain ⟨h2, h3, h4, h5, h6⟩ := h
  cases e with
  | host => exact ⟨s, by simp only [takeTurn, hostTurn, h4, h5], h2, h3, h4, h5, h6⟩
  | engine =>
    have hf : outFull s = false := by unfold outFull; rw [h6]; rfl
    rcases h2 with h2 | h2
    · cases hq : s.inq with
      | nil => exact ⟨s, by simp only [takeTurn, engineTurn, h2, hq], .inl h2, h3, h4, h5, h6⟩
      | cons x rest =>
        exact ⟨ePop x rest s, by simp only [takeTurn, engineTurn, h2, hq], .inr (by simp only [ePop, h3, if_true]),
          h3, h4, h5, h6⟩
    · exact ⟨ePass s, by simp only [takeTurn, engineTurn, h2, hf]; rfl, .inl rfl, h3, h4, h5, h6⟩
  | reset => exact absurd rfl he

theorem alternate_ne_reset (k : Nat) : alternate k ≠ .reset := by
  unfold alternate; split <;> decide

theorem passing_run (k : Nat) : ∃ t, runUnder alternate k sameWaiting = .next t ∧ Passing t := by
  induction k with
  | zero => exact ⟨_, rfl, .inl rfl, by decide, rfl, rfl, rfl⟩
  | succ k ih =>
    obtain ⟨t, h1, h⟩ := ih
    obtain ⟨u, hu, hp⟩ := passing_turn (alternate_ne_reset k)
      (s := consumeTurn { t with schedule := [alternate k] }) h
    exact ⟨u, by simp only [runUnder, h1]; exact hu, hp⟩

theorem wit_FairRunsProcessEverySample : Sound sameWaiting ∧ Fair alternate sameWaiting ∧
    (∀ k, alternate k ≠ .reset) ∧ (∀ k, ∃ t, runUnder alternate k sameWaiting = .next t) ∧
    HostKeepsPopping alternate sameWaiting := by
  refine ⟨sameWaiting_sound, ⟨fun k _ => ⟨2 * k + 1, by omega, ?_⟩, fun k _ => ⟨2 * k, by omega, ?_⟩⟩,
    alternate_ne_reset, fun k => ?_, fun k t h hfull => ?_⟩
  · unfold alternate; rw [if_neg (by omega)]
  · unfold alternate; rw [if_pos (by omega)]
  · obtain ⟨t, h, -⟩ := passing_run k
    exact ⟨t, h⟩
  · obtain ⟨u, hu, -, -, -, -, h6⟩ := passing_run k
    rw [h] at hu
    cases hu
    unfold outFull at hfull
    rw [h6] at hfull
    cases hfull

end Sys2Proof.Tests
end

section
/-! The decoder, said once (30_encoding.md R93, R97, R99): what it answers at each of its tests, and what it
answers on a word built from its fields. -/

namespace Sys2Proof

/-! ## The decoder's tests, in the order of R99 -/

theorem regOffset_toNat_le (reg : Reg) : (regOffset reg).toNat ≤ 0x18 := by
  cases reg <;> decide

/-- The reserved offsets of 10_state.md R34 name no register. -/
theorem regAt_eq_none_of_gt {off : BitVec 8} (h : 0x18 < off.toNat) : regAt off = none := by
  cases hreg : regAt off with
  | none => rfl
  | some reg =>
    have hle := regOffset_toNat_le reg
    rw [← regAt_some hreg] at hle
    omega

/-- `ADDR[1:0]` is `T[33:32]`. -/
theorem addrOf_extractLsb'_two (w : Bus48) : (addrOf w).extractLsb' 0 2 = w.extractLsb' 32 2 := by
  ext i hi
  have hbyte : i < 8 := by omega
  simp [addrOf, hbyte]

theorem decode_eq_rsvd {w : Bus48} (h : rsvdOf w ≠ 0#7) : decode w = .error .rsvd := if_pos h

theorem decode_eq_align {w : Bus48} (hr : rsvdOf w = 0#7) (ha : (addrOf w).extractLsb' 0 2 ≠ 0#2) :
    decode w = .error .align := by
  simp [decode, hr, ha]

theorem decode_eq_unmapped {w : Bus48} (hr : rsvdOf w = 0#7) (ha : (addrOf w).extractLsb' 0 2 = 0#2)
    (hm : regAt (addrOf w) = none) : decode w = .error .unmapped := by
  simp [decode, hr, ha, hm]

theorem decode_eq_decodeAccess {w : Bus48} {reg : Reg} (hr : rsvdOf w = 0#7) (ha : addrOf w = regOffset reg) :
    decode w = decodeAccess (weOf w) reg (dataOf w) := by
  simp [decode, hr, ha, regOffset_aligned]

theorem rsvdOf_eq_zero_of_decode_ok {w : Bus48} {i : Instr} (h : decode w = .ok i) : rsvdOf w = 0#7 := by
  by_contra hr
  rw [decode_eq_rsvd hr] at h
  cases h

/-! ## Words built from their fields -/

/-- A word that names a register is that access to it. -/
@[simp] theorem decode_busWord_regOffset (we : Bool) (reg : Reg) (data : Word) :
    decode (busWord we (regOffset reg) data) = decodeAccess we reg data := by
  rw [decode_eq_decodeAccess (rsvdOf_busWord ..) (addrOf_busWord ..), weOf_busWord, dataOf_busWord]

/-- The same with `WE`, `RSVD` and `ADDR` written as the 16-bit prefix of the word. -/
theorem decode_prefix_append (we : Bool) (reg : Reg) (data : Word) :
    decode (((BitVec.ofBool we ++ 0#7) ++ regOffset reg) ++ data) = decodeAccess we reg data :=
  decode_busWord_regOffset we reg data

/-- Data bits that no register's access reads do not change the operation, whatever the offset. -/
theorem decode_busWord_congr {we : Bool} {data data' : Word}
    (h : ∀ reg, decodeAccess we reg data = decodeAccess we reg data') (off : BitVec 8) :
    decode (busWord we off data) = decode (busWord we off data') := by
  simp [decode, h]

/-- A read takes no data. -/
theorem decodeAccess_read_congr (data data' : Word) (reg : Reg) :
    decodeAccess false reg data = decodeAccess false reg data' := by
  cases reg <;> rfl

/-! ## The writes whose data is an operand (R93) -/

theorem decode_write_inRate (data : Word) : decode (busWord true 0x04#8 data) = .ok (.setin data) :=
  decode_busWord_regOffset true .inRate data

theorem decode_write_outRate (data : Word) : decode (busWord true 0x08#8 data) = .ok (.setout data) :=
  decode_busWord_regOffset true .outRate data

theorem decode_write_ctrl (data : Word) :
    decode (busWord true 0x0C#8 data) = if data.getLsbD 0 then .ok .init else .ok .ctrlnop :=
  decode_busWord_regOffset true .ctrl data

theorem decode_write_dataIn (data : Word) :
    decode (busWord true 0x14#8 data) = .ok (.push (data.extractLsb' 0 16)) :=
  decode_busWord_regOffset true .dataIn data

/-- The two's complement reading of the low half of a word, over the word's value. -/
theorem s16_extractLsb' (data : Word) :
    s16 (data.extractLsb' 0 16) = if data.toNat % 65536 < 32768 then ((data.toNat % 65536 : Nat) : Int)
      else ((data.toNat % 65536 : Nat) : Int) - 65536 := by
  have hlow : (data.extractLsb' 0 16).toNat = data.toNat % 65536 := by
    simp [BitVec.extractLsb'_toNat]
  rw [s16, BitVec.toInt_eq_toNat_cond, hlow]
  split <;> split <;> omega

theorem getLsbD_zero_iff_odd (data : Word) : data.getLsbD 0 = true ↔ data.toNat % 2 = 1 := by
  simp [BitVec.getLsbD, Nat.testBit_zero]

end Sys2Proof
end

section
/-! The obligations of 30_encoding.md about the decoder: R99, R97 and R93. -/

open Sys2Proof

/-- Settles O4: each test of the list by its own rule, the fourteen cases as accesses to the seven registers. -/
theorem decoderFollowsRuleR99 : Obligations.DecoderFollowsRuleR99 := by
  refine ⟨fun w => ⟨decode_eq_rsvd, fun hr ha => decode_eq_align hr ?_, fun hr ha hm =>
    decode_eq_unmapped hr ?_ (regAt_eq_none_of_gt hm)⟩, fun d => ?_⟩
  · rwa [addrOf_extractLsb'_two]
  · rwa [addrOf_extractLsb'_two]
  · exact ⟨decode_prefix_append false .params d, decode_prefix_append true .params d,
      decode_prefix_append false .inRate d, decode_prefix_append true .inRate d,
      decode_prefix_append false .outRate d, decode_prefix_append true .outRate d,
      decode_prefix_append false .ctrl d, decode_prefix_append true .ctrl d,
      decode_prefix_append false .status d, decode_prefix_append true .status d,
      decode_prefix_append false .dataIn d, decode_prefix_append true .dataIn d,
      decode_prefix_append false .dataOut d, decode_prefix_append true .dataOut d⟩

/-- Settles O5: reads take no data, and the two writes read only the bits assumed equal. -/
theorem ignoredBitsDoNotMatter : Obligations.IgnoredBitsDoNotMatter := by
  refine ⟨fun off d d' => decode_busWord_congr (decodeAccess_read_congr d d') off, fun d d' h => ?_,
    fun d d' h => ?_, fun _ _ => rsvdOf_eq_zero_of_decode_ok⟩
  · rw [decode_write_dataIn, decode_write_dataIn, h]
  · rw [decode_write_ctrl, decode_write_ctrl, h]

/-- Settles O6: the operand of each write, the sample and the control bit read over the data's value. -/
theorem operandsAreAssembled : Obligations.OperandsAreAssembled := by
  refine ⟨fun d => ⟨decode_write_inRate d, decode_write_outRate d⟩,
    fun d => ⟨_, decode_write_dataIn d, s16_extractLsb' d⟩, fun d => ?_⟩
  rw [decode_write_ctrl]
  simp only [getLsbD_zero_iff_odd]
end

section
/-! The turn of the engine, said once for each place of the sequencer (41_streaming_engine.md R151 to R155), with
the exact values its arithmetic rests on: the conversion of a sample and the phase of a position below 1.0. -/

namespace Sys2Proof.Machine

/-! ## Equations of the engine's turn -/

theorem ratesEqual_iff (rs : Resampler) : ratesEqual rs = true ↔ rs.inputRate = rs.outputRate := by
  simp [ratesEqual]

theorem engineEnabled_idle {s : State} (h : s.seq = .idle) : engineEnabled s = true ↔ s.inq ≠ [] := by
  simp [engineEnabled, h]

/-- The two places that write `outq` wait for room in it (R152, R155). -/
theorem engineEnabled_output {s : State} (h : s.seq = .pass ∨ s.seq = .emit) :
    engineEnabled s = !outFull s := by
  rcases h with h | h <;> simp [engineEnabled, h]

theorem engineEnabled_shift {s : State} (h : s.seq = .shift) : engineEnabled s = true := by
  simp [engineEnabled, h]

theorem engineEnabled_test {s : State} (h : s.seq = .test) : engineEnabled s = true := by
  simp [engineEnabled, h]

theorem engineTurn_idle_cons {s : State} {x : Sample} {rest : List Sample} (h : s.seq = .idle)
    (hq : s.inq = x :: rest) : engineTurn s = .next (ePop x rest s) := by
  simp [engineTurn, h, hq]

theorem engineTurn_pass {s : State} (h : s.seq = .pass) (hf : outFull s = false) :
    engineTurn s = .next (ePass s) := by
  simp [engineTurn, h, hf]

theorem engineTurn_shift {s : State} (h : s.seq = .shift) : engineTurn s = .next (eShift s) := by
  simp [engineTurn, h]

theorem engineTurn_test {s : State} (h : s.seq = .test) : engineTurn s = .next (eTest s) := by
  simp [engineTurn, h]

theorem engineTurn_emit {s : State} {ph : Fin 128} (h : s.seq = .emit) (hf : outFull s = false)
    (hph : phaseIndex s.rs.position = some ph) :
    engineTurn s = .next { s with
      outq := pushBack s.outq (outputSample s.params s.rs ph)
      rs := { s.rs with position := advancePosition s.rs.position s.rs.step }
      seq := .test } := by
  simp [engineTurn, h, hf, eEmit, hph]

/-! ## The hold on a full `outq` -/

theorem engineTurn_output_full {s : State} (h : s.seq = .pass ∨ s.seq = .emit) (hf : outFull s = true) :
    engineTurn s = .next s := by
  rcases h with h | h <;> simp [engineTurn, h, hf]

/-- A full queue has a front, and is not full without it. -/
theorem queueFull_eq_true_cases {d : Depth} {q : List Sample} (h : queueFull d q = true) :
    ∃ x rest, q = x :: rest ∧ queueFull d rest = false := by
  cases d with
  | unbounded => cases h
  | entries more =>
    cases q with
    | nil => cases h
    | cons x rest =>
      rw [queueFull_entries, List.length_cons] at h
      refine ⟨x, rest, rfl, Bool.eq_false_iff.2 fun hrest => ?_⟩
      rw [queueFull_entries] at hrest
      omega

theorem exec_pop_cons {s : State} {x : Sample} {rest : List Sample} (h : s.outq = x :: rest) :
    exec .pop s = .next (respond (sampleWord x) { s with outq := rest }) := by
  simp [exec, execPop, h]

/-- A `POP` makes room in a full `outq`, and with it the step that writes `outq` is enabled. -/
theorem exec_pop_lifts_hold {s : State} (h : s.seq = .pass ∨ s.seq = .emit) (hf : outFull s = true) :
    ∃ t, exec .pop s = .next t ∧ engineEnabled t = true := by
  obtain ⟨x, rest, hq, hroom⟩ := queueFull_eq_true_cases hf
  have henabled := engineEnabled_output (s := respond (sampleWord x) { s with outq := rest }) h
  exact ⟨_, exec_pop_cons hq, henabled.trans (congrArg (!·) hroom)⟩

/-! ## Exact values -/

/-- A whole number of ones as an exact value, its sign that of the number. -/
theorem exactOfInt_ones (z : Int) {one : Nat} (h : 0 < one) :
    exactOfInt false (z * (one : Int)) 1 = .ratio (decide (z < 0)) (z.natAbs * one * 1) 1 := by
  have hneg : z * (one : Int) < 0 ↔ z < 0 :=
    lt_iff_lt_of_le_iff_le (mul_nonneg_iff_of_pos_right (by exact_mod_cast h))
  unfold exactOfInt
  congr 1
  · by_cases hz : z = 0
    · simp [hz]
    · simp [hz, hneg, h.ne']
  · rw [Int.natAbs_mul, Int.natAbs_natCast, Nat.mul_one]

/-- Every sample converts exactly (43_output_saturator.md R200): its magnitude has at most 16 bits. -/
theorem val32_i16ToF32 (x : Sample) :
    val32 (i16ToF32 x) = .fin (decide (s16 x < 0)) ((s16 x).natAbs * oneUnits fmt32) := by
  have hlt : s16 x < 2 ^ 15 := BitVec.toInt_lt
  have hge : -2 ^ 15 ≤ s16 x := BitVec.le_toInt x
  have hrep : Representable fmt32 ((s16 x).natAbs * oneUnits fmt32) :=
    representable32 _ (unitExp fmt32) (by omega) (by decide)
  rw [i16ToF32, exactOfInt_ones _ (oneUnits_pos _)]
  exact val32_round32_exact 0#32 _ Nat.one_pos hrep

theorem val64_128 : val64 0x4060000000000000#64 = .fin false (128 * oneUnits fmt64) := by
  decide +kernel

/-- R158: below 1.0 the scaling by 128 only moves the exponent, so it does not round. -/
theorem val64_fmul64_128 {position : F64} {m : Nat} (hp : val64 position = .fin false m)
    (hm : m < oneUnits fmt64) : val64 (fmul64 position 0x4060000000000000#64) = .fin false (m * 128) := by
  have hrep : Representable fmt64 (m * 128) := (representable_of_val64 hp).times128 hm
  have hprod : m * (128 * oneUnits fmt64) = m * 128 * oneUnits fmt64 := (Nat.mul_assoc ..).symm
  obtain ⟨r, hr, hle, hge⟩ := fmul64_nonneg hp val64_128 hrep hprod.le
  rw [hr, Nat.le_antisymm hle (hge _ hrep hprod.ge)]

theorem floor64Int_nonneg {a : F64} {m : Nat} (h : val64 a = .fin false m) :
    floor64Int a = some ((m / oneUnits fmt64 : Nat) : Int) := by
  rw [floor64Int, h, Int.natCast_div]
  rfl

/-- A position whose scaled floor is a phase selects that phase. -/
theorem phaseIndex_eq_some {position : F64} {ph : Fin 128}
    (h : floor64Int (fmul64 position 0x4060000000000000#64) = some (ph.val : Int)) :
    phaseIndex position = some ph := by
  simp [phaseIndex, h]

/-- R158: a position below 1.0 has a phase, the floor of its exact product with 128. -/
theorem exists_phaseIndex_of_lt_one {position : F64} {m : Nat} (hp : val64 position = .fin false m)
    (hm : m < oneUnits fmt64) : ∃ ph : Fin 128, ph.val = m * 128 / oneUnits fmt64 ∧
      floor64Int (fmul64 position 0x4060000000000000#64) = some (ph.val : Int) ∧
      phaseIndex position = some ph := by
  have hlt : m * 128 / oneUnits fmt64 < 128 := by
    rw [Nat.div_lt_iff_lt_mul (oneUnits_pos _)]
    omega
  have hfloor := floor64Int_nonneg (val64_fmul64_128 hp hm)
  exact ⟨⟨_, hlt⟩, rfl, hfloor, phaseIndex_eq_some hfloor⟩

end Sys2Proof.Machine
end

section
/-! The obligations of 41_streaming_engine.md about `E_POP` to `E_EMIT`: R151 to R155. -/

open Sys2Proof Sys2Proof.Machine

/-- Settles O24: the turn is `ePass` with room in `outq`, and the shared hold without. -/
theorem ePassForwardsSample : Obligations.EPassForwardsSample := by
  intro s hs
  have hout := engineEnabled_output (.inl hs)
  constructor
  · intro hf
    exact ⟨by simp [hout, hf], engineTurn_pass hs hf⟩
  · intro hf
    exact ⟨by simp [hout, hf], engineTurn_output_full (.inl hs) hf, fun _ => exec_pop_lifts_hold (.inl hs) hf⟩

/-- Settles O25: the new history is `shiftHistory`, its last word the exact conversion of `cur`. -/
theorem eShiftSlidesWindow : Obligations.EShiftSlidesWindow := by
  intro s hs
  refine ⟨engineEnabled_shift hs, shiftHistory s.rs.history (i16ToF32 s.cur), shiftHistory_get _ _,
    shiftHistory_last _ _, ?_, engineTurn_shift hs⟩
  rw [shiftHistory_last]
  exact val32_i16ToF32 s.cur

/-- Settles O28: below 1.0 the scaled position is exact and its floor is a phase, whose row `E_EMIT` takes; without
room in `outq` the hold is the one of `E_PASS`. -/
theorem eEmitEmitsOneSample : Obligations.EEmitEmitsOneSample := by
  intro s m hs hp hm
  have hout := engineEnabled_output (.inr hs)
  constructor
  · intro hf
    obtain ⟨ph, hval, hfloor, hph⟩ := exists_phaseIndex_of_lt_one hp hm
    exact ⟨by simp [hout, hf], ph, phaseRow s.rs.coefficients ph, val64_fmul64_128 hp hm, hfloor, hval,
      phaseRow_get _ ph, engineTurn_emit hs hf hph⟩
  · intro hf
    exact ⟨by simp [hout, hf], engineTurn_output_full (.inr hs) hf, fun _ => exec_pop_lifts_hold (.inr hs) hf⟩

/-- Settles O23: `ePop` branches on `ratesEqual`, the equality of the two active rates; a block that is not
configured has an empty `inq`. -/
theorem ePopTakesFrontSample : Obligations.EPopTakesFrontSample := by
  refine ⟨fun s hs => ⟨engineEnabled_idle hs, fun hc hq => ?_⟩, fun s x rest hs hq => ?_⟩
  · by_contra hconf
    obtain ⟨-, hempty, -⟩ := hc.quiet (Bool.eq_false_iff.2 hconf)
    exact hq hempty
  · rw [engineTurn_idle_cons hs hq]
    simp only [ePop, ratesEqual_iff]

/-- Settles O26: `eTest` branches on `moreOutputs`, the comparison with 1.0. -/
theorem eTestComparesPosition : Obligations.ETestComparesPosition :=
  fun _ hs => ⟨engineEnabled_test hs, engineTurn_test hs⟩
end

section
/-! The scalar dot product (42_dot_product_mac.md R182): its partial sums, in index order. -/

namespace Sys2Proof.Machine

/-- `Dot` under this hardware's mode (R186). -/
theorem dot_of_scalar {p : Params} (h : p.dotMode = .scalar) (coef hist : Row) :
    dot p coef hist = dotScalar coef hist := by
  unfold dot
  rw [h]

/-- A sequence that takes one step of `f` per element of a list, in index order, ends at the list's left fold. -/
theorem foldl_eq_of_partials {α β : Type} (f : β → α → β) (l : List α) (acc : Nat → β)
    (h : ∀ (i : Nat) (hi : i < l.length), acc (i + 1) = f (acc i) l[i]) :
    l.foldl f (acc 0) = acc l.length := by
  induction l generalizing acc with
  | nil => rfl
  | cons x l ih =>
    have hfirst : acc 1 = f (acc 0) x := h 0 (Nat.succ_pos _)
    have htail := ih (fun i => acc (i + 1)) fun i hi => h (i + 1) (Nat.succ_lt_succ hi)
    rw [List.foldl_cons, ← hfirst]
    exact htail

/-- The scalar datapath's partial sums: from `+0.0`, a rounded sum of a rounded product per tap (R182). -/
theorem dotScalar_eq_of_partials (coef hist : Row) (acc : Nat → F32) (h0 : acc 0 = 0x00000000#32)
    (hstep : ∀ (i : Nat) (h : i < 16), acc (i + 1) = fadd32 (acc i) (fmul32 coef[i] hist[i])) :
    dotScalar coef hist = acc 16 := by
  have hlen : (List.zip coef.toList hist.toList).length = 16 := by simp
  have hfold := foldl_eq_of_partials (fun s ch => fadd32 s (fmul32 ch.1 ch.2))
    (List.zip coef.toList hist.toList) acc fun i hi => by simpa using hstep i (hlen ▸ hi)
  rwa [hlen, h0] at hfold

end Sys2Proof.Machine
end

section
open Sys2Proof Sys2Proof.Machine

/-- Settles O36: the mode is `scalar` by definition, and the fold over the taps runs through the partial sums. -/
theorem scalarDotAccumulatesInOrder : Obligations.ScalarDotAccumulatesInOrder := by
  refine ⟨fun _ _ _ => rfl, fun p coef hist acc hmode h0 hstep => ?_⟩
  rw [dot_of_scalar hmode]
  exact dotScalar_eq_of_partials coef hist acc h0 hstep
end

section
/-! The saturator, said once for each kind of value (43_output_saturator.md R201 to R204): it clamps the integer a
finite value is rounded to, whichever rounding `OUT_ROUND` names. -/

namespace Sys2Proof.Machine

theorem signedUnits_false (m : Nat) : signedUnits false m = m := rfl

theorem signedUnits_true (m : Nat) : signedUnits true m = -(m : Int) := rfl

/-! ## The rounding of a magnitude to a whole number (R203) -/

/-- The whole number a magnitude in units is rounded to. -/
def roundMagnitude (mode : OutRound) (m : Nat) : Nat :=
  match mode with
  | .towardZero => m / oneUnits fmt32
  | .nearestEven => divNearestEven m (oneUnits fmt32)

theorem roundToInt_fin (mode : OutRound) {y : F32} {neg : Bool} {m : Nat} (h : val32 y = .fin neg m) :
    roundToInt mode y = signedUnits neg (roundMagnitude mode m) := by
  rw [roundToInt, h]
  rfl

theorem roundMagnitude_mono (mode : OutRound) {m n : Nat} (h : m ≤ n) :
    roundMagnitude mode m ≤ roundMagnitude mode n := by
  have hpos := oneUnits_pos fmt32
  cases mode with
  | towardZero => exact Nat.div_le_div_right h
  | nearestEven => exact divNearestEven_mono hpos hpos (Nat.mul_le_mul_right _ h)

theorem roundMagnitude_exact (mode : OutRound) (q : Nat) : roundMagnitude mode (q * oneUnits fmt32) = q := by
  have hpos := oneUnits_pos fmt32
  cases mode with
  | towardZero => exact Nat.mul_div_cancel q hpos
  | nearestEven => exact divNearestEven_exact q hpos

/-- A magnitude at or above a whole number is rounded to no less. -/
theorem le_roundMagnitude (mode : OutRound) {q m : Nat} (h : q * oneUnits fmt32 ≤ m) :
    q ≤ roundMagnitude mode m :=
  (roundMagnitude_exact mode q).symm.trans_le (roundMagnitude_mono mode h)

/-- A magnitude at or below a whole number is rounded to no more. -/
theorem roundMagnitude_le (mode : OutRound) {q m : Nat} (h : m ≤ q * oneUnits fmt32) :
    roundMagnitude mode m ≤ q :=
  (roundMagnitude_mono mode h).trans_eq (roundMagnitude_exact mode q)

/-! ## The two bounds and the comparison with them -/

theorem val32_upperBound : val32 0x46FFFE00#32 = .fin false (32767 * oneUnits fmt32) := by
  decide +kernel

theorem val32_lowerBound : val32 0xC7000000#32 = .fin true (32768 * oneUnits fmt32) := by
  decide +kernel

theorem fge32_fin {y z : F32} {s t : Bool} {m n : Nat} (hy : val32 y = .fin s m) (hz : val32 z = .fin t n) :
    fge32 y z = true ↔ signedUnits t n ≤ signedUnits s m := by
  simp [fge32, hy, hz, leVal]

/-- An integer in the sample range is read back from its pattern. -/
theorem s16_u16 {n : Int} (hlow : -32768 ≤ n) (hhigh : n ≤ 32767) : s16 (u16 n) = n :=
  BitVec.toInt_ofInt_eq_self (by decide) hlow (Int.lt_add_one_of_le hhigh)

/-! ## The saturator by the value it reads -/

theorem saturate_nan (p : Params) {y : F32} (h : val32 y = .nan) : saturate p y = p.satNan := by
  simp [saturate, isNaN32, h]

theorem saturate_posInf (p : Params) {y : F32} (h : val32 y = .inf false) : saturate p y = u16 32767 := by
  simp [saturate, isNaN32, fge32, leVal, h, val32_upperBound]

theorem saturate_negInf (p : Params) {y : F32} (h : val32 y = .inf true) : saturate p y = u16 (-32768) := by
  simp [saturate, isNaN32, fge32, leVal, h, val32_upperBound, val32_lowerBound]

/-- The three branches of a finite value, their tests over its units. -/
theorem saturate_fin (p : Params) {y : F32} {neg : Bool} {m : Nat} (h : val32 y = .fin neg m) :
    saturate p y =
      if 32767 * (oneUnits fmt32 : Int) ≤ signedUnits neg m then u16 32767
      else if signedUnits neg m ≤ -(32768 * (oneUnits fmt32 : Int)) then u16 (-32768)
      else u16 (signedUnits neg (roundMagnitude p.outRound m)) := by
  have hnan : isNaN32 y = false := by simp [isNaN32, h]
  have hhigh := fge32_fin h val32_upperBound
  have hlow := fge32_fin val32_lowerBound h
  simp only [signedUnits_false, signedUnits_true, Nat.cast_mul, Nat.cast_ofNat] at hhigh hlow
  simp only [saturate, hnan, hhigh, hlow, roundToInt_fin _ h, Bool.false_eq_true, if_false]

/-- From 0 up only the upper bound is met. -/
theorem s16_saturate_nonneg (p : Params) {y : F32} {m : Nat} (h : val32 y = .fin false m) :
    s16 (saturate p y) = min 32767 (roundMagnitude p.outRound m : Int) := by
  have hpos := oneUnits_pos fmt32
  rw [saturate_fin p h, signedUnits_false, signedUnits_false]
  by_cases hhigh : 32767 * oneUnits fmt32 ≤ m
  · have hround := le_roundMagnitude p.outRound hhigh
    rw [if_pos (by omega), s16_u16 (by decide) (by decide)]
    omega
  · have hround := roundMagnitude_le p.outRound (Nat.le_of_not_le hhigh)
    rw [if_neg (by omega), if_neg (by omega), s16_u16 (by omega) (by omega)]
    omega

/-- From 0 down only the lower bound is met. -/
theorem s16_saturate_nonpos (p : Params) {y : F32} {m : Nat} (h : val32 y = .fin true m) :
    s16 (saturate p y) = max (-32768) (-(roundMagnitude p.outRound m : Int)) := by
  have hpos := oneUnits_pos fmt32
  rw [saturate_fin p h, signedUnits_true, signedUnits_true]
  rw [if_neg (by omega)]
  by_cases hlow : 32768 * oneUnits fmt32 ≤ m
  · have hround := le_roundMagnitude p.outRound hlow
    rw [if_pos (by omega), s16_u16 (by decide) (by decide)]
    omega
  · have hround := roundMagnitude_le p.outRound (Nat.le_of_not_le hlow)
    rw [if_neg (by omega), s16_u16 (by omega) (by omega)]
    omega

end Sys2Proof.Machine
end

section
/-! The obligation of 43_output_saturator.md about the clamp and the truncation: R201, R202, R204. -/

open Sys2Proof Sys2Proof.Machine

/-- Settles O40: one rule of the saturator for each kind of value; toward zero, the whole number a magnitude is
rounded to is its quotient by 1.0. -/
theorem saturatorClampsAndTruncates : Obligations.SaturatorClampsAndTruncates := by
  refine ⟨fun _ _ _ => ⟨rfl, rfl⟩, fun p y hmode => ?_⟩
  have htrunc (m : Nat) : roundMagnitude p.outRound m = m / oneUnits fmt32 := by rw [hmode]; rfl
  refine ⟨saturate_nan p, fun h => ?_, fun h => ?_, fun m h => ?_, fun m h => ?_⟩
  · rw [saturate_posInf p h, s16_u16 (by decide) (by decide)]
  · rw [saturate_negInf p h, s16_u16 (by decide) (by decide)]
  · rw [s16_saturate_nonneg p h, htrunc]
  · rw [s16_saturate_nonpos p h, htrunc]
end

section
/-! The host's operations, said once (44_host_operations.md R216 to R225): the flags of `STATUS` bit by bit, the
words the reads answer, and the outcome of each operation. -/

namespace Sys2Proof.Machine

/-! ## The bits of `STATUS` (10_state.md R31) -/

theorem busy_iff (s : State) : busy s = true ↔ s.seq ≠ .idle ∨ s.inq ≠ [] := by
  simp [busy]

theorem inReady_iff (s : State) : inReady s = true ↔ s.configured = true ∧ inFull s = false := by
  simp [inReady]

theorem outValid_iff (s : State) : outValid s = true ↔ s.outq ≠ [] := by
  simp [outValid]

theorem identity_iff (s : State) :
    identity s = true ↔ s.configured = true ∧ s.rs.inputRate = s.rs.outputRate := by
  simp [identity, ratesEqual_iff]

/-- The five flags of `STATUS`, bit 0 first. -/
def statusFlags (s : State) : List Bool := [s.configured, busy s, inReady s, outValid s, identity s]

/-- `STATUS` lists the flags from bit 0 up and is zero above them. -/
theorem getLsbD_statusWord (s : State) (i : Nat) : (statusWord s).getLsbD i = (statusFlags s).getD i false := by
  simp only [statusWord, statusFlags, BitVec.getLsbD_cast, BitVec.getLsbD_append]
  match i with
  | 0 | 1 | 2 | 3 | 4 => simp
  | i + 5 => simp

/-! ## The words the other reads answer -/

theorem paramsWord_eq : paramsWord = 0x00100080#32 := by decide

/-- Sign extension keeps the two's complement reading (30_encoding.md R94). -/
theorem toInt_sampleWord (x : Sample) : (sampleWord x).toInt = s16 x :=
  BitVec.toInt_signExtend_of_le (by decide)

/-! ## The outcomes of `PUSH` and `POP` -/

theorem exec_push_unconfigured (x : Sample) {s : State} (hc : s.configured = false) :
    exec (.push x) s = .next (respondError .unconf s) := by
  simpa [exec, hc] using execPush_cases x s

theorem exec_push_full (x : Sample) {s : State} (hc : s.configured = true) (hf : inFull s = true) :
    exec (.push x) s = .next s := by
  simpa [exec, hc, hf] using execPush_cases x s

theorem exec_push_room (x : Sample) {s : State} (hc : s.configured = true) (hf : inFull s = false) :
    exec (.push x) s = .next (respond 0#32 { s with inq := pushBack s.inq x }) := by
  simpa [exec, hc, hf] using execPush_cases x s

theorem exec_pop_nil {s : State} (h : s.outq = []) : exec .pop s = .next s := by
  simpa [exec, h] using execPop_cases s

theorem inFull_of_unbounded {s : State} (h : s.params.inDepth = .unbounded) : inFull s = false := by
  rw [inFull, h, queueFull_unbounded]

/-! ## The staging registers after `SETIN` and `SETOUT` -/

theorem inRate_of_exec_setin {rate : Word} {s t : State} (h : exec (.setin rate) s = .next t) :
    t.inRate = rate := by
  cases h
  rfl

theorem outRate_of_exec_setin {rate : Word} {s t : State} (h : exec (.setin rate) s = .next t) :
    t.outRate = s.outRate := by
  cases h
  rfl

theorem inRate_of_exec_setout {rate : Word} {s t : State} (h : exec (.setout rate) s = .next t) :
    t.inRate = s.inRate := by
  cases h
  rfl

theorem outRate_of_exec_setout {rate : Word} {s t : State} (h : exec (.setout rate) s = .next t) :
    t.outRate = rate := by
  cases h
  rfl

end Sys2Proof.Machine
end

section
/-! The obligations of 44_host_operations.md about the registers and the data path: R216 to R220 and R222 to
R225. -/

open Sys2Proof Sys2Proof.Machine

/-- Settles O14: the word is `statusWord`, whose bits are the flags in order, each flag by its own condition. -/
theorem statAnswersFiveFlags : Obligations.StatAnswersFiveFlags := by
  refine ⟨by decide, fun s => ⟨statusWord s, rfl, ?_⟩⟩
  simp only [getLsbD_statusWord]
  exact ⟨Iff.rfl, busy_iff s, inReady_iff s, outValid_iff s, identity_iff s,
    fun _ h => List.getD_eq_default _ _ h⟩

/-- Settles O16: one outcome of `PUSH` per case, the test of `configured` before the hold. -/
theorem pushAppendsHoldsOrErrs : Obligations.PushAppendsHoldsOrErrs :=
  ⟨by decide, by decide, decode_write_dataIn, fun _ => inFull_of_unbounded, fun x _ =>
    ⟨exec_push_unconfigured x, exec_push_full x, exec_push_room x⟩⟩

/-- Settles O17: `POP` by the two shapes of `outq`; the word answered is the sign-extended front. -/
theorem popAnswersFrontSignExtended : Obligations.PopAnswersFrontSignExtended :=
  ⟨by decide, fun _ => ⟨exec_pop_nil, fun x _ h => ⟨sampleWord x, toInt_sampleWord x, exec_pop_cons h⟩⟩⟩

/-- Settles O10: the operation answers `paramsWord`, a constant. -/
theorem getparamsReadsHardwiredWord : Obligations.GetparamsReadsHardwiredWord := by
  refine ⟨by decide, fun s => ?_⟩
  rw [← paramsWord_eq]
  rfl

/-- Settles O11: both reads only respond with their staging register. -/
theorem stagingReadsAnswerStagingRegisters : Obligations.StagingReadsAnswerStagingRegisters :=
  ⟨by decide, by decide, rfl, rfl, fun _ => ⟨rfl, rfl⟩⟩

/-- Settles O12: each write sets its own register and keeps the other, so of two writes in a row the second decides
its register and the first the other one. -/
theorem stagingWritesTouchOnlyTheirRegister : Obligations.StagingWritesTouchOnlyTheirRegister := by
  refine ⟨by decide, by decide, fun rate s => ⟨decode_write_inRate rate, decode_write_outRate rate, rfl, rfl,
    fun rate' t u => ⟨fun ht hu => ⟨?_, outRate_of_exec_setout hu⟩, fun ht hu => ⟨inRate_of_exec_setin hu, ?_⟩,
      fun _ => inRate_of_exec_setin, fun _ => outRate_of_exec_setout⟩⟩⟩
  · rw [inRate_of_exec_setout hu, inRate_of_exec_setin ht]
  · rw [outRate_of_exec_setin hu, outRate_of_exec_setout ht]

/-- Settles O13: a `CTRL` write decodes by its bit 0, and `CTRLNOP` only responds. -/
theorem ctrlnopDoesNothing : Obligations.CtrlnopDoesNothing :=
  ⟨by decide, by decide, fun d h => (decode_write_ctrl d).trans (if_neg (Bool.eq_false_iff.1 h)), fun _ => rfl⟩
end

section
/-! The turn of the host, said once (44_host_operations.md R215): the transaction it tries, outstanding or issued
now, and the error response of one that fails (60_exceptions.md R264). -/

namespace Sys2Proof.Machine

/-! ## The transaction a turn of the host tries -/

theorem hostTurn_outstanding {s : State} {w : Bus48} (hp : s.port = some w) : hostTurn s = runTransaction w s := by
  simp only [hostTurn, hp]

theorem hostTurn_issuing {s : State} {w : Bus48} {rest : List Bus48} (hp : s.port = none)
    (hw : s.program = w :: rest) : hostTurn s = runTransaction w (issue w rest s) := by
  simp only [hostTurn, hp, hw]

theorem step_host {s : State} {later : List Event} (h : s.schedule = .host :: later) :
    step s = hostTurn (consumeTurn s) := step_scheduled h

/-! ## The outcome of a transaction -/

theorem runTransaction_illegal {w : Bus48} {c : ErrorCause} (h : decode w = .error c) (s : State) :
    runTransaction w s = .next (respondError c s) := by
  simp only [runTransaction, h]

theorem runTransaction_legal {w : Bus48} {i : Instr} (h : decode w = .ok i) (s : State) :
    runTransaction w s = exec i s := by
  simp only [runTransaction, h]

/-- The two ways to fail, an illegal word and a `PUSH` before `INIT`, have one outcome (R264). -/
theorem runTransaction_failing {s : State} {w : Bus48} {c : ErrorCause}
    (h : decode w = .error c ∨ (c = .unconf ∧ s.configured = false ∧ ∃ x, decode w = .ok (.push x))) :
    runTransaction w s = .next (respondError c s) := by
  rcases h with hillegal | ⟨rfl, hc, x, hpush⟩
  · exact runTransaction_illegal hillegal s
  · rw [runTransaction_legal hpush, exec_push_unconfigured x hc]

end Sys2Proof.Machine
end

section
/-! The obligation of 60_exceptions.md about the error response: R264. -/

open Sys2Proof Sys2Proof.Machine

/-- Settles O21: outstanding or just issued, the word is what the host's turn tries, and a failing one only gets its
error response. Taking the turn and issuing leave `configured` alone, so the word fails there for the same cause. -/
theorem errorResponseChangesNothing : Obligations.ErrorResponseChangesNothing := by
  intro s w c later hsched hfail
  constructor
  · intro hport
    calc step s
      _ = hostTurn (consumeTurn s) := step_host hsched
      _ = runTransaction w (consumeTurn s) := hostTurn_outstanding hport
      _ = .next (respondError c (consumeTurn s)) := runTransaction_failing hfail
      _ = _ := by rw [consumeTurn_scheduled hsched]; rfl
  · intro rest hport hprog
    calc step s
      _ = hostTurn (consumeTurn s) := step_host hsched
      _ = runTransaction w (issue w rest (consumeTurn s)) := hostTurn_issuing hport hprog
      _ = .next (respondError c (issue w rest (consumeTurn s))) := runTransaction_failing hfail
      _ = _ := by rw [consumeTurn_scheduled hsched]; rfl
end

section
/-! The block right after reset, said once (70_reset_and_hazards.md R290, R291): what the state the machine starts in
and the result of a reset event have in common, and what follows for the engine and for `STATUS`. -/

namespace Sys2Proof.Machine

/-- The elements a reset gives a value (10_state.md R46), those inside the block, are at it. The elements without a
value are free here: the state the machine starts in and a reset event differ there (log entries 1 and 4). -/
structure AtReset (s : State) : Prop where
  inRate : s.inRate = 0#32
  outRate : s.outRate = 0#32
  unconfigured : s.configured = false
  inqEmpty : s.inq = []
  outqEmpty : s.outq = []
  seqIdle : s.seq = .idle

theorem atReset_reset : AtReset State.reset := ⟨rfl, rfl, rfl, rfl, rfl, rfl⟩

theorem atReset_resetEvent (s : State) : AtReset (resetEvent s) := ⟨rfl, rfl, rfl, rfl, rfl, rfl⟩

/-! ## The idle engine with nothing to take -/

theorem engineEnabled_idle_nil {s : State} (h : s.seq = .idle) (hq : s.inq = []) : engineEnabled s = false :=
  Bool.eq_false_iff.2 fun henabled => (engineEnabled_idle h).1 henabled hq

theorem engineTurn_idle_nil {s : State} (h : s.seq = .idle) (hq : s.inq = []) : engineTurn s = .next s := by
  simp only [engineTurn, h, hq]

/-! ## `STATUS` right after reset -/

/-- The identity test is not reached, so the free active rates do not matter. -/
theorem AtReset.statusFlags_eq {s : State} (h : AtReset s) : statusFlags s = List.replicate 5 false := by
  simp [statusFlags, busy, inReady, outValid, identity, h.unconfigured, h.inqEmpty, h.outqEmpty, h.seqIdle]

theorem AtReset.statusWord_eq {s : State} (h : AtReset s) : statusWord s = 0#32 := by
  refine BitVec.eq_of_getLsbD_eq fun i _ => ?_
  rw [getLsbD_statusWord, h.statusFlags_eq, List.getD_eq_getElem?_getD, List.getElem?_getD_replicate_default_eq,
    BitVec.getLsbD_zero]

end Sys2Proof.Machine
end

section
/-! The obligation of 70_reset_and_hazards.md about the block right after reset: R291. -/

open Sys2Proof Sys2Proof.Machine

/-- Settles O48: both kinds of state are `AtReset`, which empties the queues, idles the sequencer and clears every
flag of `STATUS`; the answers follow from the rules of the operations. -/
theorem behaviourRightAfterReset : Obligations.BehaviourRightAfterReset := by
  intro s hs
  have hreset : AtReset s := by
    rcases hs with rfl | ⟨r, rfl⟩
    · exact atReset_reset
    · exact atReset_resetEvent r
  have hstat : exec .stat s = .next (respond 0#32 s) := by rw [← hreset.statusWord_eq]; rfl
  have hparams : exec .getparams s = .next (respond 0x00100080#32 s) := by rw [← paramsWord_eq]; rfl
  have hin : exec .getin s = .next (respond 0#32 s) := by rw [← hreset.inRate]; rfl
  have hout : exec .getout s = .next (respond 0#32 s) := by rw [← hreset.outRate]; rfl
  exact ⟨engineEnabled_idle_nil hreset.seqIdle hreset.inqEmpty, engineTurn_idle_nil hreset.seqIdle hreset.inqEmpty,
    hstat, hparams, hin, hout, fun x => exec_push_unconfigured x hreset.unconfigured,
    exec_pop_nil hreset.outqEmpty⟩
end

section
/-! The byte form of a word (30_encoding.md R90, R98), the words of each operation and the rows they select (R95). -/

namespace Sys2Proof

/-! ## Six bytes, most significant first -/

theorem busOfBytes_busBytes (w : Bus48) : busOfBytes (busBytes w) = some w := by
  have join (k n : Nat) : w.extractLsb' (k + 8) n ++ w.extractLsb' k 8 = w.extractLsb' k (n + 8) :=
    BitVec.extractLsb'_append_extractLsb'_eq_extractLsb' rfl
  simp only [busBytes, busOfBytes, join 32 8, join 24 16, join 16 24, join 8 32, join 0 40, BitVec.cast_eq,
    BitVec.extractLsb'_eq_self]

theorem busOfBytes_eq_none {bytes : List Byte} (h : bytes.length ≠ 6) : busOfBytes bytes = none := by
  unfold busOfBytes
  split
  · simp at h
  · rfl

theorem exists_busOfBytes {bytes : List Byte} (h : bytes.length = 6) : ∃ w, busOfBytes bytes = some w := by
  match bytes, h with
  | [_, _, _, _, _, _], _ => exact ⟨_, rfl⟩

/-- A field above the last byte of an append is a field of the rest. -/
theorem extractLsb'_append_byte {n : Nat} (x : BitVec n) (b : Byte) (k : Nat) :
    (x ++ b).extractLsb' (k + 8) 8 = x.extractLsb' k 8 :=
  BitVec.extractLsb'_append_eq_of_le (Nat.le_add_left 8 k)

/-- Six bytes are the bytes of the word they make. -/
theorem busBytes_of_busOfBytes {bytes : List Byte} {w : Bus48} (h : busOfBytes bytes = some w) :
    busBytes w = bytes := by
  unfold busOfBytes at h
  split at h
  · cases h
    simp only [busBytes, BitVec.cast_eq, BitVec.extractLsb'_append_eq_right, extractLsb'_append_byte _ _ 0,
      extractLsb'_append_byte _ _ 8, extractLsb'_append_byte _ _ 16, extractLsb'_append_byte _ _ 24,
      extractLsb'_append_byte _ _ 32, BitVec.extractLsb'_eq_self]
  · cases h

theorem toNat_append_byte {n : Nat} (x : BitVec n) (b : Byte) : (x ++ b).toNat = x.toNat * 256 + b.toNat := by
  rw [BitVec.toNat_append, ← Nat.shiftLeft_add_eq_or_of_lt b.isLt, Nat.shiftLeft_eq]

theorem toNat_of_busOfBytes {bytes : List Byte} {w : Bus48} (h : busOfBytes bytes = some w) :
    w.toNat = bytes.foldl (fun n b => n * 256 + b.toNat) 0 := by
  unfold busOfBytes at h
  split at h
  · cases h
    simp only [BitVec.cast_eq, toNat_append_byte, List.foldl_cons, List.foldl_nil, Nat.zero_mul, Nat.zero_add]
  · cases h

theorem decodeBytes_busBytes {w : Bus48} {i : Instr} (h : decode w = .ok i) : decodeBytes (busBytes w) = .ok i := by
  rw [decodeBytes, busOfBytes_busBytes]
  simp only [h]

theorem decodeBytes_badLength {bytes : List Byte} (h : bytes.length ≠ 6) :
    decodeBytes bytes = .error .badLength := by
  rw [decodeBytes, busOfBytes_eq_none h]

/-! ## Canonical words -/

theorem decode_encode (i : Instr) : decode (encode i) = .ok i := by
  cases i with
  | getparams => exact decode_busWord_regOffset false .params _
  | getin => exact decode_busWord_regOffset false .inRate _
  | setin rate => exact decode_write_inRate rate
  | getout => exact decode_busWord_regOffset false .outRate _
  | setout rate => exact decode_write_outRate rate
  | init => exact decode_write_ctrl 1#32
  | ctrlnop => exact decode_write_ctrl 0#32
  | stat => exact decode_busWord_regOffset false .status _
  | push sample =>
    have hdata : (sample.setWidth 32).extractLsb' 0 16 = sample := by
      rw [← BitVec.setWidth_eq_extractLsb' (by decide)]
      simp
    exact (decode_write_dataIn _).trans (by rw [hdata])
  | pop => exact decode_busWord_regOffset false .dataOut _

/-! ## Words and the rows they select -/

theorem busWord_fields {w : Bus48} (h : rsvdOf w = 0#7) : busWord (weOf w) (addrOf w) (dataOf w) = w := by
  have hwe : BitVec.ofBool (weOf w) = w.extractLsb' 47 1 := by
    ext i hi
    obtain rfl : i = 0 := by omega
    simp [weOf]
  have join (k m n : Nat) : w.extractLsb' (k + m) n ++ w.extractLsb' k m = w.extractLsb' k (n + m) :=
    BitVec.extractLsb'_append_extractLsb'_eq_extractLsb' rfl
  simp only [busWord, ← h, hwe, rsvdOf, addrOf, dataOf, join 40 7 1, join 32 8 8, join 0 32 16,
    BitVec.cast_eq, BitVec.extractLsb'_eq_self]

/-- A legal word is an access to a register. -/
theorem exists_access_of_decode_ok {w : Bus48} {i : Instr} (h : decode w = .ok i) :
    ∃ we reg data, w = busWord we (regOffset reg) data ∧ decodeAccess we reg data = .ok i := by
  have hr := rsvdOf_eq_zero_of_decode_ok h
  rw [decode, if_neg (not_not.2 hr)] at h
  split at h
  · cases h
  · split at h
    · cases h
    · rename_i reg hreg
      exact ⟨_, reg, _, by rw [← regAt_some hreg, busWord_fields hr], h⟩

/-- A legal word, its ignored bits at any value, selects the row of its operation. -/
theorem row_of_decode_ok {w : Bus48} {i : Instr} (h : decode w = .ok i) :
    ∃ row ∈ opRows, row.mnemonic = mnemonicOf i ∧ w &&& row.mask = row.pattern := by
  obtain ⟨we, reg, data, rfl, hi⟩ := exists_access_of_decode_ok h
  have fixed := busWord_and_fields we (regOffset reg) data
  cases reg <;> cases we <;> simp only [decodeAccess, reduceCtorEq] at hi
  case params.false => cases hi; exact ⟨opRows[0], List.getElem_mem _, rfl, fixed⟩
  case inRate.false => cases hi; exact ⟨opRows[1], List.getElem_mem _, rfl, fixed⟩
  case inRate.true => cases hi; exact ⟨opRows[2], List.getElem_mem _, rfl, fixed⟩
  case outRate.false => cases hi; exact ⟨opRows[3], List.getElem_mem _, rfl, fixed⟩
  case outRate.true => cases hi; exact ⟨opRows[4], List.getElem_mem _, rfl, fixed⟩
  case ctrl.true =>
    have hbit : busWord true (regOffset .ctrl) data &&& 0xFFFF00000001#48 =
        busWord true (regOffset .ctrl) (BitVec.ofBool (data.getLsbD 0) |>.setWidth 32) := by
      rw [busWord_and_ctrl, BitVec.and_one_eq_setWidth_ofBool_getLsbD]
    cases hd : data.getLsbD 0 <;> simp only [hd, if_true, Bool.false_eq_true, if_false] at hi hbit <;> cases hi
    · exact ⟨opRows[6], List.getElem_mem _, rfl, hbit⟩
    · exact ⟨opRows[5], List.getElem_mem _, rfl, hbit⟩
  case status.false => cases hi; exact ⟨opRows[7], List.getElem_mem _, rfl, fixed⟩
  case dataIn.true => cases hi; exact ⟨opRows[8], List.getElem_mem _, rfl, fixed⟩
  case dataOut.false => cases hi; exact ⟨opRows[9], List.getElem_mem _, rfl, fixed⟩

/-- A row fixes the fields of the words that select it. -/
theorem fields_of_row {row : OpRow} (hrow : row ∈ opRows) {w : Bus48} (h : w &&& row.mask = row.pattern) :
    weOf w = weOf row.pattern ∧ rsvdOf w = rsvdOf row.pattern ∧ addrOf w = addrOf row.pattern := by
  have kept : ∀ row ∈ opRows, ∀ i < 48, 32 ≤ i → row.mask[i]? = some true := by decide
  have keep (i : Nat) (h1 : i < 48) (h2 : 32 ≤ i) : row.mask.getLsbD i = true := by
    simpa [h1] using kept row hrow i h1 h2
  rw [← h]
  refine ⟨?_, ?_, ?_⟩
  · simp only [weOf, BitVec.getLsbD_and, keep 47 (by decide) (by decide), Bool.and_true]
  · ext i hi
    simp [rsvdOf, keep (40 + i) (by omega) (by omega)]
  · ext i hi
    simp [addrOf, keep (32 + i) (by omega) (by omega)]

/-- The row of a `CTRL` write fixes its bit 0 as well. -/
theorem dataBit_of_ctrlRow {w p : Bus48} (h : w &&& 0xFFFF00000001#48 = p) :
    (dataOf w).getLsbD 0 = p.getLsbD 0 := by
  rw [← h]
  simp [dataOf]

/-- A word that selects a row is a word of the row's operation. -/
theorem decode_of_row {row : OpRow} (hrow : row ∈ opRows) {w : Bus48} (h : w &&& row.mask = row.pattern) :
    ∃ i, decode w = .ok i ∧ mnemonicOf i = row.mnemonic := by
  obtain ⟨hwe, hr, ha⟩ := fields_of_row hrow h
  have hdec (reg : Reg) (h0 : rsvdOf row.pattern = 0#7) (h1 : addrOf row.pattern = regOffset reg) :
      decode w = decodeAccess (weOf row.pattern) reg (dataOf w) := by
    rw [decode_eq_decodeAccess (hr.trans h0) (ha.trans h1), hwe]
  simp only [opRows, List.mem_cons, List.not_mem_nil, or_false] at hrow
  rcases hrow with rfl | rfl | rfl | rfl | rfl | rfl | rfl | rfl | rfl | rfl
  · exact ⟨_, hdec .params (by decide) (by decide), rfl⟩
  · exact ⟨_, hdec .inRate (by decide) (by decide), rfl⟩
  · exact ⟨_, hdec .inRate (by decide) (by decide), rfl⟩
  · exact ⟨_, hdec .outRate (by decide) (by decide), rfl⟩
  · exact ⟨_, hdec .outRate (by decide) (by decide), rfl⟩
  · exact ⟨.init, (hdec .ctrl (by decide) (by decide)).trans (if_pos (dataBit_of_ctrlRow h)), rfl⟩
  · exact ⟨.ctrlnop, (hdec .ctrl (by decide) (by decide)).trans
      (if_neg (Bool.eq_false_iff.1 (dataBit_of_ctrlRow h))), rfl⟩
  · exact ⟨_, hdec .status (by decide) (by decide), rfl⟩
  · exact ⟨_, hdec .dataIn (by decide) (by decide), rfl⟩
  · exact ⟨_, hdec .dataOut (by decide) (by decide), rfl⟩

/-- A mnemonic names one row. -/
theorem eq_of_mnemonic_eq : ∀ a ∈ opRows, ∀ b ∈ opRows, a.mnemonic = b.mnemonic → a = b := by decide

/-- A row is selected by exactly the words of its operation. -/
theorem selects_iff {row : OpRow} (hrow : row ∈ opRows) (w : Bus48) :
    w &&& row.mask = row.pattern ↔ ∃ i, decode w = .ok i ∧ mnemonicOf i = row.mnemonic := by
  refine ⟨decode_of_row hrow, fun ⟨i, hi, hm⟩ => ?_⟩
  obtain ⟨row', hrow', hm', hsel⟩ := row_of_decode_ok hi
  rwa [← eq_of_mnemonic_eq row' hrow' row hrow (hm'.trans hm)]

/-! ## The platform's view of the window -/

theorem busWordAt_inside (base : Nat) (off : BitVec 8) (we : Bool) (data : Word) :
    busWordAt base (base + off.toNat) we data = some (busWord we off data) := by
  have hlt := off.isLt
  rw [busWordAt, if_pos (by omega), Nat.add_sub_cancel_left, BitVec.ofNat_toNat, BitVec.setWidth_eq]

theorem busWordAt_outside {base address : Nat} (h : address < base ∨ base + 256 ≤ address) (we : Bool) (data : Word) :
    busWordAt base address we data = none :=
  if_neg (by omega)

end Sys2Proof
end

section
/-! The obligations of 30_encoding.md about words, bytes and assembler lines: R90, R95, R98, R100 and R101, and of
20_memory.md about the window. -/

open Sys2Proof

/-- Settles O2: the canonical word is the access the decoder reads back, and its six bytes make the word again. -/
theorem decodeInvertsEncode : Obligations.DecodeInvertsEncode :=
  fun i => ⟨decode_encode i, decodeBytes_busBytes (decode_encode i)⟩

/-- Settles O3: a legal word selects the row of its operation, a row is selected by words of its operation only, and a
word has one operation. -/
theorem legalWordsAreTheTenRows : Obligations.LegalWordsAreTheTenRows := by
  refine ⟨fun w row hrow => selects_iff hrow w, fun w => ⟨fun ⟨i, hi⟩ => ?_, fun ⟨row, hrow, h⟩ => ?_⟩,
    fun w a b ha hb hsa hsb => ?_⟩
  · obtain ⟨row, hrow, -, hsel⟩ := row_of_decode_ok hi
    exact ⟨row, hrow, hsel⟩
  · obtain ⟨i, hi, -⟩ := decode_of_row hrow h
    exact ⟨i, hi⟩
  · obtain ⟨i, hi, hma⟩ := decode_of_row ha hsa
    obtain ⟨j, hj, hmb⟩ := decode_of_row hb hsb
    have hij : i = j := Except.ok.inj (hi.symm.trans hj)
    exact eq_of_mnemonic_eq a ha b hb (by rw [← hma, ← hmb, hij])

/-- Settles O7: the byte form read both ways, its value digit by digit in base 256. -/
theorem sixBytesMostSignificantFirst : Obligations.SixBytesMostSignificantFirst := by
  refine ⟨busOfBytes_busBytes, fun bytes h => ?_, fun bytes => decodeBytes_badLength⟩
  obtain ⟨w, hw⟩ := exists_busOfBytes h
  exact ⟨w, hw, busBytes_of_busOfBytes hw, toNat_of_busOfBytes hw⟩

/-- Settles O8: each line is a list of canonical words, which decode to their operations; in range, an integer is read
back from its sample. -/
theorem pseudoOperationsExpand : Obligations.PseudoOperationsExpand := by
  refine ⟨fun a b _ => ?_, fun xs h => ⟨xs.map u16, ?_, ?_⟩, fun n => ?_, fun a b xs => rfl⟩
  · simp only [assemble, List.map_cons, List.map_nil, decode_encode]
  · rw [List.map_map]
    refine (List.map_congr_left fun x hx => ?_).trans (List.map_id xs)
    have hrange := List.all_eq_true.1 h x hx
    simp only [sampleInRange, Bool.and_eq_true, decide_eq_true_eq] at hrange
    exact Machine.s16_u16 hrange.1 hrange.2
  · simp only [assemble, List.map_map]
    exact List.map_congr_left fun x _ => decode_encode _
  · simp only [assemble, List.map_replicate, decode_encode]

/-- Settles O9: an access inside the window is the word with its fields, one outside it is none. -/
theorem windowIs256BytesFromBase : Obligations.WindowIs256BytesFromBase :=
  ⟨fun base off we d => ⟨_, busWordAt_inside base off we d, addrOf_busWord .., weOf_busWord .., dataOf_busWord ..,
    rsvdOf_busWord ..⟩, fun _ _ we d h => busWordAt_outside h we d⟩

/-- Settles O1: ten closed words. -/
theorem writtenWordsDecode : Obligations.WrittenWordsDecode := by
  unfold Obligations.WrittenWordsDecode
  decide
end

section
/-! What a transaction can do to the block, said once (44_host_operations.md R215 to R225): it is held, or it changes
the block and is answered. -/

namespace Sys2Proof.Machine

/-- The trace line of an operation that completes. -/
def answered (value : Word) : TraceEntry := ⟨⟨false, value⟩, none⟩

/-- The trace line of a transaction that fails (30_encoding.md R91). -/
def failed (cause : ErrorCause) : TraceEntry := ⟨⟨true, 0#32⟩, some cause⟩

/-- An operation that is not held takes the block from one state to the next and answers a trace line. -/
inductive Answers : Instr → State → State → TraceEntry → Prop
  | getparams (s : State) : Answers .getparams s s (answered paramsWord)
  | getin (s : State) : Answers .getin s s (answered s.inRate)
  | setin (rate : Word) (s : State) : Answers (.setin rate) s { s with inRate := rate } (answered 0#32)
  | getout (s : State) : Answers .getout s s (answered s.outRate)
  | setout (rate : Word) (s : State) : Answers (.setout rate) s { s with outRate := rate } (answered 0#32)
  | init {s : State} (idle : s.seq = .idle) (drained : s.inq = []) (hin : s.inRate ≠ 0#32) (hout : s.outRate ≠ 0#32) :
      Answers .init s { s with rs := construct s.params s.inRate s.outRate, configured := true } (answered 0#32)
  | ctrlnop (s : State) : Answers .ctrlnop s s (answered 0#32)
  | stat (s : State) : Answers .stat s s (answered (statusWord s))
  | pushUnconfigured (x : Sample) {s : State} (hc : s.configured = false) : Answers (.push x) s s (failed .unconf)
  | push (x : Sample) {s : State} (hc : s.configured = true) (room : inFull s = false) :
      Answers (.push x) s { s with inq := pushBack s.inq x } (answered 0#32)
  | pop {s : State} {x : Sample} {rest : List Sample} (hq : s.outq = x :: rest) :
      Answers .pop s { s with outq := rest } (answered (sampleWord x))

theorem busy_eq_false_iff (s : State) : busy s = false ↔ s.seq = .idle ∧ s.inq = [] := by
  simp [busy]

theorem exec_init_busy {s : State} (h : s.seq ≠ .idle ∨ s.inq ≠ []) : exec .init s = .next s := by
  have hb := (busy_iff s).2 h
  simpa [exec, hb] using execInit_cases s

theorem exec_init_zeroRate {s : State} (hs : s.seq = .idle) (hq : s.inq = [])
    (hz : s.inRate = 0#32 ∨ s.outRate = 0#32) :
    exec .init s = .refused .initZeroRate := by
  have hb := (busy_eq_false_iff s).2 ⟨hs, hq⟩
  rcases execInit_cases s with ⟨h, -⟩ | ⟨-, -, h⟩ | ⟨-, h1, h2, -⟩
  · rw [hb] at h; cases h
  · exact h
  · rcases hz with hz | hz
    · exact absurd hz h1
    · exact absurd hz h2

theorem exec_init_constructs {s : State} (hs : s.seq = .idle) (hq : s.inq = []) (hin : s.inRate ≠ 0#32)
    (hout : s.outRate ≠ 0#32) :
    exec .init s = .next (respond 0#32
      { s with rs := construct s.params s.inRate s.outRate, configured := true }) := by
  have hb := (busy_eq_false_iff s).2 ⟨hs, hq⟩
  simpa [exec, hb, hin, hout] using execInit_cases s

theorem exec_of_answers {i : Instr} {s t : State} {e : TraceEntry} (h : Answers i s t e) :
    exec i s = .next (respondWith e t) := by
  cases h with
  | init hs hq hin hout => exact exec_init_constructs hs hq hin hout
  | pushUnconfigured x hc => exact exec_push_unconfigured x hc
  | push x hc hf => exact exec_push_room x hc hf
  | pop hq => exact exec_pop_cons hq
  | _ => rfl

/-- The states in which an operation is held: `PUSH` on a full `inq`, `POP` on an empty `outq`, `INIT` on a busy
engine. -/
def Held (i : Instr) (s : State) : Prop :=
  match i with
  | .push _ => s.configured = true ∧ inFull s = true
  | .pop => s.outq = []
  | .init => s.seq ≠ .idle ∨ s.inq ≠ []
  | _ => False

/-- The states in which an operation has no behaviour (60_exceptions.md R275). -/
def ZeroRateInit (i : Instr) (s : State) : Prop :=
  i = .init ∧ s.seq = .idle ∧ s.inq = [] ∧ (s.inRate = 0#32 ∨ s.outRate = 0#32)

theorem exec_of_held {i : Instr} {s : State} (h : Held i s) : exec i s = .next s := by
  cases i with
  | push x => exact exec_push_full x h.1 h.2
  | pop => exact exec_pop_nil h
  | init => exact exec_init_busy h
  | _ => exact h.elim

theorem exec_of_zeroRateInit {i : Instr} {s : State} (h : ZeroRateInit i s) :
    exec i s = .refused .initZeroRate := by
  obtain ⟨rfl, hs, hq, hz⟩ := h
  exact exec_init_zeroRate hs hq hz

/-- Every operation in every state is held, answers or is refused. -/
theorem exec_trichotomy (i : Instr) (s : State) : Held i s ∨ (∃ t e, Answers i s t e) ∨ ZeroRateInit i s := by
  cases i with
  | getparams => exact .inr (.inl ⟨_, _, .getparams s⟩)
  | getin => exact .inr (.inl ⟨_, _, .getin s⟩)
  | setin rate => exact .inr (.inl ⟨_, _, .setin rate s⟩)
  | getout => exact .inr (.inl ⟨_, _, .getout s⟩)
  | setout rate => exact .inr (.inl ⟨_, _, .setout rate s⟩)
  | ctrlnop => exact .inr (.inl ⟨_, _, .ctrlnop s⟩)
  | stat => exact .inr (.inl ⟨_, _, .stat s⟩)
  | init =>
    rcases execInit_cases s with ⟨hb, -⟩ | ⟨hb, hz, -⟩ | ⟨hb, hin, hout, -⟩
    · exact .inl ((busy_iff s).1 hb)
    · obtain ⟨hs, hq⟩ := (busy_eq_false_iff s).1 hb
      exact .inr (.inr ⟨rfl, hs, hq, hz⟩)
    · obtain ⟨hs, hq⟩ := (busy_eq_false_iff s).1 hb
      exact .inr (.inl ⟨_, _, .init hs hq hin hout⟩)
  | push x =>
    rcases execPush_cases x s with ⟨hc, -⟩ | ⟨hc, hf, -⟩ | ⟨hc, hf, -⟩
    · exact .inr (.inl ⟨_, _, .pushUnconfigured x hc⟩)
    · exact .inl ⟨hc, hf⟩
    · exact .inr (.inl ⟨_, _, .push x hc hf⟩)
  | pop =>
    rcases execPop_cases s with ⟨hq, -⟩ | ⟨x, rest, hq, -⟩
    · exact .inl hq
    · exact .inr (.inl ⟨_, _, .pop hq⟩)

/-- Everything an operation that answers a next state can have done. -/
theorem exec_cases {i : Instr} {s t : State} (h : exec i s = .next t) :
    t = s ∨ ∃ u e, Answers i s u e ∧ t = respondWith e u := by
  rcases exec_trichotomy i s with hh | ⟨u, e, ha⟩ | hz
  · exact .inl (Host.Outcome.next.inj (h.symm.trans (exec_of_held hh)))
  · exact .inr ⟨u, e, ha, Host.Outcome.next.inj (h.symm.trans (exec_of_answers ha))⟩
  · exact nomatch h.symm.trans (exec_of_zeroRateInit hz)

/-- The one stop of an operation. -/
theorem zeroRateInit_of_stop {i : Instr} {s : State} (h : ∀ t, exec i s ≠ .next t) : ZeroRateInit i s := by
  rcases exec_trichotomy i s with hh | ⟨u, e, ha⟩ | hz
  · exact absurd (exec_of_held hh) (h _)
  · exact absurd (exec_of_answers ha) (h _)
  · exact hz

/-! ## Transactions -/

/-- A transaction that is not held: an illegal word, which only gets its error response, or an operation. -/
def WordAnswers (w : Bus48) (s t : State) (e : TraceEntry) : Prop :=
  (∃ c, decode w = .error c ∧ t = s ∧ e = failed c) ∨ ∃ i, decode w = .ok i ∧ Answers i s t e

theorem runTransaction_of_answers {w : Bus48} {s t : State} {e : TraceEntry} (h : WordAnswers w s t e) :
    runTransaction w s = .next (respondWith e t) := by
  rcases h with ⟨c, hc, rfl, rfl⟩ | ⟨i, hi, ha⟩
  · exact runTransaction_illegal hc t
  · rw [runTransaction_legal hi, exec_of_answers ha]

theorem runTransaction_cases {w : Bus48} {s t : State} (h : runTransaction w s = .next t) :
    t = s ∨ ∃ u e, WordAnswers w s u e ∧ t = respondWith e u := by
  cases hd : decode w with
  | error c =>
    rw [runTransaction_illegal hd] at h
    cases h
    exact .inr ⟨s, failed c, .inl ⟨c, hd, rfl, rfl⟩, rfl⟩
  | ok i =>
    rw [runTransaction_legal hd] at h
    rcases exec_cases h with rfl | ⟨u, e, ha, rfl⟩
    · exact .inl rfl
    · exact .inr ⟨u, e, .inr ⟨i, hd, ha⟩, rfl⟩

/-- The turn of the host tries the word `w` on the state `u`, the transaction on the port: it is outstanding, or it is
issued now. -/
def Tries (s : State) (w : Bus48) (u : State) : Prop :=
  (s.port = some w ∧ u = s) ∨ ∃ rest, s.port = none ∧ s.program = w :: rest ∧ u = issue w rest s

theorem hostTurn_of_tries {s u : State} {w : Bus48} (h : Tries s w u) : hostTurn s = runTransaction w u := by
  rcases h with ⟨hp, rfl⟩ | ⟨rest, hp, hw, rfl⟩
  · exact hostTurn_outstanding hp
  · exact hostTurn_issuing hp hw

/-- Either the host has nothing left to do, or its turn tries a transaction. -/
theorem hostTurn_tries (s : State) :
    (s.port = none ∧ s.program = [] ∧ hostTurn s = .next s) ∨ ∃ w u, Tries s w u := by
  cases hp : s.port with
  | some w => exact .inr ⟨w, s, .inl ⟨hp, rfl⟩⟩
  | none =>
    cases hw : s.program with
    | nil => exact .inl ⟨rfl, rfl, by simp only [hostTurn, hp, hw]⟩
    | cons w rest => exact .inr ⟨w, _, .inr ⟨rest, hp, hw, rfl⟩⟩

/-- Everything a turn of the host that answers a next state can have done. -/
theorem hostTurn_outcome {s t : State} (h : hostTurn s = .next t) :
    t = s ∨ ∃ w u, Tries s w u ∧ (t = u ∨ ∃ v e, WordAnswers w u v e ∧ t = respondWith e v) := by
  rcases hostTurn_tries s with ⟨-, -, hh⟩ | ⟨w, u, hu⟩
  · exact .inl (Host.Outcome.next.inj (h.symm.trans hh))
  · rw [hostTurn_of_tries hu] at h
    exact .inr ⟨w, u, hu, runTransaction_cases h⟩

/-- Issuing a transaction touches nothing of the block. -/
theorem Tries.same_block {s u : State} {w : Bus48} (h : Tries s w u) :
    ∃ rest, u = { s with port := some w, program := rest } := by
  rcases h with ⟨hp, rfl⟩ | ⟨rest, -, -, rfl⟩
  · exact ⟨u.program, by rw [← hp]⟩
  · exact ⟨rest, rfl⟩

end Sys2Proof.Machine
end

section
/-! A step by the agent that moves, and what the host's transactions leave alone. -/

namespace Sys2Proof.Machine

/-- Everything a step that answers a next state can be. -/
theorem step_cases {s t : State} (h : step s = .next t) :
    (nextEvent s = .reset ∧ t = resetEvent (consumeTurn s)) ∨
    (nextEvent s = .engine ∧ engineTurn (consumeTurn s) = .next t) ∨
    (nextEvent s = .host ∧ hostTurn (consumeTurn s) = .next t) := by
  unfold step at h
  cases he : nextEvent s with
  | reset => rw [he] at h; cases h; exact .inl ⟨rfl, rfl⟩
  | engine => rw [he] at h; exact .inr (.inl ⟨rfl, h⟩)
  | host => rw [he] at h; exact .inr (.inr ⟨rfl, h⟩)

theorem step_engine {s : State} {later : List Event} (h : s.schedule = .engine :: later) :
    step s = engineTurn (consumeTurn s) := step_scheduled h

theorem step_reset {s : State} {later : List Event} (h : s.schedule = .reset :: later) :
    step s = .next (resetEvent (consumeTurn s)) := step_scheduled h

/-- A host's turn runs the operation its word decodes to, on the state with the transaction on the port. -/
theorem hostTurn_runs {s u : State} {w : Bus48} {i : Instr} (h : Tries s w u) (hi : decode w = .ok i) :
    hostTurn s = exec i u := by
  rw [hostTurn_of_tries h, runTransaction_legal hi]

theorem currentWord_of_tries {s u : State} {w : Bus48} (h : Tries s w u) : currentWord s = some w :=
  currentWord_of_turn h

/-! ## What the engine writes -/

/-- A state inside a sample with the elements replaced that the engine writes there. -/
def moved (history : Row) (position : F64) (outq : List Sample) (seq : Seq) (s : State) : State :=
  { s with rs := { s.rs with history := history, position := position }, outq := outq, seq := seq }

@[simp] theorem moved_inq (history : Row) (position : F64) (outq : List Sample) (seq : Seq) (s : State) :
    (moved history position outq seq s).inq = s.inq := rfl
@[simp] theorem moved_outq (history : Row) (position : F64) (outq : List Sample) (seq : Seq) (s : State) :
    (moved history position outq seq s).outq = outq := rfl

theorem ePass_eq_moved (s : State) :
    ePass s = moved s.rs.history s.rs.position (pushBack s.outq s.cur) .idle s := rfl

theorem eShift_eq_moved (s : State) :
    eShift s = moved (shiftHistory s.rs.history (i16ToF32 s.cur)) s.rs.position s.outq .test s := rfl

theorem eTest_eq_moved (s : State) :
    eTest s = moved s.rs.history s.rs.position s.outq (if moreOutputs s.rs.position then .emit else .renorm) s := rfl

theorem eRenorm_eq_moved (s : State) :
    eRenorm s = moved s.rs.history (renormPosition s.rs.position) s.outq .idle s := rfl

/-- A turn of the engine that starts inside a sample replaces those elements. -/
theorem engineTurn_moves {s t : State} (h : engineTurn s = .next t) :
    t = s ∨ (∃ x rest, s.seq = .idle ∧ s.inq = x :: rest ∧ t = ePop x rest s) ∨
    (s.seq = .pass ∧ outFull s = false ∧ t = moved s.rs.history s.rs.position (pushBack s.outq s.cur) .idle s) ∨
    (s.seq = .shift ∧ t = moved (shiftHistory s.rs.history (i16ToF32 s.cur)) s.rs.position s.outq .test s) ∨
    (s.seq = .test ∧ moreOutputs s.rs.position = true ∧ t = moved s.rs.history s.rs.position s.outq .emit s) ∨
    (s.seq = .test ∧ moreOutputs s.rs.position = false ∧ t = moved s.rs.history s.rs.position s.outq .renorm s) ∨
    (∃ ph, s.seq = .emit ∧ outFull s = false ∧ phaseIndex s.rs.position = some ph ∧
      t = moved s.rs.history (advancePosition s.rs.position s.rs.step)
        (pushBack s.outq (outputSample s.params s.rs ph)) .test s) ∨
    (s.seq = .renorm ∧ t = moved s.rs.history (renormPosition s.rs.position) s.outq .idle s) := by
  rcases engineTurn_cases h with ⟨rfl, -⟩ | hpop | hpass | hshift | ⟨hs, rfl⟩ | hemit | hrenorm
  · exact .inl rfl
  · exact .inr (.inl hpop)
  · exact .inr (.inr (.inl hpass))
  · exact .inr (.inr (.inr (.inl hshift)))
  · rw [eTest_eq_moved]
    cases hm : moreOutputs s.rs.position
    · exact .inr (.inr (.inr (.inr (.inr (.inl ⟨hs, rfl, rfl⟩)))))
    · exact .inr (.inr (.inr (.inr (.inl ⟨hs, rfl, rfl⟩))))
  · exact .inr (.inr (.inr (.inr (.inr (.inr (.inl hemit))))))
  · exact .inr (.inr (.inr (.inr (.inr (.inr (.inr hrenorm))))))

/-- A turn of the engine writes the history, the position, the sequencer, the latch and the queues only. -/
theorem engineTurn_writes {s t : State} (h : engineTurn s = .next t) :
    t = { s with
      rs := { s.rs with history := t.rs.history, position := t.rs.position }
      seq := t.seq, cur := t.cur, inq := t.inq, outq := t.outq } := by
  have writes (history : Row) (position : F64) (outq : List Sample) (seq : Seq) (u : State)
      (hu : u = moved history position outq seq s) : u = { s with
        rs := { s.rs with history := u.rs.history, position := u.rs.position }
        seq := u.seq, cur := u.cur, inq := u.inq, outq := u.outq } := by
    subst hu; rfl
  rcases engineTurn_moves h with rfl | ⟨x, rest, -, -, rfl⟩ | ⟨-, -, ht⟩ | ⟨-, ht⟩ | ⟨-, -, ht⟩ | ⟨-, -, ht⟩ |
    ⟨ph, -, -, -, ht⟩ | ⟨-, ht⟩
  · rfl
  · rfl
  all_goals exact writes _ _ _ _ t ht

/-- It takes from the front of `inq` and appends to the back of `outq`. -/
theorem engineTurn_queues {s t : State} (h : engineTurn s = .next t) :
    (t.inq = s.inq ∨ ∃ x, s.inq = x :: t.inq) ∧ (t.outq = s.outq ∨ ∃ x, t.outq = s.outq ++ [x]) := by
  rcases engineTurn_moves h with rfl | ⟨x, rest, -, hq, rfl⟩ | ⟨-, -, rfl⟩ | ⟨-, rfl⟩ | ⟨-, -, rfl⟩ | ⟨-, -, rfl⟩ |
    ⟨ph, -, -, -, rfl⟩ | ⟨-, rfl⟩
  · exact ⟨.inl rfl, .inl rfl⟩
  · exact ⟨.inr ⟨x, hq⟩, .inl rfl⟩
  · exact ⟨.inl (moved_inq ..), .inr ⟨s.cur, moved_outq ..⟩⟩
  · exact ⟨.inl (moved_inq ..), .inl (moved_outq ..)⟩
  · exact ⟨.inl (moved_inq ..), .inl (moved_outq ..)⟩
  · exact ⟨.inl (moved_inq ..), .inl (moved_outq ..)⟩
  · exact ⟨.inl (moved_inq ..), .inr ⟨outputSample s.params s.rs ph, moved_outq ..⟩⟩
  · exact ⟨.inl (moved_inq ..), .inl (moved_outq ..)⟩

/-! ## The enabled steps of the engine -/

/-- A step of the engine that is enabled, one constructor per place of the sequencer (R151 to R156). -/
inductive EngineStep : State → State → Prop
  | pop {s : State} {x : Sample} {rest : List Sample} (hs : s.seq = .idle) (hq : s.inq = x :: rest) :
      EngineStep s (ePop x rest s)
  | pass {s : State} (hs : s.seq = .pass) (hf : outFull s = false) : EngineStep s (ePass s)
  | shift {s : State} (hs : s.seq = .shift) : EngineStep s (eShift s)
  | test {s : State} (hs : s.seq = .test) : EngineStep s (eTest s)
  | emit {s : State} {ph : Fin 128} (hs : s.seq = .emit) (hf : outFull s = false)
      (hph : phaseIndex s.rs.position = some ph) : EngineStep s { s with
        outq := pushBack s.outq (outputSample s.params s.rs ph)
        rs := { s.rs with position := advancePosition s.rs.position s.rs.step }
        seq := .test }
  | renorm {s : State} (hs : s.seq = .renorm) : EngineStep s (eRenorm s)

theorem engineTurn_renorm {s : State} (h : s.seq = .renorm) : engineTurn s = .next (eRenorm s) := by
  simp only [engineTurn, h]

theorem EngineStep.turn {s t : State} (h : EngineStep s t) : engineTurn s = .next t := by
  cases h with
  | pop hs hq => exact engineTurn_idle_cons hs hq
  | pass hs hf => exact engineTurn_pass hs hf
  | shift hs => exact engineTurn_shift hs
  | test hs => exact engineTurn_test hs
  | emit hs hf hph => exact engineTurn_emit hs hf hph
  | renorm hs => exact engineTurn_renorm hs

theorem EngineStep.enabled {s t : State} (h : EngineStep s t) : engineEnabled s = true := by
  cases h with
  | pop hs hq => exact (engineEnabled_idle hs).2 (hq ▸ List.cons_ne_nil _ _)
  | pass hs hf => rw [engineEnabled_output (.inl hs), hf]; rfl
  | shift hs => exact engineEnabled_shift hs
  | test hs => exact engineEnabled_test hs
  | emit hs hf _ => rw [engineEnabled_output (.inr hs), hf]; rfl
  | renorm hs => simp only [engineEnabled, hs]

/-- A turn of the engine is an enabled step, or it changes nothing. -/
theorem engineTurn_step {s t : State} (h : engineTurn s = .next t) :
    (t = s ∧ engineEnabled s = false) ∨ EngineStep s t := by
  rcases engineTurn_cases h with hidle | ⟨x, rest, hs, hq, rfl⟩ | ⟨hs, hf, rfl⟩ | ⟨hs, rfl⟩ | ⟨hs, rfl⟩ |
    ⟨ph, hs, hf, hph, rfl⟩ | ⟨hs, rfl⟩
  · exact .inl hidle
  · exact .inr (.pop hs hq)
  · exact .inr (.pass hs hf)
  · exact .inr (.shift hs)
  · exact .inr (.test hs)
  · exact .inr (.emit hs hf hph)
  · exact .inr (.renorm hs)

/-- An enabled step is taken when its turn comes. -/
theorem EngineStep.of_enabled {s t : State} (he : engineEnabled s = true) (h : engineTurn s = .next t) :
    EngineStep s t := by
  rcases engineTurn_step h with ⟨-, hd⟩ | hstep
  · exact nomatch he.symm.trans hd
  · exact hstep

/-! ## What the transactions touch -/

/-- Every trace line has the form the response word allows (30_encoding.md R91). -/
theorem Answers.response {i : Instr} {s t : State} {e : TraceEntry} (h : Answers i s t e) :
    (e.resp.err = true → e.resp.rdata = 0#32 ∧ e.cause.isSome = true) ∧ (e.resp.err = false → e.cause = none) := by
  cases h <;> simp [answered, failed]

theorem WordAnswers.response {w : Bus48} {s t : State} {e : TraceEntry} (h : WordAnswers w s t e) :
    (e.resp.err = true → e.resp.rdata = 0#32 ∧ e.cause.isSome = true) ∧ (e.resp.err = false → e.cause = none) := by
  rcases h with ⟨c, -, -, rfl⟩ | ⟨i, -, ha⟩
  · simp [failed]
  · exact ha.response

theorem WordAnswers.trace {w : Bus48} {s t : State} {e : TraceEntry} (h : WordAnswers w s t e) :
    t.trace = s.trace := by
  rcases h with ⟨c, -, rfl, -⟩ | ⟨i, -, ha⟩
  · rfl
  · cases ha <;> rfl

/-- Only `INIT` on a drained engine touches the Resampler. -/
theorem WordAnswers.configuration {w : Bus48} {s t : State} {e : TraceEntry} (h : WordAnswers w s t e) :
    (decode w = .ok .init ∧ s.seq = .idle ∧ s.inq = [] ∧ t.inq = [] ∧ t.configured = true) ∨
    (t.rs = s.rs ∧ t.configured = s.configured) := by
  rcases h with ⟨c, -, rfl, -⟩ | ⟨i, hi, ha⟩
  · exact .inr ⟨rfl, rfl⟩
  · cases ha with
    | init hs hq _ _ => exact .inl ⟨hi, hs, hq, hq, rfl⟩
    | _ => exact .inr ⟨rfl, rfl⟩

/-- Only `PUSH` touches `inq`. -/
theorem WordAnswers.inq {w : Bus48} {s t : State} {e : TraceEntry} (h : WordAnswers w s t e) :
    (∃ x, decode w = .ok (.push x)) ∨ t.inq = s.inq := by
  rcases h with ⟨c, -, rfl, -⟩ | ⟨i, hi, ha⟩
  · exact .inr rfl
  · cases ha with
    | push x _ _ => exact .inl ⟨x, hi⟩
    | _ => exact .inr rfl

/-- Only `POP` touches `outq`. -/
theorem WordAnswers.outq {w : Bus48} {s t : State} {e : TraceEntry} (h : WordAnswers w s t e) :
    decode w = .ok .pop ∨ t.outq = s.outq := by
  rcases h with ⟨c, -, rfl, -⟩ | ⟨i, hi, ha⟩
  · exact .inr rfl
  · cases ha with
    | pop _ => exact .inl hi
    | _ => exact .inr rfl

theorem WordAnswers.params {w : Bus48} {s t : State} {e : TraceEntry} (h : WordAnswers w s t e) :
    t.params = s.params := by
  rcases h with ⟨c, -, rfl, -⟩ | ⟨i, -, ha⟩
  · rfl
  · cases ha <;> rfl

/-! ## The ready bits -/

/-- A bounded queue that is not full and within its depth is not full without its front either. -/
theorem queueFull_tail {d : Depth} {x : Sample} {rest : List Sample} (hw : queueWithin d (x :: rest)) :
    queueFull d rest = false := by
  cases d with
  | unbounded => rfl
  | entries more =>
    simp only [queueWithin, List.length_cons] at hw
    rw [Bool.eq_false_iff, Ne, queueFull_entries]
    omega

theorem queueFull_nil (d : Depth) : queueFull d [] = false := by cases d <;> simp [queueFull]

/-- While `IN_READY` is 1 no `PUSH` holds. -/
theorem exec_push_ne_hold {s : State} (h : inReady s = true) (x : Sample) : exec (.push x) s ≠ .next s := by
  obtain ⟨hc, hf⟩ := (inReady_iff s).1 h
  rw [exec_push_room x hc hf]
  intro heq
  have hlen := congrArg (fun u => u.inq.length) (Host.Outcome.next.inj heq)
  simp [respond] at hlen

/-- While `OUT_VALID` is 1 no `POP` holds. -/
theorem exec_pop_ne_hold {s : State} (h : outValid s = true) : exec .pop s ≠ .next s := by
  obtain ⟨x, rest, hq⟩ := List.exists_cons_of_ne_nil ((outValid_iff s).1 h)
  rw [exec_pop_cons hq]
  intro heq
  have hlen := congrArg (fun u => u.outq.length) (Host.Outcome.next.inj heq)
  simp [respond, hq] at hlen

/-- A turn of the engine keeps both bits: it takes from `inq` and appends to `outq`. -/
theorem engineTurn_keeps_ready {s t : State} (hw : queueWithin s.params.inDepth s.inq) (h : engineTurn s = .next t) :
    (inReady s = true → inReady t = true) ∧ (outValid s = true → outValid t = true) := by
  obtain ⟨hin, hout⟩ := engineTurn_queues h
  have ht := engineTurn_writes h
  have hp : t.params = s.params := by rw [ht]
  have hc : t.configured = s.configured := by rw [ht]
  simp only [inReady_iff, outValid_iff, inFull, hp, hc]
  constructor
  · rintro ⟨hconf, hf⟩
    refine ⟨hconf, ?_⟩
    rcases hin with hq | ⟨x, hq⟩
    · rwa [hq]
    · rw [hq] at hw
      exact queueFull_tail hw
  · intro hv
    rcases hout with hq | ⟨x, hq⟩
    · rwa [hq]
    · simp [hq]

/-- A transaction other than the one it announces keeps each bit. -/
theorem WordAnswers.keeps_ready {w : Bus48} {s t : State} {e : TraceEntry} (h : WordAnswers w s t e) :
    (inReady s = true → (∃ x, decode w = .ok (.push x)) ∨ inReady t = true) ∧
    (outValid s = true → decode w = .ok .pop ∨ outValid t = true) := by
  constructor
  · intro hr
    obtain ⟨hc, hf⟩ := (inReady_iff s).1 hr
    rcases h.inq with hp | hq
    · exact .inl hp
    · refine .inr ((inReady_iff t).2 ⟨?_, ?_⟩)
      · rcases h.configuration with ⟨-, -, -, -, hc'⟩ | ⟨-, hc'⟩
        · exact hc'
        · exact hc'.trans hc
      · rw [inFull, h.params, hq]; exact hf
  · intro hv
    rcases h.outq with hp | hq
    · exact .inl hp
    · refine .inr ?_
      rw [outValid, hq]; exact hv

end Sys2Proof.Machine
end

section
/-! The obligations about the host's operations and the step around a turn: 44_host_operations.md R215, R221 and R223,
60_exceptions.md R260, R274 and R275, 70_reset_and_hazards.md R290 and R295, 30_encoding.md R91, 20_memory.md R73. -/

open Sys2Proof Sys2Proof.Machine

/-- Settles O15: of the five flags `BUSY` is clear, `CONFIGURED` and `IN_READY` are set, and two stay open. -/
theorem quiescentStatusWords : Obligations.QuiescentStatusWords := by
  intro s hc hs hq
  refine ⟨statusWord s, rfl, ?_⟩
  have hin : inFull s = false := by rw [inFull, hq]; exact queueFull_nil _
  have hready : inReady s = true := (inReady_iff s).2 ⟨hc, hin⟩
  have hbusy : busy s = false := (busy_eq_false_iff s).2 ⟨hs, hq⟩
  have hident : identity s = decide (s.rs.inputRate = s.rs.outputRate) := by
    rw [Bool.eq_iff_iff, identity_iff, decide_eq_true_iff]
    exact and_iff_right hc
  have hvalid : outValid s = decide (s.outq ≠ []) := by
    rw [Bool.eq_iff_iff, outValid_iff, decide_eq_true_iff]
  rw [statusWord, hident, hvalid, hready, hbusy, hc]
  by_cases hr : s.rs.inputRate = s.rs.outputRate <;> by_cases ho : s.outq = [] <;> simp [hr, ho]

/-- Settles O18: one outcome of `INIT` per case; `construct` is the Resampler written out. -/
theorem initConstructsResampler : Obligations.InitConstructsResampler := by
  refine ⟨by decide, fun d h => (decode_write_ctrl d).trans (if_pos h), fun s => ⟨exec_init_busy, exec_init_zeroRate,
    fun hs hq hin hout => ⟨rateRatio s.inRate s.outRate, rateStep s.params.stepMode s.inRate s.outRate, zeroHistory,
      rfl, fun hm => by rw [hm]; rfl, fun hm => by rw [hm]; rfl, zeroHistory_get,
      exec_init_constructs hs hq hin hout⟩⟩⟩

/-- Settles O19: the one stop of an operation is the refusal of `INIT`. -/
theorem operationsCompleteButZeroRateInit : Obligations.OperationsCompleteButZeroRateInit := by
  intro i s
  have stop (h : ¬ ∃ t, exec i s = .next t) : ZeroRateInit i s := zeroRateInit_of_stop fun t ht => h ⟨t, ht⟩
  refine ⟨⟨fun ⟨t, ht⟩ hz => ?_, fun h => ?_⟩, fun h => exec_of_zeroRateInit (stop h)⟩
  · exact nomatch ht.symm.trans (exec_of_zeroRateInit hz)
  · by_contra hnone
    exact h (stop hnone)

/-- Settles O20: the turn of the host by the transaction it tries, and the turn of the engine. -/
theorem stepRunsDecodedOperation : Obligations.StepRunsDecodedOperation := by
  refine ⟨fun s w i later hsched hi => ⟨fun hp => ?_, fun rest hp hw => ?_⟩, fun s later hsched hp hw => ?_,
    fun s later hsched => ?_⟩
  · rw [step_host hsched, consumeTurn_scheduled hsched]
    exact hostTurn_runs (.inl ⟨hp, rfl⟩) hi
  · rw [step_host hsched, consumeTurn_scheduled hsched]
    exact hostTurn_runs (.inr ⟨rest, hp, hw, rfl⟩) hi
  · rw [step_host hsched, consumeTurn_scheduled hsched]
    simp only [hostTurn, hp, hw]
  · rw [step_engine hsched, consumeTurn_scheduled hsched]

/-- Settles O22: each of the three operations that hold answers its own state. -/
theorem heldTransactionStaysOutstanding : Obligations.HeldTransactionStaysOutstanding := by
  intro s w later hsched hp hheld
  calc step s
    _ = hostTurn (consumeTurn s) := step_host hsched
    _ = runTransaction w (consumeTurn s) := hostTurn_outstanding hp
    _ = .next (consumeTurn s) := by
      rcases hheld with ⟨⟨x, hx⟩, hfull⟩ | ⟨hx, hempty⟩ | ⟨hx, hbusy⟩
      · rw [runTransaction_legal hx]; exact exec_of_held (i := .push x) hfull
      · rw [runTransaction_legal hx]; exact exec_of_held (i := .pop) hempty
      · rw [runTransaction_legal hx]; exact exec_of_held (i := .init) hbusy
    _ = _ := by rw [consumeTurn_scheduled hsched]

/-- Settles O47: the step is the reset event, field by field. -/
theorem resetEventPutsResetValues : Obligations.ResetEventPutsResetValues := by
  intro s later hsched
  refine ⟨_, step_reset hsched, rfl, rfl, rfl, rfl, rfl, rfl, rfl, rfl, rfl, rfl, ?_, rfl⟩
  rw [resetEvent_schedule, consumeTurn_schedule, upcoming_scheduled hsched]
  rfl

/-- Settles O57: only a transaction that completes adds a line, and each line has the form of R91. -/
theorem stepSendsAtMostOneResponse : Obligations.StepSendsAtMostOneResponse := by
  intro s t h
  rcases step_cases h with ⟨-, rfl⟩ | ⟨-, he⟩ | ⟨hh, ht⟩
  · exact .inl rfl
  · exact .inl (engineTurn_frame he).2.2.1
  · rcases hostTurn_outcome ht with rfl | ⟨w, u, hu, rfl | ⟨v, e, ha, rfl⟩⟩
    · exact .inl rfl
    · obtain ⟨rest, rfl⟩ := hu.same_block
      exact .inl rfl
    · obtain ⟨rest, rfl⟩ := hu.same_block
      exact .inr ⟨e, by rw [respondWith_trace, ha.trace]; rfl, rfl, hh, ha.response⟩

/-- Settles O58: the engine does not write them, and of the transactions only a completed `INIT` does. -/
theorem configurationChangesOnlyByInitOrReset : Obligations.ConfigurationChangesOnlyByInitOrReset := by
  intro s t h
  refine ⟨(step_frame h).2.2, ?_⟩
  rcases step_cases h with ⟨he, -⟩ | ⟨-, he⟩ | ⟨hh, ht⟩
  · exact .inl he
  · rw [engineTurn_writes he]
    exact .inr (.inr ⟨rfl, rfl, rfl, rfl, rfl, rfl⟩)
  · rcases hostTurn_outcome ht with rfl | ⟨w, u, hu, rfl | ⟨v, e, ha, rfl⟩⟩
    · exact .inr (.inr ⟨rfl, rfl, rfl, rfl, rfl, rfl⟩)
    · obtain ⟨rest, rfl⟩ := hu.same_block
      exact .inr (.inr ⟨rfl, rfl, rfl, rfl, rfl, rfl⟩)
    · have hw : currentWord s = some w := currentWord_of_tries (s := consumeTurn s) hu
      obtain ⟨rest, rfl⟩ := hu.same_block
      rcases ha.configuration with ⟨hi, hs, hq, -, -⟩ | ⟨hrs, hc⟩
      · exact .inr (.inl ⟨hh, hs, hq, rfl, w, hw, hi⟩)
      · refine .inr (.inr ?_)
        rw [respondWith_configured, respondWith_rs, hrs, hc]
        exact ⟨rfl, rfl, rfl, rfl, rfl, rfl⟩

/-- Settles O30: what a turn writes, and how it moves the queues. -/
theorem engineWritesOnlyItsElements : Obligations.EngineWritesOnlyItsElements :=
  fun _ _ h => ⟨engineTurn_writes h, engineTurn_queues h⟩

/-- Settles O59: an `INIT` that does not hold starts on a drained engine, and writes only the Resampler. -/
theorem initIsDrainBarrier : Obligations.InitIsDrainBarrier := by
  intro s t h hne
  rcases exec_cases h with rfl | ⟨u, e, ha, rfl⟩
  · exact absurd rfl hne
  · cases ha with
    | init hs hq _ _ => exact ⟨hs, hq, hs, hq, rfl, engineEnabled_idle_nil hs hq⟩

/-- Settles O35: a turn of the engine keeps both bits, a transaction the bit of the operation it is not. -/
theorem readyBitsPersist : Obligations.ReadyBitsPersist := by
  intro s t hcoh h hreset
  have announce : ((inReady s = true →
        (nextEvent s = .host ∧ ∃ w x, currentWord s = some w ∧ decode w = .ok (.push x)) ∨ inReady t = true) ∧
      (outValid s = true → (nextEvent s = .host ∧ ∃ w, currentWord s = some w ∧ decode w = .ok .pop) ∨
        outValid t = true)) := by
    rcases step_cases h with ⟨he, -⟩ | ⟨-, he⟩ | ⟨hh, ht⟩
    · exact absurd he hreset
    · have hkeep := engineTurn_keeps_ready (s := consumeTurn s) hcoh.inWithin he
      exact ⟨fun hr => .inr (hkeep.1 hr), fun hv => .inr (hkeep.2 hv)⟩
    · rcases hostTurn_outcome ht with rfl | ⟨w, u, hu, rfl | ⟨v, e, ha, rfl⟩⟩
      · exact ⟨.inr, .inr⟩
      · obtain ⟨rest, rfl⟩ := hu.same_block
        exact ⟨.inr, .inr⟩
      · have hw : currentWord s = some w := currentWord_of_tries (s := consumeTurn s) hu
        obtain ⟨rest, rfl⟩ := hu.same_block
        have hkeep := ha.keeps_ready
        exact ⟨fun hr => (hkeep.1 hr).imp_left fun ⟨x, hx⟩ => ⟨hh, w, x, hw, hx⟩,
          fun hv => (hkeep.2 hv).imp_left fun hx => ⟨hh, w, hw, hx⟩⟩
  exact ⟨fun hr => (announce.1 hr).imp_right fun hr' => ⟨hr', exec_push_ne_hold hr'⟩,
    fun hv => (announce.2 hv).imp_right fun hv' => ⟨hv', exec_pop_ne_hold hv'⟩⟩
end

section
/-! The arithmetic of the phase accumulator (41_streaming_engine.md R155 to R160; 10_state.md R36, R37, R44):
comparisons, the subtraction of 1.0, the quotients of rates, and the progress of one advance. Bounds are counted in
grains of 2^-33, which every bound needed here is a whole number of. -/

namespace Sys2Proof.Machine

theorem val64_one : val64 0x3FF0000000000000#64 = .fin false (oneUnits fmt64) := by decide +kernel

theorem val64_two : val64 0x4000000000000000#64 = .fin false (2 * oneUnits fmt64) := by decide +kernel

theorem val64_zero : val64 0x0000000000000000#64 = .fin false 0 := by decide +kernel

theorem magnitude_unique {a : F64} {m n : Nat} (hm : val64 a = .fin false m) (hn : val64 a = .fin false n) :
    m = n := by
  rw [hm] at hn
  exact (FloatVal.fin.inj hn).2

/-! ## Comparisons of values that are not negative -/

theorem flt64_nonneg {a b : F64} {m n : Nat} (ha : val64 a = .fin false m) (hb : val64 b = .fin false n) :
    flt64 a b = decide (m < n) := by
  simp [flt64, ha, hb, ltVal, signedUnits]

theorem fge64_nonneg {a b : F64} {m n : Nat} (ha : val64 a = .fin false m) (hb : val64 b = .fin false n) :
    fge64 a b = decide (n ≤ m) := by
  simp [fge64, ha, hb, leVal, signedUnits]

theorem moreOutputs_nonneg {position : F64} {m : Nat} (h : val64 position = .fin false m) :
    moreOutputs position = decide (m < oneUnits fmt64) := flt64_nonneg h val64_one

/-! ## Subtracting 1.0 (R156) -/

/-- Between 1.0 and 2.0 the difference from 1.0 is representable: its significand only loses bits. -/
theorem Representable.sub_one {m : Nat} (h : Representable fmt64 m) (hge : oneUnits fmt64 ≤ m)
    (hlt : m < 2 * oneUnits fmt64) : Representable fmt64 (m - oneUnits fmt64) := by
  obtain ⟨n, j, rfl, hn, -, hc⟩ := h.significand
  have hexp := unitExp64
  have hj : j ≤ unitExp fmt64 := by
    rcases hc with rfl | hc
    · omega
    · have htwo : 2 * oneUnits fmt64 = 2 ^ (unitExp fmt64 + 1) := by rw [oneUnits, Nat.pow_succ']
      rw [htwo] at hlt
      have hsum := exponent_lt hc hlt
      omega
  have hone : oneUnits fmt64 = 2 ^ (unitExp fmt64 - j) * 2 ^ j := by
    rw [← Nat.pow_add, Nat.sub_add_cancel hj]; rfl
  rw [hone, ← Nat.sub_mul]
  exact representable64 _ j ((Nat.sub_le _ _).trans hn.le) (by omega)

theorem val64_renormPosition {position : F64} {m : Nat} (h : val64 position = .fin false m)
    (hge : oneUnits fmt64 ≤ m) : ∃ n, val64 (renormPosition position) = .fin false n ∧ n ≤ m ∧
      (m < 2 * oneUnits fmt64 → n = m - oneUnits fmt64) := by
  have hrep := representable_of_val64 h
  obtain ⟨n, hn, hle, -⟩ := fsub64_nonneg h val64_one hge hrep (Nat.sub_le _ _)
  refine ⟨n, hn, hle, fun hlt => ?_⟩
  have hdiff := hrep.sub_one hge hlt
  obtain ⟨n', hn', hle', hge'⟩ := fsub64_nonneg h val64_one hge hdiff le_rfl
  rw [magnitude_unique hn hn', Nat.le_antisymm hle' (hge' _ hdiff le_rfl)]

/-! ## Grains -/

/-- 2^-33 in units. -/
def grain : Nat := 2 ^ (unitExp fmt64 - 33)

theorem grain_pos : 0 < grain := Nat.two_pow_pos _

theorem oneUnits_eq_grains : oneUnits fmt64 = 2 ^ 33 * grain := by
  rw [grain, ← Nat.pow_add, Nat.add_sub_cancel' (by decide)]
  rfl

theorem representable_grains {n : Nat} (hn : n ≤ 2 ^ 53) : Representable fmt64 (n * grain) :=
  representable64 n _ hn (by decide)

/-- A power of two of ones is representable. -/
theorem representable_ones_pow (k : Nat) (hk : k ≤ 64) : Representable fmt64 (2 ^ k * oneUnits fmt64) := by
  have h := representable64 1 (k + unitExp fmt64) (by norm_num) (by rw [unitExp64]; omega)
  rwa [Nat.one_mul, Nat.pow_add] at h

/-- No quotient of two rates is above 2^32. -/
theorem representable_maxQuotient : Representable fmt64 (2 ^ 65 * grain) := by
  have h : 2 ^ 65 * grain = 2 ^ 32 * oneUnits fmt64 := by rw [oneUnits_eq_grains]; ring
  rw [h]
  exact representable_ones_pow 32 (by norm_num)

/-! ## Quotients -/

/-- Where a quotient lies, in grains, from where the exact one does. -/
theorem fdiv64_grains {p q : F64} {a b lo hi : Nat} (hp : val64 p = .fin false a) (hq : val64 q = .fin false b)
    (hb : 0 < b) (hrl : Representable fmt64 (lo * grain)) (hrh : Representable fmt64 (hi * grain))
    (hlo : lo * b ≤ a * 2 ^ 33) (hhi : a * 2 ^ 33 ≤ hi * b) :
    ∃ m, val64 (fdiv64 p q) = .fin false m ∧ lo * grain ≤ m ∧ m ≤ hi * grain := by
  have hone := oneUnits_eq_grains
  have scale {x y : Nat} (h : x ≤ y) : x * grain ≤ y * grain := Nat.mul_le_mul_right _ h
  obtain ⟨m, hm, hle, hge⟩ := fdiv64_nonneg hp hq hb hrh (by
    rw [hone]
    calc a * (2 ^ 33 * grain) = a * 2 ^ 33 * grain := by ring
      _ ≤ hi * b * grain := scale hhi
      _ = hi * grain * b := by ring)
  refine ⟨m, hm, hge _ hrl ?_, hle⟩
  rw [hone]
  calc lo * grain * b = lo * b * grain := by ring
    _ ≤ a * 2 ^ 33 * grain := scale hlo
    _ = a * (2 ^ 33 * grain) := by ring

theorem toNat_pos_of_ne_zero {a : Word} (h : a ≠ 0#32) : 0 < a.toNat := by
  rw [Nat.pos_iff_ne_zero]
  intro h0
  exact h (BitVec.eq_of_toNat_eq h0)

theorem fdiv64_rates {x y : Word} (hy : y ≠ 0#32) {lo hi : Nat} (hrl : Representable fmt64 (lo * grain))
    (hrh : Representable fmt64 (hi * grain)) (hlo : lo * y.toNat ≤ x.toNat * 2 ^ 33)
    (hhi : x.toNat * 2 ^ 33 ≤ hi * y.toNat) :
    ∃ m, val64 (fdiv64 (u32ToF64 x) (u32ToF64 y)) = .fin false m ∧ lo * grain ≤ m ∧ m ≤ hi * grain := by
  have hpos := oneUnits_pos fmt64
  have hy0 := toNat_pos_of_ne_zero hy
  refine fdiv64_grains (val64_u32ToF64 x) (val64_u32ToF64 y) (Nat.mul_pos hy0 hpos) hrl hrh ?_ ?_
  · calc lo * (y.toNat * oneUnits fmt64) = lo * y.toNat * oneUnits fmt64 := by ring
      _ ≤ x.toNat * 2 ^ 33 * oneUnits fmt64 := Nat.mul_le_mul_right _ hlo
      _ = x.toNat * oneUnits fmt64 * 2 ^ 33 := by ring
  · calc x.toNat * oneUnits fmt64 * 2 ^ 33 = x.toNat * 2 ^ 33 * oneUnits fmt64 := by ring
      _ ≤ hi * y.toNat * oneUnits fmt64 := Nat.mul_le_mul_right _ hhi
      _ = hi * (y.toNat * oneUnits fmt64) := by ring

theorem fdiv64_reciprocal {q : F64} {n lo hi lo' hi' : Nat} (hq : val64 q = .fin false n) (hlo : lo * grain ≤ n)
    (hhi : n ≤ hi * grain) (hpos : 0 < lo) (hrl : Representable fmt64 (lo' * grain))
    (hrh : Representable fmt64 (hi' * grain)) (h1 : lo' * hi ≤ 2 ^ 66) (h2 : 2 ^ 66 ≤ hi' * lo) :
    ∃ m, val64 (fdiv64 0x3FF0000000000000#64 q) = .fin false m ∧ lo' * grain ≤ m ∧ m ≤ hi' * grain := by
  have hn : 0 < n := lt_of_lt_of_le (Nat.mul_pos hpos grain_pos) hlo
  have hone : oneUnits fmt64 * 2 ^ 33 = 2 ^ 66 * grain := by rw [oneUnits_eq_grains]; ring
  refine fdiv64_grains val64_one hq hn hrl hrh ?_ ?_
  · calc lo' * n ≤ lo' * (hi * grain) := Nat.mul_le_mul_left _ hhi
      _ = lo' * hi * grain := (Nat.mul_assoc ..).symm
      _ ≤ 2 ^ 66 * grain := Nat.mul_le_mul_right _ h1
      _ = oneUnits fmt64 * 2 ^ 33 := hone.symm
  · calc oneUnits fmt64 * 2 ^ 33 = 2 ^ 66 * grain := hone
      _ ≤ hi' * lo * grain := Nat.mul_le_mul_right _ h2
      _ = hi' * (lo * grain) := Nat.mul_assoc ..
      _ ≤ hi' * n := Nat.mul_le_mul_left _ hlo

/-- The step of two non-zero rates, under either mode, lies between 2^-32 and 2^32, and off 1.0 by more than a grain's
width on the side of the real quotient (10_state.md R37). -/
theorem val64_rateStep (mode : StepMode) {input output : Word} (hin : input ≠ 0#32) (hout : output ≠ 0#32) :
    ∃ m, val64 (rateStep mode input output) = .fin false m ∧ 2 * grain ≤ m ∧ m ≤ 2 ^ 65 * grain ∧
      (input.toNat < output.toNat → m ≤ (2 ^ 33 - 1) * grain) ∧
      (output.toNat < input.toNat → (2 ^ 33 + 1) * grain ≤ m) := by
  have ha := input.isLt
  have hb := output.isLt
  have ha0 := toNat_pos_of_ne_zero hin
  have hb0 := toNat_pos_of_ne_zero hout
  have hbig := representable_maxQuotient
  have hsmall {n : Nat} (hn : n ≤ 2 ^ 34 := by norm_num) : Representable fmt64 (n * grain) :=
    representable_grains (hn.trans (by norm_num))
  cases mode with
  | quotient =>
    obtain ⟨m, hm, hlo, hhi⟩ := fdiv64_rates (x := input) hout (lo := 2) hsmall hbig (by omega) (by omega)
    refine ⟨m, hm, hlo, hhi, fun hlt => ?_, fun hlt => ?_⟩
    · obtain ⟨m', hm', -, h⟩ := fdiv64_rates (x := input) hout (lo := 2) (hi := 2 ^ 33 - 1) hsmall hsmall
        (by omega) (by omega)
      exact magnitude_unique hm hm' ▸ h
    · obtain ⟨m', hm', h, -⟩ := fdiv64_rates (x := input) hout (lo := 2 ^ 33 + 1) hsmall hbig (by omega) (by omega)
      exact magnitude_unique hm hm' ▸ h
  | reciprocal =>
    obtain ⟨r, hr, hrlo, hrhi⟩ := fdiv64_rates (x := output) hin (lo := 2) hsmall hbig (by omega) (by omega)
    obtain ⟨m, hm, hlo, hhi⟩ := fdiv64_reciprocal (lo' := 2) hr hrlo hrhi (by norm_num) hsmall hbig (by norm_num)
      (by norm_num)
    refine ⟨m, hm, hlo, hhi, fun hlt => ?_, fun hlt => ?_⟩
    · obtain ⟨r', hr', hlo', -⟩ := fdiv64_rates (x := output) hin (lo := 2 ^ 33 + 2) hsmall hbig (by omega) (by omega)
      obtain rfl := magnitude_unique hr hr'
      obtain ⟨m', hm', -, h⟩ := fdiv64_reciprocal (lo' := 2) (hi' := 2 ^ 33 - 1) hr hlo' hrhi (by norm_num) hsmall
        hsmall (by norm_num) (by norm_num)
      exact magnitude_unique hm hm' ▸ h
    · obtain ⟨r', hr', -, hhi'⟩ := fdiv64_rates (x := output) hin (lo := 2) (hi := 2 ^ 33 - 1) hsmall hsmall
        (by omega) (by omega)
      obtain rfl := magnitude_unique hr hr'
      obtain ⟨m', hm', h, -⟩ := fdiv64_reciprocal (lo' := 2 ^ 33 + 1) hr hrlo hhi' (by norm_num) hsmall hbig
        (by norm_num) (by norm_num)
      exact magnitude_unique hm hm' ▸ h

/-! ## One advance (R155, R160) -/

/-- An advance from below 1.0 does not round past a bound that is representable. -/
theorem val64_advancePosition {position step : F64} {m n : Nat} (hp : val64 position = .fin false m)
    (hs : val64 step = .fin false n) (hm : m < oneUnits fmt64) (hn : n ≤ oneUnits fmt64 * 2 ^ 32) :
    ∃ r, val64 (advancePosition position step) = .fin false r ∧ r ≤ oneUnits fmt64 * 2 ^ 33 ∧
      (∀ lo, Representable fmt64 lo → lo ≤ m + n → lo ≤ r) ∧
      (∀ hi, Representable fmt64 hi → m + n ≤ hi → r ≤ hi) := by
  have hbig : Representable fmt64 (oneUnits fmt64 * 2 ^ 33) := by
    rw [Nat.mul_comm]
    exact representable_ones_pow 33 (by norm_num)
  obtain ⟨r, hr, hle, hge⟩ := fadd64_nonneg hp hs hbig (by omega)
  refine ⟨r, hr, hle, hge, fun hi hrep h => ?_⟩
  obtain ⟨r', hr', hle', -⟩ := fadd64_nonneg hp hs hrep h
  rwa [magnitude_unique hr hr']

/-- How many advances of at least a grain a position can be from 1.0. -/
def advancesLeft (m : Nat) : Nat := 2 ^ 33 - m / grain

theorem advancesLeft_le (m : Nat) : advancesLeft m ≤ 2 ^ 33 := Nat.sub_le _ _

theorem advancesLeft_pos {m : Nat} (h : m < oneUnits fmt64) : 0 < advancesLeft m := by
  rw [oneUnits_eq_grains] at h
  exact Nat.sub_pos_of_lt ((Nat.div_lt_iff_lt_mul grain_pos).2 h)

/-- R160: an advance by at least a grain takes at least a grain's worth, whatever the rounding. -/
theorem advancesLeft_advance {m n r : Nat} (hn : grain ≤ n) (hm : m < oneUnits fmt64)
    (h : ∀ lo, Representable fmt64 lo → lo ≤ m + n → lo ≤ r) : advancesLeft r < advancesLeft m := by
  have hpos := advancesLeft_pos hm
  have hlt : m / grain < 2 ^ 33 := Nat.lt_of_sub_pos hpos
  have hlo : (m / grain + 1) * grain ≤ m + n := by
    rw [Nat.add_mul, Nat.one_mul]
    exact Nat.add_le_add (Nat.div_mul_le_self m grain) hn
  have hr := h _ (representable_grains (by omega)) hlo
  have hdiv : m / grain + 1 ≤ r / grain := (Nat.le_div_iff_mul_le grain_pos).2 hr
  unfold advancesLeft
  omega

end Sys2Proof.Machine
end

section
/-! The obligations of 41_streaming_engine.md about the phase index and the subtraction of 1.0: R156 and R158. -/

open Sys2Proof Sys2Proof.Machine

/-- Settles O27: the product is exact, and its floor is a phase. -/
theorem phaseIndexIsExactFloor : Obligations.PhaseIndexIsExactFloor := by
  intro position m hp hm
  obtain ⟨ph, hval, -, hph⟩ := exists_phaseIndex_of_lt_one hp hm
  exact ⟨val64_fmul64_128 hp hm, ph, hph, hval⟩

/-- Settles O29: the turn is `eRenorm`, and the difference is bounded by the position it starts from. -/
theorem eRenormSubtractsOne : Obligations.ERenormSubtractsOne :=
  ⟨fun s hs => ⟨by simp [engineEnabled, hs], by simp only [engineTurn, hs]; rfl⟩, fun _ _ => val64_renormPosition⟩
end

section
/-! The invariants of a sound state (10_state.md R41 to R44, 41_streaming_engine.md R158, R159), kept by every kind of
turn and hence by every step. -/

namespace Sys2Proof.Machine

/-! ## What the invariants do not look at -/

/-- The elements outside the engine: the staging rates, the host's side, the schedule and the step count. -/
structure Outside where
  inRate : Word
  outRate : Word
  port : Option Bus48
  program : List Bus48
  trace : List TraceEntry
  schedule : List Event
  tick : Nat

/-- A state with those elements replaced. -/
def withOutside (o : Outside) (s : State) : State :=
  { s with inRate := o.inRate, outRate := o.outRate, port := o.port, program := o.program, trace := o.trace,
           schedule := o.schedule, tick := o.tick }

theorem consumeTurn_eq_withOutside (s : State) : consumeTurn s =
    withOutside ⟨s.inRate, s.outRate, s.port, s.program, s.trace, (upcoming s).tail, s.tick + 1⟩ s := rfl

theorem respondWith_eq_withOutside (e : TraceEntry) (s : State) : respondWith e s =
    withOutside ⟨s.inRate, s.outRate, none, s.program, s.trace ++ [e], s.schedule, s.tick⟩ s := rfl

theorem Tries.eq_withOutside {s u : State} {w : Bus48} (h : Tries s w u) : ∃ rest, u =
    withOutside ⟨s.inRate, s.outRate, some w, rest, s.trace, s.schedule, s.tick⟩ s := h.same_block

theorem Coherent.outside {s : State} (h : Coherent s) (o : Outside) : Coherent (withOutside o s) :=
  ⟨h.quiet, h.rates, h.derived, h.passIdentity, h.filterRates, h.inWithin, h.outWithin, h.samples⟩

theorem Sound.outside {s : State} (h : Sound s) (o : Outside) : Sound (withOutside o s) :=
  ⟨h.coherent.outside o, h.position.step, h.position.position, h.position.emitBelowOne, h.position.renormAtLeastOne⟩

theorem UnitPosition.outside {s : State} (h : UnitPosition s) (o : Outside) : UnitPosition (withOutside o s) :=
  ⟨h.between, h.inside⟩

/-- A property of the block that a reset event establishes and every turn of the engine and every operation that
completes keeps, is kept by every step. -/
theorem step_keeps {P : State → Prop}
    (hout : ∀ {s}, P s → ∀ o, P (withOutside o s)) (reset : ∀ s, P (resetEvent s))
    (engine : ∀ {s t}, P s → engineTurn s = .next t → P t) (host : ∀ {i s t e}, P s → Answers i s t e → P t) {s t : State} (hs : P s) (h : step s = .next t) : P t := by
  have hc : P (consumeTurn s) := consumeTurn_eq_withOutside s ▸ hout hs _
  have hr {u : State} (hu : P u) (e : TraceEntry) : P (respondWith e u) := respondWith_eq_withOutside e u ▸ hout hu _
  rcases step_cases h with ⟨-, rfl⟩ | ⟨-, he⟩ | ⟨-, ht⟩
  · exact reset _
  · exact engine hc he
  · rcases hostTurn_outcome ht with rfl | ⟨w, u, hu, hdone⟩
    · exact hc
    · obtain ⟨rest, rfl⟩ := hu.eq_withOutside
      rcases hdone with rfl | ⟨v, e, ⟨c, -, rfl, -⟩ | ⟨i, -, ha⟩, rfl⟩
      · exact hout hc _
      · exact hr (hout hc _) _
      · exact hr (host (hout hc _) ha) _

/-! ## The control invariant -/

theorem Coherent.configured_of_seq {s : State} (h : Coherent s) (hs : s.seq ≠ .idle) : s.configured = true := by
  by_contra hc
  exact hs (h.quiet (Bool.eq_false_iff.2 hc)).1

theorem Coherent.configured_of_inq {s : State} (h : Coherent s) (hq : s.inq ≠ []) : s.configured = true := by
  by_contra hc
  exact hq (h.quiet (Bool.eq_false_iff.2 hc)).2.1

theorem Coherent.configured_of_outq {s : State} (h : Coherent s) (hq : s.outq ≠ []) : s.configured = true := by
  by_contra hc
  exact hq (h.quiet (Bool.eq_false_iff.2 hc)).2.2

/-- A queue with room takes one more sample. -/
theorem queueWithin_pushBack {d : Depth} {q : List Sample} (hw : queueWithin d q) (hf : queueFull d q = false)
    (x : Sample) : queueWithin d (pushBack q x) := by
  cases d with
  | unbounded => trivial
  | entries more =>
    rw [Bool.eq_false_iff, Ne, queueFull_entries] at hf
    simp only [queueWithin, pushBack_length] at hw ⊢
    omega

theorem queueWithin_tail {d : Depth} {x : Sample} {rest : List Sample} (hw : queueWithin d (x :: rest)) :
    queueWithin d rest := by
  cases d with
  | unbounded => trivial
  | entries more => exact (Nat.le_succ _).trans hw

theorem queueWithin_empty (d : Depth) : queueWithin d [] := by
  cases d with
  | unbounded => trivial
  | entries more => exact Nat.zero_le _

theorem i16ToF32_zero : i16ToF32 0#16 = 0x00000000#32 := by decide +kernel

theorem coherent_resetEvent (s : State) : Coherent (resetEvent s) where
  quiet _ := ⟨rfl, rfl, rfl⟩
  rates h := nomatch h
  derived h := nomatch h
  passIdentity h := nomatch h
  filterRates h := nomatch h
  inWithin := queueWithin_empty _
  outWithin := queueWithin_empty _
  samples h := nomatch h

theorem Coherent.answers {i : Instr} {s t : State} {e : TraceEntry} (h : Coherent s) (ha : Answers i s t e) :
    Coherent t := by
  cases ha with
  | init hs hq hin hout =>
    exact
      { quiet := fun hc => nomatch hc
        rates := fun _ => ⟨hin, hout⟩
        derived := fun _ => ⟨rfl, rfl, rfl⟩
        passIdentity := fun hp => nomatch hs.symm.trans hp
        filterRates := fun hf => by simp [hs, filtering] at hf
        inWithin := h.inWithin
        outWithin := h.outWithin
        samples := fun _ i hi => ⟨0#16, (zeroHistory_get i hi).trans i16ToF32_zero.symm⟩ }
  | push x hc hf =>
    exact { h with
      quiet := fun hc' => nomatch hc.symm.trans hc'
      inWithin := queueWithin_pushBack h.inWithin hf x }
  | pop hq =>
    have hc := h.configured_of_outq (hq ▸ List.cons_ne_nil _ _)
    exact { h with
      quiet := fun hc' => nomatch hc.symm.trans hc'
      outWithin := queueWithin_tail (hq ▸ h.outWithin) }
  | setin rate => exact { h with }
  | setout rate => exact { h with }
  | _ => exact h

/-! ### The two branches of the sequencer -/

theorem ePop_pass {x : Sample} {rest : List Sample} {s : State} (h : (ePop x rest s).seq = .pass) :
    ratesEqual s.rs = true := by
  rw [ePop_seq] at h
  by_contra hr
  rw [if_neg hr] at h
  cases h

theorem ePop_filtering {x : Sample} {rest : List Sample} {s : State} (h : filtering (ePop x rest s).seq = true) :
    ratesEqual s.rs = false := by
  rw [ePop_seq] at h
  by_contra hr
  rw [if_pos (by simpa using hr)] at h
  cases h

/-- A window of converted samples stays one when a sample is shifted in. -/
theorem shiftHistory_samples {h : Row} (hs : ∀ (i : Nat) (hi : i < 16), ∃ x : Sample, h[i] = i16ToF32 x) (y : Sample)
    (i : Nat) (hi : i < 16) : ∃ x : Sample, (shiftHistory h (i16ToF32 y))[i] = i16ToF32 x := by
  rcases Nat.lt_succ_iff_lt_or_eq.1 hi with hlt | rfl
  · rw [shiftHistory_get _ _ i hlt]
    exact hs (i + 1) (Nat.succ_lt_succ hlt)
  · exact ⟨y, shiftHistory_last _ _⟩

theorem Coherent.moved {s : State} (h : Coherent s) (hs : s.seq ≠ .idle) {history : Row} {position : F64}
    {outq : List Sample} {seq : Seq} (hp : seq ≠ .pass) (hf : filtering seq = true → filtering s.seq = true)
    (hq : queueWithin s.params.outDepth outq)
    (hh : ∀ (i : Nat) (hi : i < 16), ∃ x : Sample, history[i] = i16ToF32 x) :
    Coherent (moved history position outq seq s) where
  quiet hc := nomatch (h.configured_of_seq hs).symm.trans hc
  rates := h.rates
  derived := h.derived
  passIdentity hp' := absurd hp' hp
  filterRates hf' := h.filterRates (hf hf')
  inWithin := h.inWithin
  outWithin := hq
  samples _ := hh

theorem Coherent.of_engineTurn {s t : State} (h : Coherent s) (ht : engineTurn s = .next t) : Coherent t := by
  have samples (hs : s.seq ≠ .idle) := h.samples (h.configured_of_seq hs)
  rcases engineTurn_moves ht with rfl | ⟨x, rest, -, hq, rfl⟩ | ⟨hs, hf, rfl⟩ | ⟨hs, rfl⟩ | ⟨hs, -, rfl⟩ |
    ⟨hs, -, rfl⟩ | ⟨ph, hs, hf, -, rfl⟩ | ⟨hs, rfl⟩
  · exact h
  · have hc := h.configured_of_inq (hq ▸ List.cons_ne_nil _ _)
    exact { h with
      quiet := fun hc' => nomatch hc.symm.trans hc'
      passIdentity := ePop_pass
      filterRates := ePop_filtering
      inWithin := queueWithin_tail (hq ▸ h.inWithin) }
  all_goals
    have hne : s.seq ≠ .idle := by simp [hs]
  · exact h.moved hne (by decide) (fun h => nomatch h) (queueWithin_pushBack h.outWithin hf s.cur) (samples hne)
  · exact h.moved hne (by decide) (fun _ => by rw [hs]; rfl) h.outWithin (shiftHistory_samples (samples hne) s.cur)
  · exact h.moved hne (by decide) (fun _ => by rw [hs]; rfl) h.outWithin (samples hne)
  · exact h.moved hne (by decide) (fun _ => by rw [hs]; rfl) h.outWithin (samples hne)
  · exact h.moved hne (by decide) (fun _ => by rw [hs]; rfl) (queueWithin_pushBack h.outWithin hf _) (samples hne)
  · exact h.moved hne (by decide) (fun h => nomatch h) h.outWithin (samples hne)

theorem step_coherent {s t : State} (hs : Coherent s) (h : step s = .next t) : Coherent t :=
  step_keeps Coherent.outside coherent_resetEvent Coherent.of_engineTurn Coherent.answers hs h

/-! ## The phase accumulator -/

/-- What a position not at 1.0 yet means in units. -/
theorem lt_one_of_moreOutputs {position : F64} {m : Nat} (hm : val64 position = .fin false m)
    (h : moreOutputs position = true) : m < oneUnits fmt64 := by
  rw [moreOutputs_nonneg hm] at h
  exact of_decide_eq_true h

theorem one_le_of_not_moreOutputs {position : F64} {m : Nat} (hm : val64 position = .fin false m)
    (h : moreOutputs position = false) : oneUnits fmt64 ≤ m := by
  rw [moreOutputs_nonneg hm] at h
  exact Nat.le_of_not_lt (of_decide_eq_false h)

theorem sound_resetEvent (s : State) : Sound (resetEvent s) :=
  ⟨coherent_resetEvent s, ⟨(fun h => nomatch h), (fun h => nomatch h), (fun h => nomatch h), (fun h => nomatch h)⟩⟩

theorem step_bounds_of_grains {m : Nat} (hlo : 2 * grain ≤ m) (hhi : m ≤ 2 ^ 65 * grain) :
    oneUnits fmt64 ≤ m * 2 ^ 32 ∧ m ≤ oneUnits fmt64 * 2 ^ 32 := by
  rw [oneUnits_eq_grains]
  generalize grain = g at *
  omega

theorem Sound.answers {i : Instr} {s t : State} {e : TraceEntry} (h : Sound s) (ha : Answers i s t e) : Sound t := by
  refine ⟨h.coherent.answers ha, ?_⟩
  have hp := h.position
  cases ha with
  | init hs hq hin hout =>
    obtain ⟨m, hm, hlo, hhi, -⟩ := val64_rateStep s.params.stepMode hin hout
    exact
      { step := fun _ => ⟨m, hm, step_bounds_of_grains hlo hhi⟩
        position := fun _ => ⟨0, val64_zero, Nat.zero_le _⟩
        emitBelowOne := fun h => nomatch hs.symm.trans h
        renormAtLeastOne := fun h => nomatch hs.symm.trans h }
  | getparams | getin | getout | ctrlnop | stat | pushUnconfigured => exact hp
  | _ => exact { hp with }

theorem PositionOk.moved {s : State} (h : PositionOk s) {history : Row} {position : F64} {outq : List Sample}
    {seq : Seq}
    (hpos : s.configured = true → ∃ m, val64 position = .fin false m ∧ m ≤ oneUnits fmt64 * 2 ^ 33)
    (hemit : seq = .emit → moreOutputs position = true) (hrenorm : seq = .renorm → moreOutputs position = false) :
    PositionOk (moved history position outq seq s) :=
  ⟨h.step, hpos, hemit, hrenorm⟩

theorem Sound.of_engineTurn {s t : State} (h : Sound s) (ht : engineTurn s = .next t) : Sound t := by
  refine ⟨h.coherent.of_engineTurn ht, ?_⟩
  have hp := h.position
  rcases engineTurn_moves ht with rfl | ⟨x, rest, -, -, rfl⟩ | ⟨-, -, rfl⟩ | ⟨-, rfl⟩ | ⟨-, hm, rfl⟩ |
    ⟨-, hm, rfl⟩ | ⟨ph, hs, -, -, rfl⟩ | ⟨hs, rfl⟩
  · exact hp
  · exact { hp with
      emitBelowOne := fun h => by rw [ePop_seq] at h; split at h <;> cases h
      renormAtLeastOne := fun h => by rw [ePop_seq] at h; split at h <;> cases h }
  · exact hp.moved hp.position (fun h => nomatch h) (fun h => nomatch h)
  · exact hp.moved hp.position (fun h => nomatch h) (fun h => nomatch h)
  · exact hp.moved hp.position (fun _ => hm) (fun h => nomatch h)
  · exact hp.moved hp.position (fun h => nomatch h) (fun _ => hm)
  · refine hp.moved (fun hc => ?_) (fun h => nomatch h) (fun h => nomatch h)
    obtain ⟨m, hm, -⟩ := hp.position hc
    obtain ⟨n, hn, -, hn32⟩ := hp.step hc
    obtain ⟨r, hr, hle, -⟩ := val64_advancePosition hm hn (lt_one_of_moreOutputs hm (hp.emitBelowOne hs)) hn32
    exact ⟨r, hr, hle⟩
  · refine hp.moved (fun hc => ?_) (fun h => nomatch h) (fun h => nomatch h)
    obtain ⟨m, hm, hm33⟩ := hp.position hc
    obtain ⟨n, hn, hle, -⟩ := val64_renormPosition hm (one_le_of_not_moreOutputs hm (hp.renormAtLeastOne hs))
    exact ⟨n, hn, hle.trans hm33⟩

theorem step_sound {s t : State} (hs : Sound s) (h : step s = .next t) : Sound t :=
  step_keeps Sound.outside sound_resetEvent Sound.of_engineTurn Sound.answers hs h

/-! ## The position with a step of at most 1.0 -/

/-- In the filtering part a step of at most 1.0 is below 1.0 by a grain: the rates differ (10_state.md R44 b, f). -/
theorem Coherent.step_below_one {s : State} (h : Coherent s) (hf : filtering s.seq = true)
    (hle : fge64 0x3FF0000000000000#64 s.rs.step = true) :
    ∃ n, val64 s.rs.step = .fin false n ∧ n ≤ (2 ^ 33 - 1) * grain := by
  have hc := h.configured_of_seq (fun hs => by simp [hs, filtering] at hf)
  obtain ⟨hin, hout⟩ := h.rates hc
  obtain ⟨-, hstep, -⟩ := h.derived hc
  obtain ⟨n, hn, -, -, hbelow, habove⟩ := val64_rateStep s.params.stepMode hin hout
  rw [← hstep] at hn
  refine ⟨n, hn, ?_⟩
  have hne : s.rs.inputRate.toNat ≠ s.rs.outputRate.toNat := fun he => by
    have hr := h.filterRates hf
    simp [ratesEqual, BitVec.eq_of_toNat_eq he] at hr
  rcases Nat.lt_or_gt_of_ne hne with hlt | hgt
  · exact hbelow hlt
  · rw [fge64_nonneg val64_one hn, decide_eq_true_iff, oneUnits_eq_grains] at hle
    have hge := habove hgt
    have hpos := grain_pos
    generalize grain = g at *
    omega

/-- A step below 1.0 by a grain advances a position below 1.0 to below 2.0 by a grain. -/
theorem below_one_of_grains {n : Nat} (h : n ≤ (2 ^ 33 - 1) * grain) :
    n ≤ oneUnits fmt64 ∧ ∀ {m : Nat}, m < oneUnits fmt64 → m + n ≤ (2 ^ 34 - 1) * grain := by
  rw [oneUnits_eq_grains]
  generalize grain = g at *
  constructor
  · omega
  · intro m hm
    omega

theorem below_two_grains : (2 ^ 34 - 1) * grain < 2 * oneUnits fmt64 := by
  have hpos := grain_pos
  rw [oneUnits_eq_grains]
  generalize grain = g at *
  omega

theorem UnitPosition.answers {i : Instr} {s t : State} {e : TraceEntry} (h : UnitPosition s) (ha : Answers i s t e) :
    UnitPosition t := by
  cases ha with
  | init hs hq hin hout =>
    have hone : flt64 0x0000000000000000#64 0x3FF0000000000000#64 = true := by decide +kernel
    have htwo : flt64 0x0000000000000000#64 0x4000000000000000#64 = true := by decide +kernel
    exact ⟨fun _ _ _ => hone, fun _ _ => htwo⟩
  | getparams | getin | getout | ctrlnop | stat | pushUnconfigured => exact h
  | _ => exact ⟨h.between, h.inside⟩

theorem UnitPosition.moved {s : State} {history : Row} {position : F64} {outq : List Sample} {seq : Seq}
    (hbetween : s.configured = true → fge64 0x3FF0000000000000#64 s.rs.step = true →
      (seq = .idle ∨ seq = .pass ∨ seq = .shift) → flt64 position 0x3FF0000000000000#64 = true)
    (hinside : s.configured = true → fge64 0x3FF0000000000000#64 s.rs.step = true →
      flt64 position 0x4000000000000000#64 = true) : UnitPosition (moved history position outq seq s) :=
  ⟨hbetween, hinside⟩

theorem UnitPosition.of_engineTurn {s t : State} (hsound : Sound s) (h : UnitPosition s)
    (ht : engineTurn s = .next t) : UnitPosition t := by
  rcases engineTurn_moves ht with rfl | ⟨x, rest, hs, -, rfl⟩ | ⟨hs, -, rfl⟩ | ⟨-, rfl⟩ | ⟨-, -, rfl⟩ |
    ⟨-, -, rfl⟩ | ⟨ph, hs, -, -, rfl⟩ | ⟨hs, rfl⟩
  · exact h
  · exact ⟨fun hc hle _ => h.between hc hle (.inl hs), h.inside⟩
  · exact .moved (fun hc hle _ => h.between hc hle (.inr (.inl hs))) h.inside
  · exact .moved (fun _ _ hseq => by simp at hseq) h.inside
  · exact .moved (fun _ _ hseq => by simp at hseq) h.inside
  · exact .moved (fun _ _ hseq => by simp at hseq) h.inside
  · refine .moved (fun _ _ hseq => by simp at hseq) (fun hc hle => ?_)
    obtain ⟨m, hm, -⟩ := hsound.position.position hc
    obtain ⟨n, hn, hbelow⟩ := hsound.coherent.step_below_one (by rw [hs]; rfl) hle
    have hlt := lt_one_of_moreOutputs hm (hsound.position.emitBelowOne hs)
    have hn1 := below_one_of_grains hbelow
    obtain ⟨r, hr, -, -, hup⟩ := val64_advancePosition hm hn hlt (hn1.1.trans (Nat.le_mul_of_pos_right _ (by norm_num)))
    have hr2 := hup _ (representable_grains (by norm_num)) (hn1.2 hlt)
    rw [flt64_nonneg hr val64_two, decide_eq_true_iff]
    exact lt_of_le_of_lt hr2 below_two_grains
  · have below (hc : s.configured = true) (hle : fge64 0x3FF0000000000000#64 s.rs.step = true) :
        ∃ n, val64 (renormPosition s.rs.position) = .fin false n ∧ n < oneUnits fmt64 := by
      obtain ⟨m, hm, -⟩ := hsound.position.position hc
      obtain ⟨n, hn, -, hexact⟩ := val64_renormPosition hm
        (one_le_of_not_moreOutputs hm (hsound.position.renormAtLeastOne hs))
      have hin := h.inside hc hle
      rw [flt64_nonneg hm val64_two, decide_eq_true_iff] at hin
      exact ⟨n, hn, by have := hexact hin; omega⟩
    refine .moved (fun hc hle _ => ?_) (fun hc hle => ?_)
    · obtain ⟨n, hn, hlt⟩ := below hc hle
      rw [flt64_nonneg hn val64_one, decide_eq_true_iff]
      exact hlt
    · obtain ⟨n, hn, hlt⟩ := below hc hle
      rw [flt64_nonneg hn val64_two, decide_eq_true_iff]
      omega

theorem step_unitPosition {s t : State} (hsound : Sound s) (hs : UnitPosition s) (h : step s = .next t) :
    UnitPosition t :=
  (step_keeps (P := fun u => Sound u ∧ UnitPosition u) (fun hu o => ⟨hu.1.outside o, hu.2.outside o⟩)
    (fun u => ⟨sound_resetEvent u, (fun hc => nomatch hc), (fun hc => nomatch hc)⟩)
    (fun hu ht => ⟨hu.1.of_engineTurn ht, hu.2.of_engineTurn hu.1 ht⟩)
    (fun hu ha => ⟨hu.1.answers ha, hu.2.answers ha⟩) ⟨hsound, hs⟩ h).2

/-! ## The stops of a step -/

/-- R158: a sound state has a phase wherever the engine asks for one. -/
theorem Sound.exists_phaseIndex {s : State} (h : Sound s) (hs : s.seq = .emit) :
    ∃ ph, phaseIndex s.rs.position = some ph := by
  obtain ⟨m, hm, -⟩ := h.position.position (h.coherent.configured_of_seq (by simp [hs]))
  obtain ⟨ph, -, -, hph⟩ := exists_phaseIndex_of_lt_one hm (lt_one_of_moreOutputs hm (h.position.emitBelowOne hs))
  exact ⟨ph, hph⟩

theorem Sound.exists_engineTurn {s : State} (h : Sound s) : ∃ t, engineTurn s = .next t := by
  cases ht : engineTurn s with
  | next t => exact ⟨t, rfl⟩
  | fault r =>
    obtain ⟨hs, -, hnone⟩ := engineTurn_fault ht
    obtain ⟨ph, hph⟩ := h.exists_phaseIndex hs
    exact nomatch hnone.symm.trans hph
  | refused r => exact absurd ht (engineTurn_ne_refused s r)

/-- The one stop of a turn of the host. -/
theorem hostTurn_stop {s : State} (h : ∀ t, hostTurn s ≠ .next t) : hostTurn s = .refused .initZeroRate ∧
    (s.inRate = 0#32 ∨ s.outRate = 0#32) ∧
    ∃ w, decode w = .ok .init ∧ (s.port = some w ∨ s.port = none ∧ s.program.head? = some w) := by
  rcases hostTurn_tries s with ⟨-, -, hn⟩ | ⟨w, u, hu⟩
  · exact absurd hn (h s)
  · rw [hostTurn_of_tries hu] at h ⊢
    cases hd : decode w with
    | error c => exact absurd (runTransaction_illegal hd u) (h _)
    | ok i =>
      rw [runTransaction_legal hd] at h ⊢
      have hstop := zeroRateInit_of_stop h
      have hr := exec_of_zeroRateInit hstop
      obtain ⟨rfl, -, -, hz⟩ := hstop
      refine ⟨hr, ?_, w, hd, ?_⟩
      · obtain ⟨rest, rfl⟩ := hu.same_block
        exact hz
      · rcases hu with ⟨hp, -⟩ | ⟨rest, hp, hw, -⟩
        · exact .inl hp
        · exact .inr ⟨hp, by rw [hw]; rfl⟩

/-- The one stop of a step from a sound state. -/
theorem step_stop {s : State} (hs : Sound s) (h : ∀ t, step s ≠ .next t) :
    nextEvent s = .host ∧ step s = .refused .initZeroRate ∧ (s.inRate = 0#32 ∨ s.outRate = 0#32) ∧
    ∃ w, decode w = .ok .init ∧ (s.port = some w ∨ s.port = none ∧ s.program.head? = some w) := by
  unfold step at h ⊢
  cases he : nextEvent s with
  | host =>
    rw [he] at h
    exact ⟨rfl, hostTurn_stop h⟩
  | engine =>
    rw [he] at h
    obtain ⟨t, ht⟩ := Sound.exists_engineTurn (consumeTurn_eq_withOutside s ▸ hs.outside _)
    exact absurd ht (h t)
  | reset =>
    rw [he] at h
    exact absurd rfl (h _)

end Sys2Proof.Machine
end

section
/-! The obligations about the invariants: 10_state.md R41 to R44, 41_streaming_engine.md R150, R158 and R159,
60_exceptions.md R260. -/

open Sys2Proof Sys2Proof.Machine

/-- Settles O50: the control invariant holds after a reset event and every turn keeps it. -/
theorem stepKeepsCoherent : Obligations.StepKeepsCoherent := fun _ _ => step_coherent

/-- Settles O51: the advance and the subtraction of 1.0 keep the position's range, `INIT` starts it at 0. -/
theorem stepKeepsPositionOk : Obligations.StepKeepsPositionOk := fun _ _ hs h => (step_sound hs h).position

/-- Settles O52: with unequal rates a step of at most 1.0 is below 1.0, so that no advance reaches 2.0. -/
theorem stepKeepsUnitPosition : Obligations.StepKeepsUnitPosition := fun _ _ => step_unitPosition

/-- Settles O53: a sound state has a phase in `E_EMIT`, and the host's turn stops at `INIT` only. -/
theorem soundStateNeverFaults : Obligations.SoundStateNeverFaults := by
  refine fun s hs => ⟨fun r h => ?_, fun r h => ?_⟩
  · obtain ⟨-, hr, -⟩ := step_stop hs fun t ht => nomatch h.symm.trans ht
    exact nomatch h.symm.trans hr
  · obtain ⟨hhost, hr, hz, hw⟩ := step_stop hs fun t ht => nomatch h.symm.trans ht
    exact ⟨Host.Outcome.refused.inj (h.symm.trans hr), hhost, hz, hw⟩

/-- Settles O49: after reset nothing is configured, the queues are empty and the sequencer is idle. -/
theorem resetStateIsSound : Obligations.ResetStateIsSound := by
  refine ⟨⟨⟨fun _ => ⟨rfl, rfl, rfl⟩, ?_, ?_, ?_, ?_, trivial, trivial, ?_⟩, ?_, ?_, ?_, ?_⟩, ?_, ?_⟩ <;>
    exact fun h => nomatch h
end

section
/-! Two turns in either order, and the elements no turn reads (00_scope.md R14, 10_state.md R25, R47, 20_memory.md
R72). -/

namespace Sys2Proof.Machine

/-! ## A step of the engine and the elements outside it -/

theorem EngineStep.outside {s t : State} (h : EngineStep s t) (o : Outside) :
    EngineStep (withOutside o s) (withOutside o t) := by
  cases h with
  | pop hs hq => exact .pop (s := withOutside o s) hs hq
  | pass hs hf => exact .pass (s := withOutside o s) hs hf
  | shift hs => exact .shift (s := withOutside o s) hs
  | test hs => exact .test (s := withOutside o s) hs
  | emit hs hf hph => exact .emit (s := withOutside o s) hs hf hph
  | renorm hs => exact .renorm (s := withOutside o s) hs

/-- An enabled step of the engine is on a configured block. -/
theorem Coherent.configured_of_step {s t : State} (h : Coherent s) (he : EngineStep s t) : s.configured = true := by
  cases he with
  | pop hs hq => exact h.configured_of_inq (hq ▸ List.cons_ne_nil _ _)
  | pass hs _ | shift hs | test hs | emit hs _ _ | renorm hs => exact h.configured_of_seq (by simp [hs])

/-- A sample pushed behind the ones that wait does not change what the engine does. -/
theorem EngineStep.pushed {s t : State} (h : EngineStep s t) (x : Sample) :
    EngineStep { s with inq := pushBack s.inq x } { t with inq := pushBack t.inq x } := by
  cases h with
  | @pop y rest hs hq =>
    exact .pop (s := { s with inq := pushBack s.inq x }) hs (by simp only [hq]; rfl)
  | pass hs hf => exact .pass (s := { s with inq := pushBack s.inq x }) hs hf
  | shift hs =>
    rw [eShift_inq]
    exact .shift (s := { s with inq := pushBack s.inq x }) hs
  | test hs => exact .test (s := { s with inq := pushBack s.inq x }) hs
  | emit hs hf hph => exact .emit (s := { s with inq := pushBack s.inq x }) hs hf hph
  | renorm hs => exact .renorm (s := { s with inq := pushBack s.inq x }) hs

/-- Nor does a sample popped from the front of `outq`: the engine appends behind it. -/
theorem EngineStep.popped {s t : State} (h : EngineStep s t) (hw : queueWithin s.params.outDepth s.outq) {y : Sample}
    {rest : List Sample} (hq : s.outq = y :: rest) :
    ∃ rest', t.outq = y :: rest' ∧ EngineStep { s with outq := rest } { t with outq := rest' } := by
  have hf : queueFull s.params.outDepth rest = false := queueFull_tail (hq ▸ hw)
  cases h with
  | pop hs hq' => exact ⟨rest, hq, .pop (s := { s with outq := rest }) hs hq'⟩
  | pass hs _ =>
    exact ⟨pushBack rest s.cur, by rw [ePass_outq, hq, pushBack_cons], .pass (s := { s with outq := rest }) hs hf⟩
  | shift hs => exact ⟨rest, (eShift_outq s).trans hq, .shift (s := { s with outq := rest }) hs⟩
  | test hs => exact ⟨rest, hq, .test (s := { s with outq := rest }) hs⟩
  | @emit ph hs _ hph =>
    exact ⟨pushBack rest (outputSample s.params s.rs ph), by simp only [hq, pushBack_cons],
      .emit (s := { s with outq := rest }) hs hf hph⟩
  | renorm hs => exact ⟨rest, hq, .renorm (s := { s with outq := rest }) hs⟩

/-- What the engine does not write. -/
theorem EngineStep.frame {s t : State} (h : EngineStep s t) : ∃ rs seq cur inq outq,
    t = { s with rs := rs, seq := seq, cur := cur, inq := inq, outq := outq } :=
  ⟨_, _, _, _, _, engineTurn_writes h.turn⟩

/-! ## A transaction and a step of the engine in either order -/

theorem Answers.commute {i : Instr} {s u t : State} {e : TraceEntry} (ha : Answers i s u e) (hi : i ≠ .stat)
    (hc : Coherent s) (he : EngineStep s t) : ∃ v, EngineStep u v ∧ Answers i t v e := by
  have hconf := hc.configured_of_step he
  have hroom := (engineTurn_keeps_ready hc.inWithin he.turn).1
  cases ha with
  | init hs hq _ _ => exact nomatch he.enabled.symm.trans (engineEnabled_idle_nil hs hq)
  | stat => exact absurd rfl hi
  | pushUnconfigured x hunconf => exact nomatch hconf.symm.trans hunconf
  | push x _ hf =>
    obtain ⟨hct, hft⟩ := (inReady_iff t).1 (hroom ((inReady_iff s).2 ⟨hconf, hf⟩))
    exact ⟨_, he.pushed x, .push x hct hft⟩
  | pop hq =>
    obtain ⟨rest', hq', he'⟩ := he.popped hc.outWithin hq
    exact ⟨_, he', .pop hq'⟩
  | setin rate =>
    obtain ⟨rs, seq, cur, inq, outq, rfl⟩ := he.frame
    exact ⟨_, he.outside ⟨rate, s.outRate, s.port, s.program, s.trace, s.schedule, s.tick⟩, .setin rate _⟩
  | setout rate =>
    obtain ⟨rs, seq, cur, inq, outq, rfl⟩ := he.frame
    exact ⟨_, he.outside ⟨s.inRate, rate, s.port, s.program, s.trace, s.schedule, s.tick⟩, .setout rate _⟩
  | getparams => exact ⟨t, he, .getparams t⟩
  | ctrlnop => exact ⟨t, he, .ctrlnop t⟩
  | getin =>
    obtain ⟨rs, seq, cur, inq, outq, rfl⟩ := he.frame
    exact ⟨_, he, .getin _⟩
  | getout =>
    obtain ⟨rs, seq, cur, inq, outq, rfl⟩ := he.frame
    exact ⟨_, he, .getout _⟩

theorem WordAnswers.commute {w : Bus48} {s u t : State} {e : TraceEntry} (h : WordAnswers w s u e)
    (hw : decode w ≠ .ok .stat) (hc : Coherent s) (he : EngineStep s t) :
    ∃ v, EngineStep u v ∧ WordAnswers w t v e := by
  rcases h with ⟨c, hd, rfl, rfl⟩ | ⟨i, hd, ha⟩
  · exact ⟨t, he, .inl ⟨c, hd, rfl, rfl⟩⟩
  · obtain ⟨v, hv, hav⟩ := ha.commute (fun hi => hw (hi ▸ hd)) hc he
    exact ⟨v, hv, .inr ⟨i, hd, hav⟩⟩

theorem EngineStep.responded {s t : State} (h : EngineStep s t) (e : TraceEntry) :
    EngineStep (respondWith e s) (respondWith e t) := by
  have ho := h.outside ⟨s.inRate, s.outRate, none, s.program, s.trace ++ [e], s.schedule, s.tick⟩
  obtain ⟨rs, seq, cur, inq, outq, rfl⟩ := h.frame
  exact ho

theorem EngineStep.port {s t : State} (h : EngineStep s t) : t.port = s.port := by
  obtain ⟨rs, seq, cur, inq, outq, rfl⟩ := h.frame
  rfl

/-! ## The elements no step reads -/

/-- A state with another Resampler and another latch. -/
def revalued (rs : Resampler) (cur : Sample) (s : State) : State := { s with rs := rs, cur := cur }

/-- The latch is read in `PASS` and `SHIFT` only, the Resampler of a configured block only. -/
structure Unread (rs : Resampler) (cur : Sample) (s : State) : Prop where
  rs : s.configured = true → rs = s.rs
  cur : s.seq = .pass ∨ s.seq = .shift → cur = s.cur

theorem Unread.sameVisible {rs : Resampler} {cur : Sample} {s : State} (h : Unread rs cur s) :
    SameVisible s (revalued rs cur s) :=
  ⟨rfl, rfl, rfl, fun hc => (h.rs hc).symm, rfl, rfl, rfl, fun hs => (h.cur hs).symm, rfl, rfl, rfl, rfl, rfl, rfl⟩

theorem SameVisible.refl (s : State) : SameVisible s s :=
  Unread.sameVisible (rs := s.rs) (cur := s.cur) ⟨fun _ => rfl, fun _ => rfl⟩

theorem SameVisible.unread {s t : State} (h : SameVisible s t) : t = revalued t.rs t.cur s ∧ Unread t.rs t.cur s := by
  refine ⟨?_, fun hc => (h.rs hc).symm, fun hs => (h.cur hs).symm⟩
  obtain ⟨h1, h2, h3, -, h5, h6, h7, -, h9, h10, h11, h12, h13, h14⟩ := h
  cases s
  cases t
  simp only at h1 h2 h3 h5 h6 h7 h9 h10 h11 h12 h13 h14
  subst h1 h2 h3 h5 h6 h7 h9 h10 h11 h12 h13 h14
  rfl

theorem identity_revalued {rs : Resampler} {cur : Sample} {s : State} (h : Unread rs cur s) :
    identity (revalued rs cur s) = identity s := by
  unfold identity revalued
  cases hc : s.configured with
  | true => rw [h.rs hc]
  | false => rfl

theorem statusWord_revalued {rs : Resampler} {cur : Sample} {s : State} (h : Unread rs cur s) :
    statusWord (revalued rs cur s) = statusWord s := by
  rw [statusWord, identity_revalued h]
  rfl

/-- An operation answers the same whatever stands in the elements not read; an `INIT` gives the Resampler a value. -/
theorem Answers.revalued {i : Instr} {s u : State} {e : TraceEntry} (ha : Answers i s u e) {rs : Resampler}
    {cur : Sample} (h : Unread rs cur s) :
    ∃ rs', Unread rs' cur u ∧ Answers i (revalued rs cur s) (revalued rs' cur u) e := by
  cases ha with
  | init hs hq hin hout =>
    exact ⟨construct s.params s.inRate s.outRate, ⟨fun _ => rfl, h.cur⟩,
      .init (s := Machine.revalued rs cur s) hs hq hin hout⟩
  | stat => exact ⟨rs, h, by rw [← statusWord_revalued h]; exact .stat _⟩
  | getparams => exact ⟨rs, h, .getparams _⟩
  | getin => exact ⟨rs, h, .getin (Machine.revalued rs cur s)⟩
  | getout => exact ⟨rs, h, .getout (Machine.revalued rs cur s)⟩
  | setin rate => exact ⟨rs, ⟨h.rs, h.cur⟩, .setin rate (Machine.revalued rs cur s)⟩
  | setout rate => exact ⟨rs, ⟨h.rs, h.cur⟩, .setout rate (Machine.revalued rs cur s)⟩
  | ctrlnop => exact ⟨rs, h, .ctrlnop _⟩
  | pushUnconfigured x hc => exact ⟨rs, h, .pushUnconfigured x (s := Machine.revalued rs cur s) hc⟩
  | push x hc hf => exact ⟨rs, ⟨h.rs, h.cur⟩, .push x (s := Machine.revalued rs cur s) hc hf⟩
  | pop hq => exact ⟨rs, ⟨h.rs, h.cur⟩, .pop (s := Machine.revalued rs cur s) hq⟩

theorem exec_revalued (i : Instr) {rs : Resampler} {cur : Sample} {s : State} (h : Unread rs cur s) :
    sameOutcome SameVisible (exec i s) (exec i (revalued rs cur s)) := by
  rcases exec_trichotomy i s with hh | ⟨u, e, ha⟩ | hz
  · have hh' : Held i (revalued rs cur s) := by cases i <;> exact hh
    rw [exec_of_held hh, exec_of_held hh']
    exact h.sameVisible
  · obtain ⟨rs', h', ha'⟩ := ha.revalued h
    rw [exec_of_answers ha, exec_of_answers ha']
    exact Unread.sameVisible (s := respondWith e u) ⟨h'.rs, h'.cur⟩
  · rw [exec_of_zeroRateInit hz, exec_of_zeroRateInit (s := revalued rs cur s) hz]
    rfl

theorem runTransaction_revalued (w : Bus48) {rs : Resampler} {cur : Sample} {s : State} (h : Unread rs cur s) :
    sameOutcome SameVisible (runTransaction w s) (runTransaction w (revalued rs cur s)) := by
  cases hd : decode w with
  | error c =>
    rw [runTransaction_illegal hd, runTransaction_illegal hd]
    exact Unread.sameVisible (s := respondError c s) ⟨h.rs, h.cur⟩
  | ok i =>
    rw [runTransaction_legal hd, runTransaction_legal hd]
    exact exec_revalued i h

theorem hostTurn_revalued {rs : Resampler} {cur : Sample} {s : State} (h : Unread rs cur s) :
    sameOutcome SameVisible (hostTurn s) (hostTurn (revalued rs cur s)) := by
  cases hp : s.port with
  | some w =>
    rw [hostTurn_outstanding hp, hostTurn_outstanding (s := revalued rs cur s) hp]
    exact runTransaction_revalued w h
  | none =>
    cases hw : s.program with
    | nil =>
      have idle {u : State} (hp : u.port = none) (hw : u.program = []) : hostTurn u = .next u := by
        simp only [hostTurn, hp, hw]
      rw [idle hp hw, idle (u := revalued rs cur s) hp hw]
      exact h.sameVisible
    | cons w rest =>
      rw [hostTurn_issuing hp hw, hostTurn_issuing (s := revalued rs cur s) hp hw]
      exact runTransaction_revalued w (s := issue w rest s) ⟨h.rs, h.cur⟩

theorem engineTurn_emit_fault {s : State} (hs : s.seq = .emit) (hf : outFull s = false)
    (hph : phaseIndex s.rs.position = none) : engineTurn s = .fault .phaseOutOfRange := by
  simp [engineTurn, hs, hf, eEmit, hph]

theorem engineTurn_relatched {cur : Sample} {s : State} (h : Unread s.rs cur s) :
    sameOutcome SameVisible (engineTurn s) (engineTurn (revalued s.rs cur s)) := by
  have latched (hs : s.seq = .pass ∨ s.seq = .shift) :
      sameOutcome SameVisible (engineTurn s) (engineTurn (revalued s.rs cur s)) := by
    rw [h.cur hs]
    change sameOutcome SameVisible (engineTurn s) (engineTurn s)
    cases engineTurn s with
    | next t => exact .refl t
    | fault r => rfl
    | refused r => rfl
  cases hs : s.seq with
  | pass => exact latched (.inl hs)
  | shift => exact latched (.inr hs)
  | idle =>
    cases hq : s.inq with
    | nil =>
      rw [engineTurn_idle_nil hs hq, engineTurn_idle_nil (s := revalued s.rs cur s) hs hq]
      exact h.sameVisible
    | cons x rest =>
      rw [engineTurn_idle_cons hs hq, engineTurn_idle_cons (s := revalued s.rs cur s) hs hq]
      exact Unread.sameVisible (s := ePop x rest s) (rs := s.rs) (cur := x) ⟨fun _ => rfl, fun _ => rfl⟩
  | test =>
    rw [engineTurn_test hs, engineTurn_test (s := revalued s.rs cur s) hs]
    refine Unread.sameVisible (s := eTest s) (rs := s.rs) (cur := cur) ⟨fun _ => rfl, fun hseq => ?_⟩
    rw [eTest_seq] at hseq
    split at hseq <;> simp at hseq
  | emit =>
    cases hf : outFull s with
    | true =>
      rw [engineTurn_output_full (.inr hs) hf, engineTurn_output_full (s := revalued s.rs cur s) (.inr hs) hf]
      exact h.sameVisible
    | false =>
      cases hph : phaseIndex s.rs.position with
      | none =>
        rw [engineTurn_emit_fault hs hf hph, engineTurn_emit_fault (s := revalued s.rs cur s) hs hf hph]
        rfl
      | some ph =>
        rw [engineTurn_emit hs hf hph, engineTurn_emit (s := revalued s.rs cur s) hs hf hph]
        exact Unread.sameVisible ⟨fun _ => rfl, fun hseq => by simp at hseq⟩
  | renorm =>
    rw [engineTurn_renorm hs, engineTurn_renorm (s := revalued s.rs cur s) hs]
    exact Unread.sameVisible (s := eRenorm s) (rs := (eRenorm s).rs) (cur := cur)
      ⟨fun _ => rfl, fun hseq => by simp at hseq⟩

/-- Before `INIT` the engine does not move; after it, it reads the latch where it has one. -/
theorem engineTurn_revalued {rs : Resampler} {cur : Sample} {s : State} (hc : Coherent s) (h : Unread rs cur s) :
    sameOutcome SameVisible (engineTurn s) (engineTurn (revalued rs cur s)) := by
  cases hconf : s.configured with
  | true =>
    obtain rfl := h.rs hconf
    exact engineTurn_relatched h
  | false =>
    obtain ⟨hs, hq, -⟩ := hc.quiet hconf
    rw [engineTurn_idle_nil hs hq, engineTurn_idle_nil (s := revalued rs cur s) hs hq]
    exact h.sameVisible

theorem takeTurn_revalued (e : Event) {rs : Resampler} {cur : Sample} {s : State} (hc : Coherent s)
    (h : Unread rs cur s) : sameOutcome SameVisible (takeTurn e s) (takeTurn e (revalued rs cur s)) := by
  cases e with
  | host => exact hostTurn_revalued h
  | engine => exact engineTurn_revalued hc h
  | reset => exact Unread.sameVisible (s := resetEvent s) ⟨fun _ => rfl, fun _ => rfl⟩

end Sys2Proof.Machine
end

section
/-! The obligations about two turns in either order and about elements without a value: 10_state.md R25 and R47,
20_memory.md R72. -/

open Sys2Proof Sys2Proof.Machine

/-- Settles O54: the second state is the first with the elements not read replaced, and each turn answers alike. -/
theorem unsetElementsAreUnobservable : Obligations.UnsetElementsAreUnobservable := by
  intro s t hs _ hst
  obtain ⟨ht, hun⟩ := hst.unread
  generalize t.rs = rs at ht hun
  generalize t.cur = cur at ht hun
  subst ht
  exact takeTurn_revalued (nextEvent s) (s := consumeTurn s) (consumeTurn_eq_withOutside s ▸ hs.outside _)
    ⟨hun.rs, hun.cur⟩

/-- Settles O55: the transaction answers the same after the step of the engine, and the step is enabled after it. -/
theorem hostAndEngineCommute : Obligations.HostAndEngineCommute := by
  intro s a b w hc hp hw ha hfree hen hb
  have he := EngineStep.of_enabled hen hb
  rw [hostTurn_outstanding hp] at ha
  rcases runTransaction_cases ha with rfl | ⟨u, e, hans, rfl⟩
  · exact nomatch hp.symm.trans hfree
  · obtain ⟨v, hv, hansv⟩ := hans.commute hw hc he
    exact ⟨_, (hv.responded e).turn, by rw [hostTurn_outstanding (he.port.trans hp), runTransaction_of_answers hansv]⟩
end

section
/-! The engine's small steps and the big-step form (41_streaming_engine.md R157, R160, R163, R166): the loop of one
sample, its termination, and a bound on the work left in a state. -/

namespace Sys2Proof.Machine

/-! ## The fuel of the big-step form -/

/-- The loop test at 1.0 or above ends the loop. -/
theorem emitLoop_stop (p : Params) (rs : Resampler) (fuel : Nat) {position : F64} (h : moreOutputs position = false) :
    emitLoop p rs (fuel + 1) position = some ([], position) := by
  simp [emitLoop, h]

/-- Below 1.0 one sample goes out and the loop goes on. -/
theorem emitLoop_emit (p : Params) (rs : Resampler) (fuel : Nat) {position : F64} {ph : Fin 128}
    (h : moreOutputs position = true) (hph : phaseIndex position = some ph) :
    emitLoop p rs (fuel + 1) position =
      (emitLoop p rs fuel (advancePosition position rs.step)).map fun r => (outputSample p rs ph :: r.1, r.2) := by
  simp [emitLoop, h, hph]

/-- What a loop that answers did first. -/
theorem emitLoop_cases {p : Params} {rs : Resampler} {fuel : Nat} {position : F64} {r : List Sample × F64}
    (h : emitLoop p rs fuel position = some r) : ∃ fuel', fuel = fuel' + 1 ∧
      ((moreOutputs position = false ∧ r = ([], position)) ∨
       ∃ ph r', moreOutputs position = true ∧ phaseIndex position = some ph ∧
        emitLoop p rs fuel' (advancePosition position rs.step) = some r' ∧
        r = (outputSample p rs ph :: r'.1, r'.2)) := by
  cases fuel with
  | zero => cases h
  | succ fuel =>
    refine ⟨fuel, rfl, ?_⟩
    cases hm : moreOutputs position with
    | false =>
      rw [emitLoop_stop p rs fuel hm] at h
      exact .inl ⟨rfl, (Option.some.inj h).symm⟩
    | true =>
      cases hph : phaseIndex position with
      | none => simp [emitLoop, hm, hph] at h
      | some ph =>
        rw [emitLoop_emit p rs fuel hm hph, Option.map_eq_some_iff] at h
        obtain ⟨r', hr', rfl⟩ := h
        exact .inr ⟨ph, r', rfl, rfl, hr', rfl⟩

/-- More fuel changes nothing. -/
theorem emitLoop_mono {p : Params} {rs : Resampler} {fuel fuel' : Nat} {position : F64} {r : List Sample × F64}
    (h : emitLoop p rs fuel position = some r) (hle : fuel ≤ fuel') : emitLoop p rs fuel' position = some r := by
  induction fuel generalizing fuel' position r with
  | zero => cases h
  | succ fuel ih =>
    obtain ⟨f, rfl⟩ : ∃ f, fuel' = f + 1 := ⟨fuel' - 1, by omega⟩
    obtain ⟨_, heq, ⟨hm, rfl⟩ | ⟨ph, r', hm, hph, hr', rfl⟩⟩ := emitLoop_cases h
    · exact emitLoop_stop p rs f hm
    · cases heq
      rw [emitLoop_emit p rs f hm hph, ih hr' (by omega)]
      rfl

/-- The loop reads its own position, not the one in the Resampler. -/
theorem emitLoop_position (p : Params) (rs : Resampler) (q : F64) (fuel : Nat) (position : F64) :
    emitLoop p { rs with position := q } fuel position = emitLoop p rs fuel position := by
  induction fuel generalizing position with
  | zero => rfl
  | succ fuel ih =>
    rw [emitLoop, emitLoop]
    simp only [ih]
    rfl

/-- `PushSample` in the filtering mode, with the window it starts from. -/
theorem pushSample_filter (p : Params) (fuel : Nat) {rs : Resampler} (x : Sample) (h : ratesEqual rs = false) :
    pushSample p fuel rs x =
      (emitLoop p { rs with history := shiftHistory rs.history (i16ToF32 x) } fuel rs.position).map fun r =>
        (r.1, { rs with history := shiftHistory rs.history (i16ToF32 x), position := renormPosition r.2 }) := by
  simp [pushSample, h]

theorem pushSample_identity (p : Params) (fuel : Nat) {rs : Resampler} (x : Sample) (h : ratesEqual rs = true) :
    pushSample p fuel rs x = some ([x], rs) := by
  simp [pushSample, h]

theorem pushSample_mono {p : Params} {fuel fuel' : Nat} {rs : Resampler} {x : Sample} {r : List Sample × Resampler}
    (h : pushSample p fuel rs x = some r) (hle : fuel ≤ fuel') : pushSample p fuel' rs x = some r := by
  cases hr : ratesEqual rs with
  | true =>
    rw [pushSample_identity p fuel x hr] at h
    rw [pushSample_identity p fuel' x hr, h]
  | false =>
    rw [pushSample_filter p fuel x hr, Option.map_eq_some_iff] at h
    obtain ⟨r', hr', rfl⟩ := h
    rw [pushSample_filter p fuel' x hr, emitLoop_mono hr' hle]
    rfl

theorem processSamples_cons {p : Params} {fuel : Nat} {rs : Resampler} {x : Sample} {xs out : List Sample}
    {rs'' : Resampler} : processSamples p fuel rs (x :: xs) = some (out, rs'') ↔ ∃ first rs' others,
      pushSample p fuel rs x = some (first, rs') ∧ processSamples p fuel rs' xs = some (others, rs'') ∧
      out = first ++ others := by
  rw [processSamples]
  cases hp : pushSample p fuel rs x with
  | none => simp
  | some r =>
    simp only [Option.map_eq_some_iff, Option.some.injEq, Prod.exists, Prod.mk.injEq]
    constructor
    · rintro ⟨others, rs', hrest, rfl, rfl⟩
      exact ⟨r.1, r.2, others, rfl, hrest, rfl⟩
    · rintro ⟨first, rs', others, rfl, hrest, rfl⟩
      exact ⟨others, rs'', hrest, rfl, rfl⟩

theorem processSamples_mono {p : Params} {fuel fuel' : Nat} {rs : Resampler} {xs : List Sample}
    {r : List Sample × Resampler} (h : processSamples p fuel rs xs = some r) (hle : fuel ≤ fuel') :
    processSamples p fuel' rs xs = some r := by
  induction xs generalizing rs r with
  | nil => exact h
  | cons x xs ih =>
    obtain ⟨first, rs', others, hfirst, hothers, hout⟩ := processSamples_cons.1 h
    exact processSamples_cons.2 ⟨first, rs', others, pushSample_mono hfirst hle, ih hothers, hout⟩

/-- R163: the outputs of a stream in two parts. -/
theorem processSamples_append {p : Params} {fuel : Nat} {rs rs' rs'' : Resampler} {a b out out' : List Sample}
    (ha : processSamples p fuel rs a = some (out, rs')) (hb : processSamples p fuel rs' b = some (out', rs'')) :
    processSamples p fuel rs (a ++ b) = some (out ++ out', rs'') := by
  induction a generalizing rs out with
  | nil => cases ha; exact hb
  | cons x a ih =>
    obtain ⟨first, rs1, others, hfirst, hothers, rfl⟩ := processSamples_cons.1 ha
    exact processSamples_cons.2 ⟨first, rs1, _, hfirst, ih hothers, List.append_assoc ..⟩

/-- R166: with equal rates nothing but a copy happens. -/
theorem processSamples_identity (p : Params) (fuel : Nat) {rs : Resampler} (h : ratesEqual rs = true)
    (xs : List Sample) : processSamples p fuel rs xs = some (xs, rs) := by
  induction xs with
  | nil => rfl
  | cons x xs ih => exact processSamples_cons.2 ⟨[x], rs, xs, pushSample_identity p fuel x h, ih, rfl⟩

/-! ## Every stream is answered (R160) -/

/-- What the loop's termination rests on: a step of at least a grain, and a finite position that is not negative. -/
structure Streams (rs : Resampler) : Prop where
  step : ∃ n, val64 rs.step = .fin false n ∧ grain ≤ n ∧ n ≤ oneUnits fmt64 * 2 ^ 32
  position : ∃ m, val64 rs.position = .fin false m

theorem grain_le_of_step {n : Nat} (h : oneUnits fmt64 ≤ n * 2 ^ 32) : grain ≤ n := by
  rw [oneUnits_eq_grains] at h
  generalize grain = g at *
  omega

theorem Sound.streams {s : State} (h : Sound s) (hc : s.configured = true) : Streams s.rs := by
  obtain ⟨n, hn, hlo, hhi⟩ := h.position.step hc
  obtain ⟨m, hm, -⟩ := h.position.position hc
  exact ⟨⟨n, hn, grain_le_of_step hlo, hhi⟩, m, hm⟩

/-- The loop ends after one test more than there are advances left, at 1.0 or above. -/
theorem exists_emitLoop (p : Params) {rs : Resampler} (h : Streams rs) {fuel m : Nat} {position : F64}
    (hp : val64 position = .fin false m) (hfuel : advancesLeft m < fuel) :
    ∃ out last n, emitLoop p rs fuel position = some (out, last) ∧ val64 last = .fin false n ∧
      oneUnits fmt64 ≤ n := by
  obtain ⟨n, hn, hgrain, hbig⟩ := h.step
  induction fuel generalizing m position with
  | zero => cases hfuel
  | succ fuel ih =>
    cases hm : moreOutputs position with
    | false => exact ⟨[], position, m, emitLoop_stop p rs fuel hm, hp, one_le_of_not_moreOutputs hp hm⟩
    | true =>
      have hlt := lt_one_of_moreOutputs hp hm
      obtain ⟨ph, -, -, hph⟩ := exists_phaseIndex_of_lt_one hp hlt
      obtain ⟨r, hr, -, hlo, -⟩ := val64_advancePosition hp hn hlt hbig
      obtain ⟨out, last, k, hloop, hk, hone⟩ := ih hr (by have := advancesLeft_advance hgrain hlt hlo; omega)
      exact ⟨outputSample p rs ph :: out, last, k, by rw [emitLoop_emit p rs fuel hm hph, hloop]; rfl, hk, hone⟩

theorem exists_pushSample (p : Params) {rs : Resampler} (h : Streams rs) (x : Sample) :
    ∃ out rs', pushSample p (2 ^ 34) rs x = some (out, rs') ∧ Streams rs' := by
  cases hr : ratesEqual rs with
  | true => exact ⟨[x], rs, pushSample_identity p _ x hr, h⟩
  | false =>
    obtain ⟨m, hm⟩ := h.position
    have hs : Streams { rs with history := shiftHistory rs.history (i16ToF32 x) } := ⟨h.step, m, hm⟩
    obtain ⟨out, last, n, hloop, hn, hone⟩ := exists_emitLoop p hs (fuel := 2 ^ 34) hm
      (lt_of_le_of_lt (advancesLeft_le m) (by norm_num))
    obtain ⟨k, hk, -⟩ := val64_renormPosition hn hone
    refine ⟨out, { rs with history := shiftHistory rs.history (i16ToF32 x), position := renormPosition last }, ?_,
      ⟨h.step, k, hk⟩⟩
    rw [pushSample_filter p _ x hr, hloop, Option.map_some]

theorem exists_processSamples (p : Params) {rs : Resampler} (h : Streams rs) (xs : List Sample) :
    ∃ out rs', processSamples p (2 ^ 34) rs xs = some (out, rs') := by
  induction xs generalizing rs with
  | nil => exact ⟨[], rs, rfl⟩
  | cons x xs ih =>
    obtain ⟨first, rs', hfirst, h'⟩ := exists_pushSample p h x
    obtain ⟨others, rs'', hothers⟩ := ih h'
    exact ⟨_, rs'', processSamples_cons.2 ⟨first, rs', others, hfirst, hothers, rfl⟩⟩

/-! ## The engine's run over its samples (R157) -/

theorem outFull_of_unbounded {s : State} (h : s.params.outDepth = .unbounded) : outFull s = false := by
  rw [outFull, h, queueFull_unbounded]

/-- From `TEST` the engine runs the loop, subtracts 1.0 and is idle. -/
theorem engineRun_emitLoop {fuel : Nat} {s : State} {out : List Sample} {last : F64}
    (hd : s.params.outDepth = .unbounded) (hs : s.seq = .test)
    (h : emitLoop s.params s.rs fuel s.rs.position = some (out, last)) :
    ∃ k, engineRun k s = .next (moved s.rs.history (renormPosition last) (s.outq ++ out) .idle s) := by
  induction fuel generalizing s out with
  | zero => cases h
  | succ fuel ih =>
    have htest := engineTurn_test hs
    rw [eTest_eq_moved] at htest
    obtain ⟨_, heq, ⟨hm, hr⟩ | ⟨ph, r', hm, hph, hr', hr⟩⟩ := emitLoop_cases h
    · obtain ⟨rfl, rfl⟩ := Prod.mk.inj hr
      rw [hm] at htest
      have hrenorm := engineTurn_renorm (s := moved s.rs.history s.rs.position s.outq .renorm s) rfl
      refine ⟨2, ?_⟩
      rw [engineRun_succ 1 htest]
      refine (engineRun_succ 0 hrenorm).trans ?_
      rw [List.append_nil]
      rfl
    · cases heq
      obtain ⟨rfl, rfl⟩ := Prod.mk.inj hr
      rw [hm] at htest
      set s1 := moved s.rs.history s.rs.position s.outq .emit s with hs1
      have hemit := engineTurn_emit (s := s1) (ph := ph) rfl (outFull_of_unbounded hd) hph
      set s2 := moved s.rs.history (advancePosition s.rs.position s.rs.step)
        (pushBack s.outq (outputSample s.params s.rs ph)) .test s with hs2
      obtain ⟨k, hk⟩ := ih (s := s2) (out := r'.1) hd rfl (by
        rw [← hr']
        exact emitLoop_position s.params s.rs _ fuel _)
      refine ⟨k + 2, ?_⟩
      rw [engineRun_succ (k + 1) htest]
      refine (engineRun_succ k hemit).trans (hk.trans ?_)
      simp only [hs2, moved, pushBack, List.append_assoc, List.singleton_append]

/-- R157 for one sample. -/
theorem engineRun_pushSample {fuel : Nat} {s : State} {x : Sample} {rest out : List Sample} {rs : Resampler}
    (hd : s.params.outDepth = .unbounded) (hs : s.seq = .idle) (hq : s.inq = x :: rest)
    (h : pushSample s.params fuel s.rs x = some (out, rs)) : ∃ k, engineRun k s = .next { s with
      cur := x, inq := rest, outq := s.outq ++ out, rs := rs, seq := .idle } := by
  have hpop := engineTurn_idle_cons hs hq
  cases hr : ratesEqual s.rs with
  | true =>
    rw [pushSample_identity s.params fuel x hr] at h
    obtain ⟨rfl, rfl⟩ := Prod.mk.inj (Option.some.inj h)
    have hpass := engineTurn_pass (s := ePop x rest s) (by rw [ePop_seq, hr]; rfl) (outFull_of_unbounded hd)
    refine ⟨2, ?_⟩
    rw [engineRun_succ 1 hpop]
    exact engineRun_succ 0 hpass
  | false =>
    rw [pushSample_filter s.params fuel x hr, Option.map_eq_some_iff] at h
    obtain ⟨⟨out', last⟩, hloop, heq⟩ := h
    obtain ⟨rfl, rfl⟩ := Prod.mk.inj heq
    have hshift := engineTurn_shift (s := ePop x rest s) (by rw [ePop_seq, hr]; rfl)
    rw [eShift_eq_moved, ePop_cur, ePop_rs, ePop_outq] at hshift
    generalize shiftHistory s.rs.history (i16ToF32 x) = window at hloop hshift
    obtain ⟨k, hk⟩ := engineRun_emitLoop (s := moved window s.rs.position s.outq .test (ePop x rest s)) hd rfl hloop
    refine ⟨k + 2, ?_⟩
    rw [engineRun_succ (k + 1) hpop, engineRun_succ k hshift, hk]
    rfl

/-- R157 for several samples. -/
theorem engineRun_processSamples {fuel : Nat} {s : State} {xs rest out : List Sample} {rs : Resampler}
    (hd : s.params.outDepth = .unbounded) (hs : s.seq = .idle) (hq : s.inq = xs ++ rest)
    (h : processSamples s.params fuel s.rs xs = some (out, rs)) : ∃ k, engineRun k s = .next { s with
      cur := xs.getLastD s.cur, inq := rest, outq := s.outq ++ out, rs := rs, seq := .idle } := by
  induction xs generalizing s out with
  | nil =>
    cases h
    refine ⟨0, ?_⟩
    rw [List.append_nil, List.getLastD_nil, ← hs, ← (show s.inq = rest from hq)]
    rfl
  | cons x xs ih =>
    obtain ⟨first, rs', others, hfirst, hothers, rfl⟩ := processSamples_cons.1 h
    obtain ⟨j, hj⟩ := engineRun_pushSample (rest := xs ++ rest) hd hs hq hfirst
    obtain ⟨k, hk⟩ := ih (s := { s with
      cur := x, inq := xs ++ rest, outq := s.outq ++ first, rs := rs', seq := .idle }) hd rfl rfl hothers
    refine ⟨j + k, ?_⟩
    rw [engineRun_add j k hj, hk]
    simp only [List.getLastD_cons, List.append_assoc]

/-! ## The work left in a state (R160) -/

/-- A position's magnitude in units. -/
def positionUnits (position : F64) : Nat :=
  match val64 position with
  | .fin _ m => m
  | .inf _ => 0
  | .nan => 0

theorem positionUnits_eq {position : F64} {neg : Bool} {m : Nat} (h : val64 position = .fin neg m) :
    positionUnits position = m := by
  rw [positionUnits, h]

/-- A bound on the steps the engine has left for the sample it is at. -/
def stageWork (s : State) : Nat :=
  match s.seq with
  | .idle => 0
  | .pass => 1
  | .shift => 2 ^ 34 + 3
  | .test => 2 * advancesLeft (positionUnits s.rs.position) + 2
  | .emit => 2 * advancesLeft (positionUnits s.rs.position) + 1
  | .renorm => 1

/-- A bound on the steps the engine has left for all samples in it and waiting. -/
def engineWork (s : State) : Nat := s.inq.length * 2 ^ 35 + stageWork s

theorem stageWork_le (s : State) : stageWork s ≤ 2 ^ 34 + 3 := by
  have h := advancesLeft_le (positionUnits s.rs.position)
  unfold stageWork
  split <;> omega

theorem engineWork_moved {history : Row} {position : F64} {outq : List Sample} {seq : Seq} {s : State}
    (h : stageWork (moved history position outq seq s) < stageWork s) :
    engineWork (moved history position outq seq s) < engineWork s :=
  Nat.add_lt_add_left h _

/-- Every step of the engine takes some of the work. -/
theorem EngineStep.work {s t : State} (h : EngineStep s t) (hs : Sound s) : engineWork t < engineWork s := by
  cases h with
  | @pop x rest hseq hq =>
    have hle := stageWork_le (ePop x rest s)
    rw [engineWork, engineWork, ePop_inq, hq, List.length_cons]
    omega
  | pass hseq _ =>
    rw [ePass_eq_moved]
    exact engineWork_moved (by simp [stageWork, moved, hseq])
  | shift hseq =>
    have hle := advancesLeft_le (positionUnits s.rs.position)
    rw [eShift_eq_moved]
    exact engineWork_moved (by simp only [stageWork, moved, hseq]; omega)
  | test hseq =>
    rw [eTest_eq_moved]
    refine engineWork_moved ?_
    cases moreOutputs s.rs.position
    · simp [stageWork, moved, hseq]
    · simp [stageWork, moved, hseq]
  | emit hseq _ _ =>
    have hc := hs.coherent.configured_of_seq (by simp [hseq])
    obtain ⟨m, hm, -⟩ := hs.position.position hc
    obtain ⟨n, hn, hgrain, hbig⟩ := (hs.streams hc).step
    have hlt := lt_one_of_moreOutputs hm (hs.position.emitBelowOne hseq)
    obtain ⟨r, hr, -, hlo, -⟩ := val64_advancePosition hm hn hlt hbig
    have hless := advancesLeft_advance hgrain hlt hlo
    refine engineWork_moved (history := s.rs.history) (seq := .test) ?_
    simp only [stageWork, moved, hseq, positionUnits_eq hm, positionUnits_eq hr]
    omega
  | renorm hseq =>
    rw [eRenorm_eq_moved]
    exact engineWork_moved (by simp [stageWork, moved, hseq])

/-- The states in which the engine has no enabled step: drained, or held by a full `outq`. -/
theorem engineEnabled_eq_false {s : State} (h : engineEnabled s = false) :
    (s.seq = .idle ∧ s.inq = []) ∨ outFull s = true := by
  cases hs : s.seq with
  | idle =>
    refine .inl ⟨rfl, ?_⟩
    by_contra hq
    exact nomatch h.symm.trans ((engineEnabled_idle hs).2 hq)
  | pass =>
    rw [engineEnabled_output (.inl hs), Bool.not_eq_false'] at h
    exact .inr h
  | emit =>
    rw [engineEnabled_output (.inr hs), Bool.not_eq_false'] at h
    exact .inr h
  | shift => exact nomatch h.symm.trans (engineEnabled_shift hs)
  | test => exact nomatch h.symm.trans (engineEnabled_test hs)
  | renorm => exact nomatch h.symm.trans (EngineStep.renorm hs).enabled

/-- With an unbounded `outq` the engine drains itself within its work. -/
theorem exists_engineRun_drained {s : State} (hs : Sound s) (hd : s.params.outDepth = .unbounded) :
    ∃ k t, k ≤ engineWork s ∧ engineRun k s = .next t ∧ t.seq = .idle ∧ t.inq = [] := by
  induction hw : engineWork s using Nat.strong_induction_on generalizing s with
  | _ n ih =>
    cases hen : engineEnabled s with
    | false =>
      rcases engineEnabled_eq_false hen with ⟨hidle, hq⟩ | hf
      · exact ⟨0, s, Nat.zero_le _, rfl, hidle, hq⟩
      · exact nomatch (outFull_of_unbounded hd).symm.trans hf
    | true =>
      obtain ⟨t, ht⟩ := hs.exists_engineTurn
      have hlt := (EngineStep.of_enabled hen ht).work hs
      obtain ⟨k, u, hk, hrun, hu⟩ := ih (engineWork t) (hw ▸ hlt) (s := t) (hs.of_engineTurn ht)
        ((congrArg Params.outDepth (engineTurn_frame ht).2.2.2.2.2).trans hd) rfl
      exact ⟨k + 1, u, by omega, (engineRun_succ k ht).trans hrun, hu⟩

end Sys2Proof.Machine
end

section
/-! The obligations about the stream: 41_streaming_engine.md R157, R160, R163 and R166. -/

open Sys2Proof Sys2Proof.Machine

/-- Settles O31: the engine's run by the fuel of the loop, then by the list of samples. -/
theorem engineRunIsPushSample : Obligations.EngineRunIsPushSample :=
  ⟨fun _ _ _ _ _ _ hd hs hq h => engineRun_pushSample hd hs hq h,
    fun _ _ _ _ _ _ hd hs hq h => engineRun_processSamples hd hs hq h⟩

/-- Settles O34: every enabled step takes some of the work left, which the samples waiting bound; without an enabled
step the engine is drained. -/
theorem engineReturnsToIdle : Obligations.EngineReturnsToIdle := by
  intro s hs hd
  obtain ⟨k, t, hk, hrun, ht⟩ := exists_engineRun_drained hs hd
  have hstage := stageWork_le s
  refine ⟨k, t, hk.trans ?_, hrun, ht⟩
  unfold engineWork
  omega

/-- Settles O32: a stream in two parts by its first part; each sample is answered, since an advance is of at least a
grain, and more fuel changes nothing. -/
theorem chunkingIsInvisible : Obligations.ChunkingIsInvisible := by
  refine ⟨fun _ _ _ _ _ _ _ _ _ => processSamples_append, fun s hs hc xs => ?_⟩
  obtain ⟨out, rs, h⟩ := exists_processSamples s.params (hs.streams hc) xs
  exact ⟨out, rs, fun fuel hle => processSamples_mono h hle⟩

/-- Settles O33: `PushSample` copies, sample by sample. -/
theorem identityModeCopies : Obligations.IdentityModeCopies :=
  fun p fuel rs xs h => processSamples_identity p fuel ((ratesEqual_iff rs).2 h) xs
end

section
/-! Fair runs (70_reset_and_hazards.md R302, 41_streaming_engine.md R160): who moves in a run of the machine, and what
is left to do in a run under a fair schedule. -/

namespace Sys2Proof.Machine

/-! ## Who moves -/

theorem run_add_next {j k : Nat} {s t : State} (h : run (j + k) s = .next t) :
    ∃ u, run j s = .next u ∧ run k u = .next t := by
  induction j generalizing s with
  | zero => exact ⟨s, rfl, by rwa [Nat.zero_add] at h⟩
  | succ j ih =>
    rw [Nat.add_right_comm] at h
    obtain ⟨v, hv, hrest⟩ := run_succ_next h
    obtain ⟨u, hu, ht⟩ := ih hrest
    exact ⟨u, (run_succ j hv).trans hu, ht⟩

/-- A schedule is used up in as many steps as it has entries. -/
theorem run_uses_schedule {s t : State} (h : run s.schedule.length s = .next t) :
    t.schedule = [] ∧ t.tick = s.tick + s.schedule.length := by
  induction hsched : s.schedule generalizing s with
  | nil =>
    rw [hsched] at h
    cases h
    exact ⟨hsched, rfl⟩
  | cons e rest ih =>
    rw [hsched, List.length_cons] at h
    obtain ⟨u, hu, hrest⟩ := run_succ_next h
    obtain ⟨hus, hut, -⟩ := step_frame hu
    rw [upcoming_scheduled hsched, List.tail_cons] at hus
    obtain ⟨ht, htick⟩ := ih (by rw [hus]; exact hrest) hus
    exact ⟨ht, by rw [htick, hut, List.length_cons]; omega⟩

/-- Before its round is used up, a run takes the round's events in order. -/
theorem nextEvent_run {k : Nat} {s t : State} (h : run k s = .next t) (hk : k < (upcoming s).length) :
    nextEvent t = (upcoming s)[k] := by
  induction k generalizing s with
  | zero =>
    cases h
    obtain ⟨e, rest, he⟩ := List.exists_cons_of_ne_nil (upcoming_ne_nil t)
    simp only [nextEvent, he, List.headD_cons, List.getElem_cons_zero]
  | succ k ih =>
    obtain ⟨u, hu, hrest⟩ := run_succ_next h
    have hlen : k < (upcoming s).tail.length := by rw [List.length_tail]; omega
    have hup : upcoming u = (upcoming s).tail := by
      have hus := (step_frame hu).1
      have hne := List.ne_nil_of_length_pos (Nat.zero_lt_of_lt hlen)
      obtain ⟨e, rest, he⟩ := List.exists_cons_of_ne_nil hne
      rw [he] at hus ⊢
      exact upcoming_scheduled hus
    have hnext := ih hrest (by rw [hup]; exact hlen)
    rw [hnext]
    simp only [hup, List.getElem_tail]

/-- Neither agent is starved: each has a turn in the round after the schedule. -/
theorem exists_turn (s : State) {agent : Event} (h : agent = .host ∨ agent = .engine) :
    ∃ k, ∀ t, run k s = .next t → nextEvent t = agent := by
  have hmem : agent ∈ freeEvents (s.tick + s.schedule.length) := by
    rcases h with rfl | rfl
    · exact (mem_freeEvents _).1
    · exact (mem_freeEvents _).2
  obtain ⟨j, hj, hget⟩ := List.mem_iff_getElem.1 hmem
  refine ⟨s.schedule.length + j, fun t ht => ?_⟩
  obtain ⟨u, hu, hrun⟩ := run_add_next ht
  obtain ⟨hus, htick⟩ := run_uses_schedule hu
  have hup : upcoming u = freeEvents (s.tick + s.schedule.length) := by rw [upcoming, hus, htick]
  rw [nextEvent_run hrun (by rw [hup]; exact hj)]
  simp only [hup, hget]

/-! ## What is left to do -/

/-- The transactions the host has still to complete. -/
def pendingCount (s : State) : Nat := s.program.length + s.port.toList.length

/-- A bound on what can still happen without a reset event: every transaction left may push a sample. -/
def workLeft (s : State) : Nat := pendingCount s * 2 ^ 36 + engineWork s

/-- The second state is the first as far as the engine's steps are enabled, and has as much left to do. -/
structure Unmoved (s t : State) : Prop where
  seq : t.seq = s.seq
  inq : t.inq = s.inq
  outq : t.outq = s.outq
  params : t.params = s.params
  work : workLeft t = workLeft s

theorem Unmoved.refl (s : State) : Unmoved s s := ⟨rfl, rfl, rfl, rfl, rfl⟩

theorem Unmoved.trans {s t u : State} (h : Unmoved s t) (h' : Unmoved t u) : Unmoved s u :=
  ⟨h'.seq.trans h.seq, h'.inq.trans h.inq, h'.outq.trans h.outq, h'.params.trans h.params, h'.work.trans h.work⟩

theorem Unmoved.outFull {s t : State} (h : Unmoved s t) : outFull t = outFull s := by
  rw [Machine.outFull, h.params, h.outq]
  rfl

theorem Unmoved.engineEnabled {s t : State} (h : Unmoved s t) : engineEnabled t = engineEnabled s := by
  simp only [Machine.engineEnabled, h.seq, h.inq, h.outFull]

/-- An operation adds at most the work of one sample. -/
theorem Answers.work {i : Instr} {s t : State} {e : TraceEntry} (h : Answers i s t e) :
    engineWork t ≤ engineWork s + 2 ^ 35 := by
  cases h with
  | init hs hq _ _ => simp [engineWork, stageWork, hs, hq]
  | push x _ _ =>
    change (pushBack s.inq x).length * 2 ^ 35 + stageWork s ≤ _
    rw [pushBack_length, engineWork]
    omega
  | _ => exact Nat.le_add_right _ _

theorem WordAnswers.work {w : Bus48} {s t : State} {e : TraceEntry} (h : WordAnswers w s t e) :
    engineWork t ≤ engineWork s + 2 ^ 35 := by
  rcases h with ⟨c, -, rfl, -⟩ | ⟨i, -, ha⟩
  · exact Nat.le_add_right _ _
  · exact ha.work

theorem WordAnswers.program {w : Bus48} {s t : State} {e : TraceEntry} (h : WordAnswers w s t e) :
    t.program = s.program := by
  rcases h with ⟨c, -, rfl, -⟩ | ⟨i, -, ha⟩
  · rfl
  · cases ha <;> rfl

/-- Issuing a transaction leaves as much to do. -/
theorem Tries.unmoved {s u : State} {w : Bus48} (h : Tries s w u) :
    Unmoved s u ∧ u.port = some w ∧ engineWork u = engineWork s ∧ pendingCount u = pendingCount s := by
  rcases h with ⟨hp, rfl⟩ | ⟨rest, hp, hw, rfl⟩
  · exact ⟨.refl u, hp, rfl, rfl⟩
  · have hcount : pendingCount (issue w rest s) = pendingCount s := by simp [pendingCount, hp, hw]
    have hwork : engineWork (issue w rest s) = engineWork s := rfl
    exact ⟨⟨rfl, rfl, rfl, rfl, by rw [workLeft, hcount, hwork]; rfl⟩, rfl, hwork, hcount⟩

/-- A turn of the host changes nothing of this, or completes a transaction. -/
theorem hostTurn_progress {s t : State} (h : hostTurn s = .next t) : workLeft t < workLeft s ∨ Unmoved s t := by
  rcases hostTurn_outcome h with rfl | ⟨w, u, hu, rfl | ⟨v, e, ha, rfl⟩⟩
  · exact .inr (.refl t)
  · exact .inr hu.unmoved.1
  · obtain ⟨-, hp, hwork, hcount⟩ := hu.unmoved
    have hle := ha.work
    have hless : pendingCount (respondWith e v) + 1 = pendingCount u := by
      simp [pendingCount, hp, ha.program]
    left
    change pendingCount (respondWith e v) * 2 ^ 36 + engineWork v < _
    rw [workLeft, ← hcount, ← hless]
    omega

/-- A turn of the engine takes some of the work when a step is enabled, and changes nothing when none is. -/
theorem engineTurn_progress {s t : State} (hs : Sound s) (h : engineTurn s = .next t) :
    workLeft t < workLeft s ∨ (engineEnabled s = false ∧ t = s) := by
  rcases engineTurn_step h with ⟨rfl, hd⟩ | he
  · exact .inr ⟨hd, rfl⟩
  · have hless := he.work hs
    obtain ⟨hp, hw, -⟩ := engineTurn_frame h
    left
    rw [workLeft, workLeft, pendingCount, pendingCount, hp, hw]
    omega

/-! ## Runs under a fair schedule -/

/-- The state a scheduled turn starts from. -/
def atTurn (s : State) : State := withOutside ⟨s.inRate, s.outRate, s.port, s.program, s.trace, [], s.tick + 1⟩ s

theorem unmoved_atTurn (s : State) : Unmoved s (atTurn s) := ⟨rfl, rfl, rfl, rfl, rfl⟩

/-- One step of a run under an infinite schedule. -/
theorem takeTurn_of_runUnder {events : Nat → Event} {k : Nat} {s t u : State} (ht : runUnder events k s = .next t)
    (hu : runUnder events (k + 1) s = .next u) : takeTurn (events k) (atTurn t) = .next u := by
  rw [runUnder_succ events ht, step_scheduled (rest := []) rfl, consumeTurn_scheduled (rest := []) rfl] at hu
  exact hu

section
variable {events : Nat → Event} {s : State} {states : Nat → State}
  (hrun : ∀ k, runUnder events k s = .next (states k))
include hrun

theorem sound_of_runUnder (hs : Sound s) (k : Nat) : Sound (states k) := by
  induction k with
  | zero =>
    have h0 : states 0 = s := (Host.Outcome.next.inj (hrun 0)).symm
    rwa [h0]
  | succ k ih =>
    have h := hrun (k + 1)
    rw [runUnder_succ events (hrun k)] at h
    refine step_sound ?_ h
    exact ih.outside ⟨_, _, _, _, _, [events k], _⟩

/-- Each step makes progress or moves nothing, and an enabled turn of the engine makes progress. -/
theorem progress_of_runUnder (hs : Sound s) (hreset : ∀ k, events k ≠ .reset) (k : Nat) :
    workLeft (states (k + 1)) < workLeft (states k) ∨
    (Unmoved (states k) (states (k + 1)) ∧ (events k = .engine → engineEnabled (states k) = false)) := by
  have hturn := takeTurn_of_runUnder (hrun k) (hrun (k + 1))
  have hsound : Sound (atTurn (states k)) := (sound_of_runUnder hrun hs k).outside _
  have hun := unmoved_atTurn (states k)
  cases he : events k with
  | reset => exact absurd he (hreset k)
  | host =>
    rw [he] at hturn
    rcases hostTurn_progress hturn with hless | hsame
    · exact .inl (hless.trans_eq hun.work)
    · exact .inr ⟨hun.trans hsame, fun h => nomatch h⟩
  | engine =>
    rw [he] at hturn
    rcases engineTurn_progress hsound hturn with hless | ⟨hd, ht⟩
    · exact .inl (hless.trans_eq hun.work)
    · exact .inr ⟨ht ▸ hun, fun _ => hun.engineEnabled.symm.trans hd⟩

/-- As long as no step makes progress nothing moves. -/
theorem unmoved_of_no_progress (hs : Sound s) (hreset : ∀ k, events k ≠ .reset) {k : Nat}
    (hstuck : ∀ j, k ≤ j → workLeft (states k) ≤ workLeft (states j)) {j : Nat} (hj : k ≤ j) :
    Unmoved (states k) (states j) := by
  induction j, hj using Nat.le_induction with
  | base => exact .refl _
  | succ j hj ih =>
    rcases progress_of_runUnder hrun hs hreset j with hless | ⟨hun, -⟩
    · have hle := hstuck (j + 1) (by omega)
      rw [← ih.work] at hle
      omega
    · exact ih.trans hun

/-- If nothing moves from some time on, the engine is drained: an enabled step gets its turn, and a full `outq` gets
room. -/
theorem drained_of_no_progress (hs : Sound s) (hreset : ∀ k, events k ≠ .reset) (hfair : Fair events s)
    (hpop : HostKeepsPopping events s) {k : Nat}
    (hstuck : ∀ j, k ≤ j → workLeft (states k) ≤ workLeft (states j)) :
    (states k).seq = .idle ∧ (states k).inq = [] := by
  have hun {j : Nat} (hj : k ≤ j) := unmoved_of_no_progress hrun hs hreset hstuck hj
  cases hen : engineEnabled (states k) with
  | true =>
    obtain ⟨j, hj, he⟩ := hfair.engine k fun j hj => ⟨_, hrun j, (hun hj).engineEnabled.trans hen⟩
    rcases progress_of_runUnder hrun hs hreset j with hless | ⟨-, hd⟩
    · have hle := hstuck (j + 1) (by omega)
      rw [← (hun hj).work] at hle
      omega
    · exact nomatch (hd he).symm.trans ((hun hj).engineEnabled.trans hen)
  | false =>
    rcases engineEnabled_eq_false hen with hdrained | hfull
    · exact hdrained
    · obtain ⟨j, u, hj, hu, hroom⟩ := hpop k _ (hrun k) hfull
      obtain rfl := Host.Outcome.next.inj ((hrun j).symm.trans hu)
      exact nomatch hroom.symm.trans ((hun hj).outFull.trans hfull)

/-- From every time on there is a time at which the engine is drained. -/
theorem exists_drained (hs : Sound s) (hreset : ∀ k, events k ≠ .reset) (hfair : Fair events s)
    (hpop : HostKeepsPopping events s) (k : Nat) :
    ∃ j, k ≤ j ∧ (states j).seq = .idle ∧ (states j).inq = [] := by
  induction hw : workLeft (states k) using Nat.strong_induction_on generalizing k with
  | _ n ih =>
    by_cases hstuck : ∀ j, k ≤ j → workLeft (states k) ≤ workLeft (states j)
    · exact ⟨k, le_rfl, drained_of_no_progress hrun hs hreset hfair hpop hstuck⟩
    · push Not at hstuck
      obtain ⟨i, hki, hless⟩ := hstuck
      obtain ⟨j, hij, hdrained⟩ := ih _ (hw ▸ hless) i rfl
      exact ⟨j, hki.trans hij, hdrained⟩

end

end Sys2Proof.Machine
end

section
/-! The obligation about fair runs: 70_reset_and_hazards.md R302, 41_streaming_engine.md R160. -/

open Sys2Proof Sys2Proof.Machine

/-- Settles O60: every round has a turn of each agent; under a fair schedule what is left to do goes down until the
engine is drained, and each drained time starts the argument again. -/
theorem fairRunsProcessEverySample : Obligations.FairRunsProcessEverySample := by
  refine ⟨fun s agent h => exists_turn s h, fun s events hs hfair hreset hruns hpop n => ?_⟩
  choose states hrun using hruns
  obtain ⟨j, hj, hdrained⟩ := exists_drained hrun hs hreset hfair hpop n
  exact ⟨j, _, hj, hrun j, hdrained⟩
end

section
/-! What a completing program receives does not depend on the interleaving (20_memory.md R72): in any run the rest of
the program receives what it would receive from the block with unbounded queues, drained before each transaction. -/

namespace Sys2Proof.Machine

/-! ## The block alone -/

/-- The block with unbounded queues and without its host and its schedule. -/
def alone (s : State) : State :=
  withOutside ⟨s.inRate, s.outRate, none, [], [], [], 0⟩
    { s with params := { s.params with inDepth := .unbounded, outDepth := .unbounded } }

theorem sound_alone {s : State} (h : Sound s) : Sound (alone s) where
  coherent := { h.coherent with inWithin := trivial, outWithin := trivial }
  position := ⟨h.position.step, h.position.position, h.position.emitBelowOne, h.position.renormAtLeastOne⟩

theorem EngineStep.alone {s t : State} (h : EngineStep s t) : EngineStep (alone s) (alone t) := by
  cases h with
  | pop hs hq => exact .pop (s := Machine.alone s) hs hq
  | pass hs _ => exact .pass (s := Machine.alone s) hs rfl
  | shift hs => exact .shift (s := Machine.alone s) hs
  | test hs => exact .test (s := Machine.alone s) hs
  | emit hs _ hph => exact .emit (s := Machine.alone s) hs rfl hph
  | renorm hs => exact .renorm (s := Machine.alone s) hs

/-- Nothing but a `STAT` sees how deep the queues are. -/
theorem Answers.alone {i : Instr} {s t : State} {e : TraceEntry} (h : Answers i s t e) (hi : i ≠ .stat) :
    Answers i (alone s) (alone t) e := by
  cases h with
  | init hs hq hin hout => exact .init (s := Machine.alone s) hs hq hin hout
  | stat => exact absurd rfl hi
  | getparams => exact .getparams _
  | getin => exact .getin (Machine.alone s)
  | getout => exact .getout (Machine.alone s)
  | setin rate => exact .setin rate (Machine.alone s)
  | setout rate => exact .setout rate (Machine.alone s)
  | ctrlnop => exact .ctrlnop _
  | pushUnconfigured x hc => exact .pushUnconfigured x (s := Machine.alone s) hc
  | push x hc _ => exact .push x (s := Machine.alone s) hc rfl
  | pop hq => exact .pop (s := Machine.alone s) hq

theorem WordAnswers.alone {w : Bus48} {s t : State} {e : TraceEntry} (h : WordAnswers w s t e)
    (hw : decode w ≠ .ok .stat) : WordAnswers w (alone s) (alone t) e := by
  rcases h with ⟨c, hd, rfl, rfl⟩ | ⟨i, hd, ha⟩
  · exact .inl ⟨c, hd, rfl, rfl⟩
  · exact .inr ⟨i, hd, ha.alone fun hi => hw (hi ▸ hd)⟩

/-- A transaction answers in one way. -/
theorem Answers.unique {i : Instr} {s t t' : State} {e e' : TraceEntry} (h : Answers i s t e)
    (h' : Answers i s t' e') : t = t' ∧ e = e' := by
  cases h with
  | pop hq =>
    cases h' with
    | pop hq' =>
      cases hq.symm.trans hq'
      exact ⟨rfl, rfl⟩
  | pushUnconfigured x hc =>
    cases h' with
    | pushUnconfigured => exact ⟨rfl, rfl⟩
    | push _ hc' _ => exact nomatch hc.symm.trans hc'
  | push x hc _ =>
    cases h' with
    | pushUnconfigured _ hc' => exact nomatch hc.symm.trans hc'
    | push => exact ⟨rfl, rfl⟩
  | _ => cases h'; exact ⟨rfl, rfl⟩

theorem WordAnswers.unique {w : Bus48} {s t t' : State} {e e' : TraceEntry} (h : WordAnswers w s t e)
    (h' : WordAnswers w s t' e') : t = t' ∧ e = e' := by
  rcases h with ⟨c, hd, rfl, rfl⟩ | ⟨i, hd, ha⟩ <;> rcases h' with ⟨c', hd', rfl, rfl⟩ | ⟨i', hd', ha'⟩
  · cases hd.symm.trans hd'
    exact ⟨rfl, rfl⟩
  · exact nomatch hd.symm.trans hd'
  · exact nomatch hd.symm.trans hd'
  · cases hd.symm.trans hd'
    exact ha.unique ha'

theorem Sound.wordAnswers {w : Bus48} {s t : State} {e : TraceEntry} (h : Sound s) (ha : WordAnswers w s t e) :
    Sound t := by
  rcases ha with ⟨c, -, rfl, -⟩ | ⟨i, -, ha⟩
  · exact h
  · exact h.answers ha

/-! ## Draining -/

theorem engineRun_succ_next {k : Nat} {s t : State} (h : engineRun (k + 1) s = .next t) :
    ∃ u, engineTurn s = .next u ∧ engineRun k u = .next t := by
  cases hs : engineTurn s with
  | next u => exact ⟨u, rfl, by rw [← engineRun_succ k hs]; exact h⟩
  | fault r => simp [engineRun, hs] at h
  | refused r => simp [engineRun, hs] at h

/-- Turns of the engine only take the first state to the second, where the engine is drained. -/
def Drains (s d : State) : Prop := (∃ k, engineRun k s = .next d) ∧ d.seq = .idle ∧ d.inq = []

theorem engineRun_drained {s : State} (hs : s.seq = .idle) (hq : s.inq = []) (k : Nat) :
    engineRun k s = .next s := by
  induction k with
  | zero => rfl
  | succ k ih => rw [engineRun_succ k (engineTurn_idle_nil hs hq), ih]

theorem drains_self {s : State} (hs : s.seq = .idle) (hq : s.inq = []) : Drains s s := ⟨⟨0, rfl⟩, hs, hq⟩

theorem Drains.unique {s d d' : State} (h : Drains s d) (h' : Drains s d') : d = d' := by
  obtain ⟨⟨j, hj⟩, hs, hq⟩ := h
  obtain ⟨⟨k, hk⟩, hs', hq'⟩ := h'
  have h1 := engineRun_add j k hj
  have h2 := engineRun_add k j hk
  rw [engineRun_drained hs hq] at h1
  rw [engineRun_drained hs' hq', Nat.add_comm] at h2
  exact Host.Outcome.next.inj (h1.symm.trans h2)

/-- Turns of the engine do not change where it drains to. -/
theorem Drains.of_engineRun {j : Nat} {s t d : State} (h : Drains s d) (ht : engineRun j s = .next t) :
    Drains t d := by
  obtain ⟨⟨k, hk⟩, hs, hq⟩ := h
  have hrun := engineRun_add k j hk
  rw [engineRun_drained hs hq, Nat.add_comm, engineRun_add j k ht] at hrun
  exact ⟨⟨k, hrun⟩, hs, hq⟩

theorem Drains.of_engineTurn {s t d : State} (h : Drains s d) (ht : engineTurn s = .next t) : Drains t d :=
  h.of_engineRun (engineRun_succ 0 ht)

theorem exists_drains {s : State} (hs : Sound s) (hd : s.params.outDepth = .unbounded) : ∃ d, Drains s d := by
  obtain ⟨k, d, -, hrun, hdrained⟩ := exists_engineRun_drained hs hd
  exact ⟨d, ⟨k, hrun⟩, hdrained⟩

/-- A transaction answers the same after the engine has run on, which runs on after it too. -/
theorem WordAnswers.after_engineRun {w : Bus48} {k : Nat} {s u d : State} {e : TraceEntry} (h : WordAnswers w s u e)
    (hw : decode w ≠ .ok .stat) (hs : Coherent s) (hrun : engineRun k s = .next d) :
    ∃ j v, engineRun j u = .next v ∧ WordAnswers w d v e := by
  induction k generalizing s u with
  | zero =>
    cases hrun
    exact ⟨0, u, rfl, h⟩
  | succ k ih =>
    obtain ⟨t, ht, hrest⟩ := engineRun_succ_next hrun
    rcases engineTurn_step ht with ⟨rfl, -⟩ | hstep
    · exact ih h hs hrest
    · obtain ⟨v, hv, hansv⟩ := h.commute hw hs hstep
      obtain ⟨j, v', hj, hd⟩ := ih hansv (hs.of_engineTurn ht) hrest
      exact ⟨j + 1, v', (engineRun_succ j hv.turn).trans hj, hd⟩

/-! ## The two stable bits of `STAT` -/

/-- What bits 0 and 4 of the status show. -/
def configuration (s : State) : Bool × Bool := (s.configured, identity s)

theorem engineRun_configuration {k : Nat} {s t : State} (h : engineRun k s = .next t) :
    configuration t = configuration s := by
  induction k generalizing s with
  | zero => cases h; rfl
  | succ k ih =>
    obtain ⟨u, hu, hrest⟩ := engineRun_succ_next h
    rw [ih hrest, engineTurn_writes hu]
    rfl

theorem statusWord_masked (s : State) : statusWord s &&& 0x00000011#32 =
    (BitVec.ofBool (identity s) ++ (0#3 ++ BitVec.ofBool s.configured : BitVec 4) : BitVec 5).setWidth 32 := by
  unfold statusWord
  generalize identity s = a, outValid s = b, inReady s = c, busy s = d, s.configured = e
  revert a b c d e
  decide

theorem statusWord_masked_congr {s t : State} (h : configuration s = configuration t) :
    statusWord s &&& 0x00000011#32 = statusWord t &&& 0x00000011#32 := by
  obtain ⟨hc, hi⟩ := Prod.mk.inj h
  rw [statusWord_masked, statusWord_masked, hc, hi]

/-! ## What a program receives -/

/-- What the drained block answers to the words in turn, draining after each, as far as R72 speaks of it. -/
inductive Serves : State → List Bus48 → List TraceEntry → Prop
  | nil (d : State) : Serves d [] []
  | cons {d v d' : State} {w : Bus48} {ws : List Bus48} {e : TraceEntry} {es : List TraceEntry}
      (ha : WordAnswers w d v e) (hd : Drains v d') (rest : Serves d' ws es) :
      Serves d (w :: ws) (dataOfEntry w e :: es)

theorem Serves.unique {d : State} {ws : List Bus48} {es es' : List TraceEntry} (h : Serves d ws es)
    (h' : Serves d ws es') : es = es' := by
  induction h generalizing es' with
  | nil => cases h'; rfl
  | cons ha hd _ ih =>
    cases h' with
    | cons ha' hd' rest' =>
      obtain ⟨rfl, rfl⟩ := ha.unique ha'
      obtain rfl := hd.unique hd'
      rw [ih rest']

/-- A transaction that completes on a block completes on the drained block, with the same data, and the two drain to
the same state again. -/
theorem WordAnswers.drained {w : Bus48} {s u d : State} {e : TraceEntry} (h : WordAnswers w s u e) (hs : Sound s)
    (hd : Drains (Machine.alone s) d) : ∃ v e' d', WordAnswers w d v e' ∧ dataOfEntry w e' = dataOfEntry w e ∧
      Drains v d' ∧ Drains (Machine.alone u) d' := by
  obtain ⟨⟨k, hk⟩, hidle, hq⟩ := id hd
  by_cases hw : decode w = .ok .stat
  · rcases h with ⟨c, hc, -, -⟩ | ⟨i, hi, ha⟩
    · exact nomatch hw.symm.trans hc
    · cases hw.symm.trans hi
      cases ha
      refine ⟨d, _, d, .inr ⟨_, hw, .stat d⟩, ?_, drains_self hidle hq, hd⟩
      have hbits : statusWord d &&& 0x00000011#32 = statusWord s &&& 0x00000011#32 :=
        statusWord_masked_congr (engineRun_configuration (s := Machine.alone s) hk)
      simp only [dataOfEntry, hw, if_pos, answered, hbits]
  · have hsound := sound_alone hs
    have ha := h.alone hw
    obtain ⟨j, v, hj, hav⟩ := ha.after_engineRun hw hsound.coherent hk
    obtain ⟨d', hd'⟩ := exists_drains (hsound.wordAnswers ha) (by rw [ha.params]; rfl)
    exact ⟨v, e, d', hav, rfl, Drains.of_engineRun hd' hj, hd'⟩

/-- The words the host has still to complete. -/
def pending (s : State) : List Bus48 := s.port.toList ++ s.program

theorem Tries.pending {s u : State} {w : Bus48} (h : Tries s w u) :
    pending u = w :: u.program ∧ pending u = pending s ∧ alone u = alone s ∧ u.trace = s.trace := by
  rcases h with ⟨hp, rfl⟩ | ⟨rest, hp, hw, rfl⟩
  · exact ⟨by rw [Machine.pending, hp]; rfl, rfl, rfl, rfl⟩
  · refine ⟨rfl, ?_, rfl, rfl⟩
    rw [Machine.pending, Machine.pending, hp, hw]
    rfl

theorem Tries.sound {s u : State} {w : Bus48} (h : Tries s w u) (hs : Sound s) : Sound u := by
  obtain ⟨rest, rfl⟩ := h.eq_withOutside
  exact hs.outside _

/-- From `s` to `t` the pending transactions get the data the drained block `d` would send. -/
def Sends (t s d : State) : Prop := ∃ es, t.trace = s.trace ++ es ∧ es.length = (pending s).length ∧
  Serves d (pending s) (List.zipWith dataOfEntry (pending s) es)

theorem sends_nothing {t d : State} (h : pending t = []) : Sends t t d :=
  ⟨[], (List.append_nil _).symm, by rw [h]; rfl, by rw [h]; exact .nil d⟩

theorem Sends.congr {t s u d : State} (h : Sends t u d) (hp : pending u = pending s) (ht : u.trace = s.trace) :
    Sends t s d := by
  rwa [Sends, hp, ht] at h

theorem engineTurn_sends {s t u d : State} (h : engineTurn s = .next u) (hd : Drains (alone s) d)
    (hrest : ∀ d, Drains (alone u) d → Sends t u d) : Sends t s d := by
  obtain ⟨hp, hw, htr, -⟩ := engineTurn_frame h
  refine Sends.congr (hrest d ?_) (by rw [pending, hp, hw]; rfl) htr
  rcases engineTurn_step h with ⟨rfl, -⟩ | hstep
  · exact hd
  · exact hd.of_engineTurn hstep.alone.turn

theorem hostTurn_sends {s t u d : State} (hs : Sound s) (h : hostTurn s = .next u) (hd : Drains (alone s) d)
    (hrest : ∀ d, Drains (alone u) d → Sends t u d) : Sends t s d := by
  rcases hostTurn_outcome h with rfl | ⟨w, v, hv, hdone⟩
  · exact hrest d hd
  · obtain ⟨hpw, hps, halone, htr⟩ := hv.pending
    have hdv : Drains (alone v) d := by rw [halone]; exact hd
    rcases hdone with rfl | ⟨v', e, ha, rfl⟩
    · exact (hrest d hdv).congr hps htr
    · obtain ⟨v'', e', d', ha', hdata, hd', hdu⟩ := ha.drained (hv.sound hs) hdv
      obtain ⟨es, htrace, hlen, hserves⟩ := hrest d' hdu
      have hpend : pending s = w :: pending (respondWith e v') := by
        rw [← ha.program] at hpw
        exact hps.symm.trans hpw
      refine ⟨e :: es, ?_, by rw [hpend, List.length_cons, List.length_cons, hlen], ?_⟩
      · rw [htrace, respondWith_trace, ha.trace, htr, List.append_assoc, List.singleton_append]
      · rw [hpend, List.zipWith_cons_cons, ← hdata]
        exact .cons ha' hd' hserves

/-- The rest of a run without a reset event sends the rest of the program what the drained block would. -/
theorem run_sends {sch : List Event} (hreset : ∀ e ∈ sch, e ≠ .reset) {s t d : State} (hs : Sound s)
    (hsch : s.schedule = sch) (hd : Drains (alone s) d) (hrun : run sch.length s = .next t) (hprog : t.program = [])
    (hport : t.port = none) : Sends t s d := by
  induction sch generalizing s d with
  | nil =>
    cases hrun
    exact sends_nothing (by rw [pending, hport, hprog]; rfl)
  | cons ev sch ih =>
    obtain ⟨u, hu, hrest⟩ := run_succ_next hrun
    have hus : u.schedule = sch := by rw [(step_frame hu).1, upcoming_scheduled hsch, List.tail_cons]
    have hsends (d : State) (hd : Drains (alone u) d) : Sends t u d :=
      ih (fun e he => hreset e (List.mem_cons_of_mem _ he)) (step_sound hs hu) hus hd hrest
    rw [step_scheduled hsch] at hu
    cases ev with
    | reset => exact absurd rfl (hreset _ List.mem_cons_self)
    | engine => exact engineTurn_sends (s := consumeTurn s) hu hd hsends
    | host =>
      exact hostTurn_sends (s := consumeTurn s) (consumeTurn_eq_withOutside s ▸ hs.outside _) hu hd hsends

/-- A state with another schedule and other depths. -/
def startedWith (sch : List Event) (din dout : Depth) (s : State) : State :=
  { s with schedule := sch, params := { s.params with inDepth := din, outDepth := dout } }

/-- A completing run from a drained state with empty queues, under any schedule and depths. -/
theorem sends_of_start {sch : List Event} (hreset : ∀ e ∈ sch, e ≠ .reset) {s t : State} (hs : Sound s)
    (hidle : s.seq = .idle) (hinq : s.inq = []) (houtq : s.outq = []) (din dout : Depth)
    (hrun : run sch.length (startedWith sch din dout s) = .next t) (hprog : t.program = []) (hport : t.port = none) :
    Sends t s (alone s) := by
  have hsound : Sound (startedWith sch din dout s) :=
    ⟨{ hs.coherent with
        inWithin := hinq ▸ queueWithin_empty _
        outWithin := houtq ▸ queueWithin_empty _ },
      ⟨hs.position.step, hs.position.position, hs.position.emitBelowOne, hs.position.renormAtLeastOne⟩⟩
  have hd : Drains (alone s) (alone s) := drains_self hidle hinq
  exact run_sends (s := startedWith sch din dout s) hreset hsound rfl hd hrun hprog hport

end Sys2Proof.Machine
end

section
/-! The obligation about interleavings: 20_memory.md R72. -/

open Sys2Proof Sys2Proof.Machine

/-- Settles O56: both runs send the program what the drained block would, which is determined. -/
theorem responsesIndependentOfInterleaving : Obligations.ResponsesIndependentOfInterleaving := by
  intro s din dout din' dout' sch sch' t t' hs hport hidle hinq houtq htrace hsch hsch' hrun hrun' hprog hfree hprog'
    hfree'
  have hpend : pending s = s.program := by rw [pending, hport]; rfl
  obtain ⟨es, ht, hlen, hserves⟩ := sends_of_start hsch hs hidle hinq houtq din dout hrun hprog hfree
  obtain ⟨es', ht', hlen', hserves'⟩ := sends_of_start hsch' hs hidle hinq houtq din' dout' hrun' hprog' hfree'
  rw [htrace, List.nil_append] at ht ht'
  rw [hpend] at hlen hlen' hserves hserves'
  rw [ht, ht']
  exact ⟨hserves.unique hserves', hlen, hlen'⟩
end

section
/-! The binary32 data path on special operands (42_dot_product_mac.md R187, 43_output_saturator.md R200, R205): zero
products, dot products under the premises on the table, and the saturator as a function. -/

namespace Sys2Proof.Machine

/-! ## Patterns of finite values -/

/-- A finite value has one pattern. -/
theorem eq_of_val32 {a b : F32} {neg : Bool} {m : Nat} (ha : val32 a = .fin neg m) (hb : val32 b = .fin neg m) :
    a = b := by
  obtain ⟨-, hma, hsa⟩ := floatVal_fin fmt32 ha
  obtain ⟨-, hmb, hsb⟩ := floatVal_fin fmt32 hb
  have hmod : a.toNat % signWeight fmt32 = b.toNat % signWeight fmt32 :=
    (magUnits_strictMono fmt32).injective (hma.symm.trans hmb)
  have hsign := decide_eq_decide.1 (hsa.symm.trans hsb)
  have hw : signWeight fmt32 = 2 ^ 31 := by decide
  have hla := a.isLt
  have hlb := b.isLt
  rw [hw] at hmod hsign
  exact BitVec.eq_of_toNat_eq (by omega)

theorem val32_zero : val32 0x00000000#32 = .fin false 0 := by decide

/-! ## Zero operands -/

theorem val32_fmul32_zero {a : F32} {neg : Bool} {m : Nat} (ha : val32 a = .fin neg m) :
    val32 (fmul32 a 0x00000000#32) = .fin neg 0 := by
  have hrep : Representable fmt32 0 := representable_of_val32 val32_zero
  have hexact : mulExact (oneUnits fmt32) (.fin neg m) (.fin false 0) =
      .ratio neg (0 * oneUnits fmt32) (oneUnits fmt32) := by simp [mulExact]
  rw [fmul32, ha, val32_zero, hexact]
  exact val32_round32_exact _ _ (oneUnits_pos _) hrep

/-- A sum with `+0.0` is the other operand, but `+0.0` for a zero of either sign. -/
theorem val32_fadd32_zero {a : F32} {neg : Bool} {m : Nat} (ha : val32 a = .fin neg m) :
    val32 (fadd32 0x00000000#32 a) = .fin (if m = 0 then false else neg) m := by
  have hexact : addExact (.fin false 0) (.fin neg m) = .ratio (if m = 0 then false else neg) (m * 1) 1 := by
    cases neg <;> simp [addExact, exactOfInt, signedUnits]
    omega
  rw [fadd32, val32_zero, ha, hexact]
  exact val32_round32_exact _ _ Nat.one_pos (representable_of_val32 ha)

theorem fadd32_zero_zero {a : F32} {neg : Bool} (ha : val32 a = .fin neg 0) :
    fadd32 0x00000000#32 a = 0x00000000#32 :=
  eq_of_val32 (val32_fadd32_zero ha) val32_zero

theorem fadd32_zero_of_ne {a : F32} {neg : Bool} {m : Nat} (ha : val32 a = .fin neg m) (hm : m ≠ 0) :
    fadd32 0x00000000#32 a = a := by
  have h := val32_fadd32_zero ha
  rw [if_neg hm] at h
  exact eq_of_val32 h ha

/-- A finite tap against a zero word leaves a zero accumulator. -/
theorem fadd32_zero_product {c : F32} (hc : ∃ n m, val32 c = .fin n m) :
    fadd32 0x00000000#32 (fmul32 c 0x00000000#32) = 0x00000000#32 := by
  obtain ⟨n, m, h⟩ := hc
  exact fadd32_zero_zero (val32_fmul32_zero h)

theorem dotScalar_zeroHistory {coef : Row} (h : ∀ (i : Nat) (hi : i < 16), ∃ n m, val32 coef[i] = .fin n m) :
    dotScalar coef zeroHistory = 0x00000000#32 :=
  dotScalar_eq_of_partials coef zeroHistory (fun _ => 0x00000000#32) rfl fun i hi => by
    rw [zeroHistory_get i hi]
    exact (fadd32_zero_product (h i hi)).symm

/-- The accumulator stays zero up to the newest word, whose product is then the sum. -/
theorem dotScalar_newest {coef hist : Row} {n : Bool} {m : Nat}
    (h : ∀ (i : Nat) (hi : i < 16), ∃ n m, val32 coef[i] = .fin n m)
    (hzero : ∀ (i : Nat) (hi : i < 15), hist[i] = 0x00000000#32)
    (hlast : val32 (fmul32 coef[15] hist[15]) = .fin n m) (hm : m ≠ 0) :
    dotScalar coef hist = fmul32 coef[15] hist[15] := by
  refine dotScalar_eq_of_partials coef hist (fun i => if i < 16 then 0x00000000#32 else fmul32 coef[15] hist[15]) rfl
    fun i hi => ?_
  rcases Nat.lt_succ_iff_lt_or_eq.1 hi with hlt | rfl
  · rw [if_pos (Nat.succ_lt_succ hlt), if_pos hi, hzero i hlt, fadd32_zero_product (h i hi)]
  · exact (fadd32_zero_of_ne hlast hm).symm

/-! ## Bounded tables (40_filter_bank_builder.md R130) -/

theorem abs_ratOf32_i16ToF32 (x : Sample) : |ratOf32 (i16ToF32 x)| ≤ 32768 := by
  have hlt : s16 x < 2 ^ 15 := BitVec.toInt_lt
  have hge : -2 ^ 15 ≤ s16 x := BitVec.le_toInt x
  have hone := oneUnits32_pos
  have hnat : (((s16 x).natAbs : Nat) : ℚ) ≤ 32768 := by exact_mod_cast (by omega : (s16 x).natAbs ≤ 32768)
  rw [ratOf32_fin (val32_i16ToF32 x), signedUnits_cast, mul_div_assoc, abs_sign_mul, Nat.cast_mul,
    mul_div_cancel_right₀ _ hone.ne', Nat.abs_cast]
  exact hnat

/-- Products with bounded words are bounded by the magnitudes of the taps. -/
theorem absSum_products_le {bound : ℚ} {pairs : List (F32 × F32)} (h : ∀ ch ∈ pairs, |ratOf32 ch.2| ≤ bound) :
    absSum (pairs.map pairProduct) ≤ bound * (pairs.map fun ch => |ratOf32 ch.1|).sum := by
  induction pairs with
  | nil => simp [absSum]
  | cons ch pairs ih =>
    have hch : |pairProduct ch| ≤ bound * |ratOf32 ch.1| := by
      rw [pairProduct, abs_mul, mul_comm]
      exact mul_le_mul_of_nonneg_right (h ch List.mem_cons_self) (abs_nonneg _)
    have htail := ih fun c hc => h c (List.mem_cons_of_mem _ hc)
    have hsum : absSum ((ch :: pairs).map pairProduct) = |pairProduct ch| + absSum (pairs.map pairProduct) := by
      simp [absSum]
    rw [hsum, List.map_cons, List.sum_cons, mul_add]
    exact add_le_add hch htail

/-- A part of the products has no larger magnitudes. -/
theorem absSum_sublist {part products : List ℚ} (h : part.Sublist products) : absSum part ≤ absSum products := by
  refine (h.map fun x => |x|).sum_le_sum fun a ha => ?_
  obtain ⟨x, -, rfl⟩ := List.mem_map.1 ha
  exact abs_nonneg x

theorem noOverflow_of_absSum {tol : ℚ} (htol : 0 ≤ tol) {products : List ℚ}
    (h : (1 + tol) * absSum products < overflow32) : NoOverflow tol products := by
  intro part hpart
  have hsum := abs_sum_le_absSum part
  have hle : (1 + tol) * absSum part ≤ (1 + tol) * absSum products :=
    mul_le_mul_of_nonneg_left (absSum_sublist hpart) (by linarith)
  linarith

/-- Under P-L1 the exact products of a row with converted samples stay far below overflow. -/
theorem noOverflow_of_premises {table : Table} (hl1 : PL1 2 table) {hist : Row}
    (hhist : ∀ (i : Nat) (h : i < 16), ∃ x : Sample, hist[i] = i16ToF32 x) (ph : Fin 128) :
    NoOverflow 2 (exactProducts (phaseRow table ph) hist) := by
  have hwords : ∀ ch ∈ List.zip (phaseRow table ph).toList hist.toList, |ratOf32 ch.2| ≤ 32768 := by
    intro ch hch
    obtain ⟨i, hi, hget⟩ := List.mem_iff_getElem.1 (List.of_mem_zip (a := ch.1) (b := ch.2) hch).2
    obtain ⟨x, hx⟩ := hhist i (by simpa using hi)
    rw [← hget, Vector.getElem_toList, hx]
    exact abs_ratOf32_i16ToF32 x
  have hfst : (List.zip (phaseRow table ph).toList hist.toList).map (fun ch => |ratOf32 ch.1|) =
      (phaseRow table ph).toList.map fun c => |ratOf32 c| := by
    conv_rhs => rw [← List.map_fst_zip (l₁ := (phaseRow table ph).toList) (l₂ := hist.toList) (by simp), List.map_map]
    rfl
  have hprod := absSum_products_le hwords
  rw [hfst] at hprod
  have hrow := hl1 ph
  have hsum : absSum (exactProducts (phaseRow table ph) hist) ≤ 2 ^ 16 := by
    change absSum ((List.zip _ _).map pairProduct) ≤ _
    linarith
  refine noOverflow_of_absSum (by norm_num) ?_
  unfold overflow32
  linarith

/-! ## The saturator as a function -/

theorem s16_bounds (x : Sample) : -32768 ≤ s16 x ∧ s16 x ≤ 32767 :=
  ⟨BitVec.le_toInt x, Int.lt_add_one_iff.1 BitVec.toInt_lt⟩

/-- The saturator is monotone over the finite values. -/
theorem s16_saturate_mono_fin (p : Params) {y z : F32} {s t : Bool} {m n : Nat} (hy : val32 y = .fin s m)
    (hz : val32 z = .fin t n) (h : signedUnits s m ≤ signedUnits t n) : s16 (saturate p y) ≤ s16 (saturate p z) := by
  cases s with
  | false =>
    cases t with
    | false =>
      have hround := roundMagnitude_mono p.outRound (Int.ofNat_le.1 h)
      rw [s16_saturate_nonneg p hy, s16_saturate_nonneg p hz]
      omega
    | true =>
      rw [signedUnits_false, signedUnits_true] at h
      have hround := roundMagnitude_mono p.outRound (show m ≤ 0 by omega)
      have hround' := roundMagnitude_mono p.outRound (show n ≤ 0 by omega)
      have hzero : roundMagnitude p.outRound 0 = 0 := by simpa using roundMagnitude_exact p.outRound 0
      rw [s16_saturate_nonneg p hy, s16_saturate_nonpos p hz]
      omega
  | true =>
    cases t with
    | false =>
      rw [s16_saturate_nonpos p hy, s16_saturate_nonneg p hz]
      omega
    | true =>
      rw [signedUnits_true, signedUnits_true] at h
      have hround := roundMagnitude_mono p.outRound (show n ≤ m by omega)
      rw [s16_saturate_nonpos p hy, s16_saturate_nonpos p hz]
      omega

theorem s16_saturate_mono (p : Params) {y z : F32} (h : fge32 z y = true) :
    s16 (saturate p y) ≤ s16 (saturate p z) := by
  have hy' := s16_bounds (saturate p y)
  have hz' := s16_bounds (saturate p z)
  cases hy : val32 y with
  | nan => simp [fge32, hy, leVal] at h
  | inf s =>
    cases s with
    | true =>
      rw [saturate_negInf p hy, s16_u16 (by decide) (by decide)]
      exact hz'.1
    | false =>
      cases hz : val32 z with
      | nan => simp [fge32, hy, hz, leVal] at h
      | fin t n => simp [fge32, hy, hz, leVal] at h
      | inf t =>
        obtain rfl : t = false := by simpa [fge32, hy, hz, leVal] using h
        rw [saturate_posInf p hy, saturate_posInf p hz]
  | fin s m =>
    cases hz : val32 z with
    | nan => simp [fge32, hy, hz, leVal] at h
    | inf t =>
      obtain rfl : t = false := by simpa [fge32, hy, hz, leVal] using h
      rw [saturate_posInf p hz, s16_u16 (by decide) (by decide)]
      exact hy'.2
    | fin t n => exact s16_saturate_mono_fin p hy hz ((fge32_fin hz hy).1 h)

theorem s16_saturate_neg (p : Params) {y z : F32} {m : Nat} (hy : val32 y = .fin false m)
    (hz : val32 z = .fin true m) (hm : m < 32767 * oneUnits fmt32) : s16 (saturate p z) = - s16 (saturate p y) := by
  have hround := roundMagnitude_le p.outRound hm.le
  rw [s16_saturate_nonneg p hy, s16_saturate_nonpos p hz]
  omega

/-- The saturator gives a converted sample back. -/
theorem saturate_i16ToF32 (p : Params) (x : Sample) : saturate p (i16ToF32 x) = x := by
  have hval := val32_i16ToF32 x
  obtain ⟨hlow, hhigh⟩ := s16_bounds x
  refine BitVec.eq_of_toInt_eq (show s16 _ = s16 x from ?_)
  by_cases hneg : s16 x < 0
  · rw [decide_eq_true hneg] at hval
    rw [s16_saturate_nonpos p hval, roundMagnitude_exact]
    omega
  · rw [decide_eq_false hneg] at hval
    rw [s16_saturate_nonneg p hval, roundMagnitude_exact]
    omega

end Sys2Proof.Machine
end

section
/-! The obligations of 42_dot_product_mac.md R187 and 43_output_saturator.md R200, R204 and R205. -/

open Sys2Proof Sys2Proof.Machine

/-- Settles O37: every product is a zero, and the accumulator stays `+0.0`. -/
theorem zeroHistoryGivesZero : Obligations.ZeroHistoryGivesZero := by
  intro p coef hmode hcoef
  rw [dot_of_scalar hmode]
  exact dotScalar_zeroHistory hcoef

/-- Settles O38: the accumulator is `+0.0` until the last product. -/
theorem firstOutputIsOneProduct : Obligations.FirstOutputIsOneProduct := by
  intro p coef hist n m hmode hcoef hzero hlast hm
  rw [dot_of_scalar hmode]
  exact dotScalar_newest hcoef hzero hlast hm

/-- Settles O39: the error bound of the scalar datapath, whose premise the bounds on table and history give. -/
theorem finiteTablesGiveFiniteSums : Obligations.FiniteTablesGiveFiniteSums := by
  intro p table hist ph hmode hfin hl1 hhist
  rw [dot_of_scalar hmode]
  refine (pDotClose_dotScalar (phaseRow table ph) hist (fun i hi => ⟨?_, ?_⟩)
    (noOverflow_of_premises hl1 hhist ph)).1
  · rw [phaseRow_get table ph i hi]
    exact hfin _ _
  · obtain ⟨x, hx⟩ := hhist i hi
    exact ⟨_, _, hx ▸ val32_i16ToF32 x⟩

/-- Settles O41: by the kinds of the two values. -/
theorem saturatorIsMonotone : Obligations.SaturatorIsMonotone := fun p _ _ => s16_saturate_mono p

/-- Settles O42: inside the bounds the magnitude alone is rounded. -/
theorem saturatorIsOddInside : Obligations.SaturatorIsOddInside := by
  intro p y z n m hy hz hm
  cases n with
  | false => exact s16_saturate_neg p hy hz hm
  | true => rw [s16_saturate_neg p hz hy hm, neg_neg]

/-- Settles O43: the conversion is exact, and a whole number is rounded to itself. -/
theorem sampleConversionIsExact : Obligations.SampleConversionIsExact :=
  fun x => ⟨val32_i16ToF32 x, fun p => saturate_i16ToF32 p x⟩
end

section
/-! The filter bank builder (40_filter_bank_builder.md R121 to R136): the words of a table, the exact tap offsets, and
the cutoff of up-sampling. -/

namespace Sys2Proof.Machine

/-! ## The words of a table -/

/-- A concatenation of blocks of one length, by block and place. -/
theorem getElem?_flatMap_block {α β : Type} {f : α → List β} {len : Nat} (hlen : ∀ a, (f a).length = len)
    (l : List α) (i j : Nat) (hj : j < len) : (l.flatMap f)[len * i + j]? = l[i]?.bind fun a => (f a)[j]? := by
  induction l generalizing i with
  | nil => rfl
  | cons a l ih =>
    rw [List.flatMap_cons]
    cases i with
    | zero =>
      rw [Nat.mul_zero, Nat.zero_add, List.getElem?_append_left (by rw [hlen]; exact hj)]
      rfl
    | succ i =>
      have hge : (f a).length ≤ len * (i + 1) + j := by rw [hlen, Nat.mul_succ]; omega
      have hsub : len * (i + 1) + j - (f a).length = len * i + j := by rw [hlen, Nat.mul_succ]; omega
      rw [List.getElem?_append_right hge, hsub, ih, List.getElem?_cons_succ]

theorem normaliseRow_length (raw : List F64) : (normaliseRow raw).length = raw.length := List.length_map ..

theorem rawRow_length (p : Params) (sin cos : F64 → F64) (cutoff : F64) (ph : Nat) :
    (rawRow p sin cos cutoff ph).length = 16 := by
  simp [rawRow]

theorem tableFor_get (p : Params) (sin cos : F64 → F64) (cutoff : F64) {ph t : Nat} (hph : ph < 128) (ht : t < 16) :
    (tableFor p sin cos cutoff)[16 * ph + t] =
      f64ToF32 (fdiv64 (rawTap p sin cos cutoff ph t) (rowSum (rawRow p sin cos cutoff ph))) := by
  have hblock := getElem?_flatMap_block (f := fun ph => normaliseRow (rawRow p sin cos cutoff ph)) (len := 16)
    (fun ph => by rw [normaliseRow_length, rawRow_length]) (List.range 128) ph t ht
  have hlt : 16 * ph + t < (tableFor p sin cos cutoff).toList.length := by rw [Vector.length_toList]; omega
  refine Option.some.inj ((List.getElem?_eq_getElem hlt).symm.trans (hblock.trans ?_))
  simp [hph, ht, normaliseRow, rawRow]

/-- The row sum through its partial sums (R127). -/
theorem rowSum_rawRow {p : Params} {sin cos : F64 → F64} {cutoff : F64} {ph : Nat} {sum : Nat → F64}
    (h0 : sum 0 = 0x0000000000000000#64)
    (hstep : ∀ i, i < 16 → sum (i + 1) = fadd64 (sum i) (rawTap p sin cos cutoff ph i)) :
    rowSum (rawRow p sin cos cutoff ph) = sum 16 := by
  have hfold := foldl_eq_of_partials fadd64 (rawRow p sin cos cutoff ph) sum fun i hi => by
    rw [rawRow_length] at hi
    simpa [rawRow] using hstep i hi
  rwa [rawRow_length, h0] at hfold

/-! ## The cutoff (R122, R136) -/

theorem cutoffOf_high {ratio : F64} (h : fge64 ratio 0x3FF0000000000000#64 = true) :
    cutoffOf ratio = 0x3FDCCCCCCCCCCCCD#64 := if_pos h

theorem cutoffOf_low {ratio : F64} (h : fge64 ratio 0x3FF0000000000000#64 = false) :
    cutoffOf ratio = fmul64 ratio 0x3FDCCCCCCCCCCCCD#64 := if_neg (by simp [h])

/-- An output rate not below the input rate gives a rounded quotient not below 1.0. -/
theorem rateRatio_ge_one {input output : Word} (hin : input ≠ 0#32) (h : input.toNat ≤ output.toNat) :
    fge64 (rateRatio input output) 0x3FF0000000000000#64 = true := by
  have hpos := toNat_pos_of_ne_zero hin
  have hlt := output.isLt
  obtain ⟨m, hm, hlo, -⟩ := fdiv64_rates (x := output) hin (representable_grains (n := 2 ^ 33) (by norm_num))
    representable_maxQuotient (by omega) (by omega)
  rw [rateRatio, fge64_nonneg hm val64_one, oneUnits_eq_grains]
  exact decide_eq_true hlo

theorem build_upsampling (p : Params) (sin cos : F64 → F64) {input output : Word} (hin : input ≠ 0#32)
    (h : input.toNat ≤ output.toNat) :
    build p sin cos input output = tableFor p sin cos 0x3FDCCCCCCCCCCCCD#64 := by
  rw [build, cutoffOf_high (rateRatio_ge_one hin h)]

/-! ## Exact differences and quotients (R123) -/

/-- A finite value of that many signed units. -/
def HasUnits (a : F64) (z : Int) : Prop := ∃ neg m, val64 a = .fin neg m ∧ signedUnits neg m = z

theorem signedUnits_natAbs (neg : Bool) (m : Nat) : (signedUnits neg m).natAbs = m := by
  cases neg <;> simp [signedUnits]

/-- The exact value of an integer of units keeps it. -/
theorem hasUnits_round64 (nan : F64) (zeroNeg : Bool) {z : Int} (h : Representable fmt64 z.natAbs) :
    HasUnits (round64 nan (exactOfInt zeroNeg z 1)) z := by
  have hval := val64_round64_exact nan (if z = 0 then zeroNeg else decide (z < 0)) Nat.one_pos h
  rw [Nat.mul_one] at hval
  refine ⟨_, _, hval, ?_⟩
  by_cases hz : z = 0
  · simp [hz, signedUnits]
  · rw [if_neg hz]
    by_cases hneg : z < 0
    · rw [decide_eq_true hneg, signedUnits_true]
      omega
    · rw [decide_eq_false hneg, signedUnits_false]
      omega

theorem HasUnits.sub {a b : F64} {y z : Int} (ha : HasUnits a y) (hb : HasUnits b z)
    (h : Representable fmt64 (y - z).natAbs) : HasUnits (fsub64 a b) (y - z) := by
  obtain ⟨s, m, hm, rfl⟩ := ha
  obtain ⟨t, n, hn, rfl⟩ := hb
  have hneg : signedUnits (!t) n = -signedUnits t n := by cases t <;> simp [signedUnits]
  rw [fsub64, hm, hn]
  simp only [negVal, addExact, hneg, ← sub_eq_add_neg]
  exact hasUnits_round64 _ _ h

/-- 1/128 in units. -/
def tapGrain : Nat := 2 ^ (unitExp fmt64 - 7)

theorem oneUnits_eq_tapGrains : oneUnits fmt64 = 128 * tapGrain := by
  rw [tapGrain, show 128 = 2 ^ 7 from rfl, ← Nat.pow_add, Nat.add_sub_cancel' (by decide)]
  rfl

theorem representable_tapGrains {z : Int} (hz : z.natAbs ≤ 2 ^ 53) :
    Representable fmt64 (z * (tapGrain : Int)).natAbs := by
  rw [Int.natAbs_mul, Int.natAbs_natCast]
  exact representable64 _ _ hz (by decide)

theorem hasUnits_intToF64 {t : Nat} (ht : t ≤ 2 ^ 53) :
    HasUnits (intToF64 t) (128 * (t : Int) * tapGrain) := by
  refine ⟨false, _, val64_intToF64 t ht, ?_⟩
  rw [signedUnits_false, oneUnits_eq_tapGrains]
  push_cast
  ring

theorem val64_center : val64 0x401E000000000000#64 = .fin false (960 * tapGrain) := by decide +kernel

theorem hasUnits_phaseOffset {ph : Nat} (hph : ph < 128) :
    HasUnits (fdiv64 (intToF64 ph) 0x4060000000000000#64) ((ph : Int) * tapGrain) := by
  have hone := oneUnits_pos fmt64
  have hrep : Representable fmt64 (ph * tapGrain) := representable64 _ _ (by omega) (by decide)
  have hquot : ph * oneUnits fmt64 * oneUnits fmt64 = ph * tapGrain * (128 * oneUnits fmt64) := by
    rw [oneUnits_eq_tapGrains]
    ring
  obtain ⟨m, hm, hle, hge⟩ := fdiv64_nonneg (val64_intToF64 ph (by omega)) val64_128 (Nat.mul_pos (by norm_num) hone)
    hrep hquot.le
  refine ⟨false, m, hm, ?_⟩
  rw [signedUnits_false, Nat.le_antisymm hle (hge _ hrep hquot.ge), Nat.cast_mul]

/-- The tap offset is the exact one. -/
theorem hasUnits_tapOffset {ph t : Nat} (hph : ph < 128) (ht : t < 16) :
    HasUnits (tapOffset (centerOf .realDivision) ph t) ((128 * (t : Int) - 960 - ph) * tapGrain) := by
  have hcenter : HasUnits (centerOf .realDivision) (960 * (tapGrain : Int)) :=
    ⟨false, _, val64_center, by rw [signedUnits_false, Nat.cast_mul]; rfl⟩
  have hfirst := (hasUnits_intToF64 (t := t) (by omega)).sub hcenter (by
    rw [← sub_mul]
    exact representable_tapGrains (by omega))
  have hsecond := hfirst.sub (hasUnits_phaseOffset hph) (by
    rw [← sub_mul, ← sub_mul]
    exact representable_tapGrains (by omega))
  rwa [← sub_mul, ← sub_mul] at hsecond

/-! ## The peak (R124) -/

theorem val64_fabs64 {a : F64} {neg : Bool} {m : Nat} (h : val64 a = .fin neg m) :
    val64 (fabs64 a) = .fin false m := by
  obtain ⟨hlt, hm, -⟩ := floatVal_fin fmt64 h
  have hbits : (fabs64 a).toNat = 0 + a.toNat % signWeight fmt64 := by
    rw [fabs64, BitVec.toNat_and, Nat.zero_add]
    exact Nat.and_two_pow_sub_one_eq_mod a.toNat 63
  rw [val64, hbits, hm]
  exact (floatVal_pattern fmt64 (neg := false) hlt.le infPattern_lt_sign64).trans (if_neg hlt.ne)

/-- 10^-6 in units. -/
def peakUnits : Nat := 0x10C6F7A0B5ED8D * 2 ^ (unitExp fmt64 - 72)

theorem peakUnits_pos : 0 < peakUnits := Nat.mul_pos (by norm_num) (Nat.two_pow_pos _)

theorem val64_peakBound : val64 0x3EB0C6F7A0B5ED8D#64 = .fin false peakUnits := by decide +kernel

theorem peakUnits_le : peakUnits ≤ tapGrain := by
  have hpow : 2 ^ 65 * 2 ^ (unitExp fmt64 - 72) = tapGrain := by
    rw [← Nat.pow_add, show 65 + (unitExp fmt64 - 72) = unitExp fmt64 - 7 by decide]
    rfl
  rw [peakUnits, ← hpow]
  exact Nat.mul_le_mul_right _ (by norm_num)

/-- A whole number of 128ths is below 10^-6 when it is 0. -/
theorem peak_iff {a : F64} {z : Int} (h : HasUnits a (z * tapGrain)) :
    flt64 (fabs64 a) 0x3EB0C6F7A0B5ED8D#64 = true ↔ z = 0 := by
  obtain ⟨neg, m, hm, hz⟩ := h
  have hle := peakUnits_le
  have hmag : m = z.natAbs * tapGrain := by
    rw [← signedUnits_natAbs neg m, hz, Int.natAbs_mul, Int.natAbs_natCast]
  rw [flt64_nonneg (val64_fabs64 hm) val64_peakBound, decide_eq_true_iff, hmag]
  constructor
  · intro hlt
    by_contra hne
    have hge : 1 * tapGrain ≤ z.natAbs * tapGrain := Nat.mul_le_mul_right _ (Int.natAbs_pos.2 hne)
    omega
  · rintro rfl
    simpa using peakUnits_pos

end Sys2Proof.Machine
end

section
/-! The obligations of 40_filter_bank_builder.md R121 to R130 and R136. -/

open Sys2Proof Sys2Proof.Machine

/-- Settles O44: a word of the table is its block's normalised tap, each name in the statement the model's. -/
theorem tableWordIsNormalisedTap : Obligations.TableWordIsNormalisedTap := by
  refine ⟨fun base din dout => ⟨rfl, rfl, rfl, rfl, fun _ _ => rfl⟩, ?_⟩
  intro p sin cos input output ph t hph ht ratio cutoff center x v w raw sum hratio hhigh hlow hreal hint hrow h0 hsum
  have hcut : cutoff = cutoffOf (rateRatio input output) := by
    change _ = cutoffOf (fdiv64 _ _)
    rw [← hratio]
    cases hge : fge64 ratio 0x3FF0000000000000#64 with
    | true => rw [hhigh hge, cutoffOf_high hge]
    | false => rw [hlow hge, cutoffOf_low hge]
  have hcenter : center = centerOf p.center := by
    cases hc : p.center with
    | realDivision => exact hreal hc
    | integerDivision => exact hint hc
  have hraw : ∀ i, i < 16 → raw i = rawTap p sin cos cutoff ph i := by
    intro i hi
    obtain ⟨hx, hpeak, hside, hw, hr⟩ := hrow i hi
    have hx' : x i = tapOffset (centerOf p.center) ph i := hcenter ▸ hx
    have hv : v i = sincTap sin p.pi64 cutoff (x i) := by
      unfold sincTap
      split
      · exact hpeak ‹_›
      · exact hside (Bool.eq_false_iff.2 ‹_›)
    rw [hr, hv, hw, hx']
    rfl
  rw [build, ← hcut, tableFor_get p sin cos cutoff hph ht, hraw t ht,
    rowSum_rawRow h0 fun i hi => by rw [hsum i hi, hraw i hi]]

/-- Settles O45: every difference and quotient is a small whole number of 128ths. -/
theorem tapOffsetsExactPeakOnce : Obligations.TapOffsetsExactPeakOnce := by
  intro ph t hph ht
  have hunits := hasUnits_tapOffset hph ht
  obtain ⟨neg, m, hm, hz⟩ := id hunits
  refine ⟨neg, m, hm, ?_, ?_⟩
  · rw [hz, oneUnits_eq_tapGrains]
    push_cast
    ring
  · rw [peak_iff hunits]
    omega

/-- Settles O46: the quotient of the rates is at least 1.0, so the cutoff is the constant. -/
theorem upsamplingPairsShareTable : Obligations.UpsamplingPairsShareTable := by
  intro p sin cos a b c d ha hc hab hcd
  rw [build_upsampling p sin cos ha hab, build_upsampling p sin cos hc hcd]
end
